-- ==== Sys2Proof/Word.lean ====
section
/-! DEFINITION. The widths of the block: a byte, a register word, an LFSR seed, a byte sequence
(spec 00_scope.md R8, R11, R13). -/

namespace Sys2Proof

/-- A byte, 8 bits (R11). -/
abbrev Byte := BitVec 8

/-- A register word, 32 bits (R21). -/
abbrev Word := BitVec 32

/-- The source's LfsrSeed, 15 bits, 0 to 0x7FFF (R8). -/
abbrev Seed := BitVec 15

/-- A byte sequence (R13): `buf[i]` counts from 0, `++` concatenates. -/
abbrev Bytes := List Byte

end Sys2Proof
end

