-- ==== Sys2Proof/Config.lean ====
section
/-! DEFINITION. The implementation parameters of the block (spec 00_scope.md R9). A parameter is plain data, so that a
claim about every state is a claim about every admissible parameter; a parameter that is a FUNCTION and is not the
default one is an opaque constant, of which nothing can be proved but that it is a function. -/

namespace Sys2Proof

/-- A parameter of R9: the default the spec gives it, or another value. -/
inductive Param (α : Type) where
  | standard
  | other (v : α)
deriving DecidableEq, Repr

/-- The eight parameters of R9. `dvdEdc`, `cacheOrder` and `qCrc` name the function they stand for by a number
where it is not the default one. -/
structure Config where
  /-- `MEM_SIZE`, 4704 to 2^31 (R9, R10). -/
  memSize    : Nat
  /-- `HAS_ECCDEC` (R6, R9). -/
  hasEccDec  : Bool
  /-- `SCRAMBLE_TABLE`, 2352 bytes, the first 12 zero (R191, R192). -/
  scramble   : Param Bytes
  /-- `DVD_EDC`, a total function (R205). -/
  dvdEdc     : Param Nat
  /-- `ECMA267_SEEDS`, 16 seeds (R207). -/
  ecmaSeeds  : Param (List Seed)
  /-- `CACHE_ORDER`, an enumeration order of the cached seeds (R209). -/
  cacheOrder : Param Nat
  /-- `Q_CRC`, a total function (R252). -/
  qCrc       : Param Nat
  /-- `ISRC_TABLE`, 64 bytes (R262). -/
  isrc       : Param Bytes
deriving DecidableEq, Repr

/-- Every parameter at the default R9 gives it. -/
def Config.standard : Config :=
  { memSize := 65536, hasEccDec := true, scramble := .standard, dvdEdc := .standard, ecmaSeeds := .standard,
    cacheOrder := .standard, qCrc := .standard, isrc := .standard }

/-- Free value: the `n`-th `DVD_EDC` that is not the default. R205 says only that it is total and depends on its
argument alone (log 5). -/
opaque Config.dvdEdcOther : Nat → Bytes → Word

/-- Free value: the `n`-th `Q_CRC` that is not the default; R252 says only that it is total (log 5). -/
opaque Config.qCrcOther : Nat → Bytes → BitVec 16

/-- Free value: under the `n`-th `CACHE_ORDER` that is not the default, the rank of a seed in the enumeration of a
cache; any permutation of distinct seeds is the order of some ranking (R209, log 6). -/
opaque Config.cacheRank : Nat → List Seed → Seed → Nat

end Sys2Proof
end

