-- ==== Sys2Proof/Syntax.lean ====
section
/-! DEFINITION. The eighteen commands, one constructor per row of spec/opcode_table.json, and their two immediate
fields (spec 30_encoding.md R92, R93, R94). Operands that do not fit the word are registers (R91). -/

namespace Sys2Proof

/-- Field `TT` (R92). Values 5 to 7 are legal and unrecognised. -/
inductive TrackType where
  | other
  | mode1
  | mode2Form1
  | mode2Form2
  | mode2Formless
  | tt5
  | tt6
  | tt7
deriving DecidableEq, Repr

/-- Field `QF`, the four boolean arguments of `prettify_q` (R93). -/
structure QFlags where
  bcd            : Bool
  corruptedPause : Bool
  pause          : Bool
  rwEmpty        : Bool
deriving DecidableEq, Repr

/-- The commands of R94. -/
inductive Instr where
  | nop
  | edc
  | rprefix (tt : TrackType)
  | recc (tt : TrackType)
  | eccsyn (tt : TrackType)
  | eccfix (tt : TrackType)
  | cdscr
  | dvdtest
  | dvdseed
  | dvdscr
  | dvdscrb
  | dvdrst
  | qbin2bcd
  | qbcd2bin
  | q2raw
  | intlv
  | deintlv
  | qparse (qf : QFlags)
deriving DecidableEq, Repr

end Sys2Proof
end

