-- ==== Sys2Proof/WellFormed.lean ====
section
/-! DEFINITION. Which configurations are admissible (spec 00_scope.md R9, 43_cd_scrambler.md R192) and which
commands exist in a configuration (30_encoding.md R94). -/

namespace Sys2Proof

/-- A parameter that is not the default meets its constraint. -/
def Param.admissible {α : Type} (ok : α → Bool) : Param α → Bool
  | .standard => true
  | .other v  => ok v

/-- R9: 4704 <= MEM_SIZE <= 2^31. -/
def Config.memSizeOk (c : Config) : Bool := decide (4704 ≤ c.memSize) && decide (c.memSize ≤ 2 ^ 31)

/-- R9, R192: 2352 bytes, bytes 0 to 11 are 0x00. -/
def Config.scrambleOk (c : Config) : Bool :=
  c.scramble.admissible fun t => decide (t.length = 2352) && decide (t.take 12 = List.replicate 12 0)

/-- R9: a list of 16 values (each is 15 bits by its type). -/
def Config.ecmaSeedsOk (c : Config) : Bool := c.ecmaSeeds.admissible fun l => decide (l.length = 16)

/-- R9: 64 entries of one byte. -/
def Config.isrcOk (c : Config) : Bool := c.isrc.admissible fun t => decide (t.length = 64)

/-- Every constraint of R9 together. -/
def Config.wellFormed (c : Config) : Bool := c.memSizeOk && c.scrambleOk && c.ecmaSeedsOk && c.isrcOk

/-- R94: commands `ECCSYN` and `ECCFIX` exist only when `HAS_ECCDEC` is true; every other command always exists.
`TT` and `QF` hold legal values by their types (R92, R93). -/
def Instr.wellFormed (hasEccDec : Bool) : Instr → Bool
  | .nop => true
  | .edc => true
  | .rprefix _ => true
  | .recc _ => true
  | .eccsyn _ => hasEccDec
  | .eccfix _ => hasEccDec
  | .cdscr => true
  | .dvdtest => true
  | .dvdseed => true
  | .dvdscr => true
  | .dvdscrb => true
  | .dvdrst => true
  | .qbin2bcd => true
  | .qbcd2bin => true
  | .q2raw => true
  | .intlv => true
  | .deintlv => true
  | .qparse _ => true

end Sys2Proof
end

