-- ==== Sys2Proof/Decode.lean ====
section
/-! DEFINITION. The command word, format CMD32: its fields, the opcode map, the total decoder and the encoder
(spec 30_encoding.md R90 to R97). -/

namespace Sys2Proof

/-- `OPC`, bits 7:0 (R90). -/
def opcField (w : Word) : BitVec 8 := w.extractLsb' 0 8

/-- `TT`, bits 10:8 (R90). -/
def ttField (w : Word) : BitVec 3 := w.extractLsb' 8 3

/-- `QF`, bits 15:12 (R90). -/
def qfField (w : Word) : BitVec 4 := w.extractLsb' 12 4

/-- The track type a `TT` value names (R92). -/
def TrackType.ofBits (b : BitVec 3) : TrackType :=
  match b.toNat with
  | 0 => .other
  | 1 => .mode1
  | 2 => .mode2Form1
  | 3 => .mode2Form2
  | 4 => .mode2Formless
  | 5 => .tt5
  | 6 => .tt6
  | _ => .tt7

/-- The `TT` value of a track type (R92). -/
def TrackType.toBits : TrackType → BitVec 3
  | .other => 0
  | .mode1 => 1
  | .mode2Form1 => 2
  | .mode2Form2 => 3
  | .mode2Formless => 4
  | .tt5 => 5
  | .tt6 => 6
  | .tt7 => 7

/-- The four flags of a `QF` value: command word bit 12 `BCD`, 13 `CORRUPTED_PAUSE`, 14 `PAUSE`, 15 `RW_EMPTY` (R93). -/
def QFlags.ofBits (b : BitVec 4) : QFlags :=
  { bcd := b.getLsbD 0, corruptedPause := b.getLsbD 1, pause := b.getLsbD 2, rwEmpty := b.getLsbD 3 }

/-- The `QF` value of four flags (R93). -/
def QFlags.toBits (q : QFlags) : BitVec 4 :=
  BitVec.ofBool q.rwEmpty ++ BitVec.ofBool q.pause ++ BitVec.ofBool q.corruptedPause ++ BitVec.ofBool q.bcd

/-- Why a word is no command (R95). -/
inductive DecodeError where
  /-- Step 1: no row has this `OPC`, or its row needs the ECC decoder and there is none. -/
  | illop
  /-- Step 2: a bit outside the row's fields is set. -/
  | rsvd
deriving DecidableEq, Repr

/-- A row of the opcode map R94: a word is the row's command exactly when `w & mask = pattern`. -/
structure Row where
  opc         : BitVec 8
  pattern     : Word
  mask        : Word
  needsEccDec : Bool
  build       : Word → Instr

/-- The opcode map R94. -/
def opcodeRows : List Row :=
  [ ⟨0x00, 0x00000000, 0xFFFFFFFF, false, fun _ => .nop⟩,
    ⟨0x10, 0x00000010, 0xFFFFFFFF, false, fun _ => .edc⟩,
    ⟨0x11, 0x00000011, 0xFFFFF8FF, false, fun w => .rprefix (.ofBits (ttField w))⟩,
    ⟨0x12, 0x00000012, 0xFFFFF8FF, false, fun w => .recc (.ofBits (ttField w))⟩,
    ⟨0x13, 0x00000013, 0xFFFFF8FF, true,  fun w => .eccsyn (.ofBits (ttField w))⟩,
    ⟨0x14, 0x00000014, 0xFFFFF8FF, true,  fun w => .eccfix (.ofBits (ttField w))⟩,
    ⟨0x20, 0x00000020, 0xFFFFFFFF, false, fun _ => .cdscr⟩,
    ⟨0x30, 0x00000030, 0xFFFFFFFF, false, fun _ => .dvdtest⟩,
    ⟨0x31, 0x00000031, 0xFFFFFFFF, false, fun _ => .dvdseed⟩,
    ⟨0x32, 0x00000032, 0xFFFFFFFF, false, fun _ => .dvdscr⟩,
    ⟨0x33, 0x00000033, 0xFFFFFFFF, false, fun _ => .dvdscrb⟩,
    ⟨0x34, 0x00000034, 0xFFFFFFFF, false, fun _ => .dvdrst⟩,
    ⟨0x40, 0x00000040, 0xFFFFFFFF, false, fun _ => .qbin2bcd⟩,
    ⟨0x41, 0x00000041, 0xFFFFFFFF, false, fun _ => .qbcd2bin⟩,
    ⟨0x42, 0x00000042, 0xFFFFFFFF, false, fun _ => .q2raw⟩,
    ⟨0x43, 0x00000043, 0xFFFFFFFF, false, fun _ => .intlv⟩,
    ⟨0x44, 0x00000044, 0xFFFFFFFF, false, fun _ => .deintlv⟩,
    ⟨0x45, 0x00000045, 0xFFFF0FFF, false, fun w => .qparse (.ofBits (qfField w))⟩ ]

/-- The row with a word's `OPC`, if the block has it (R95 step 1). -/
def findRow (hasEccDec : Bool) (opc : BitVec 8) : Option Row :=
  opcodeRows.find? fun r => r.opc == opc && (hasEccDec || !r.needsEccDec)

/-- R95, in its order: `ILLOP`, then `RSVD`, then the row's command with its fields taken from the word. -/
def decode (hasEccDec : Bool) (w : Word) : Except DecodeError Instr :=
  match findRow hasEccDec (opcField w) with
  | none   => .error .illop
  | some r => if w &&& r.mask = r.pattern then .ok (r.build w) else .error .rsvd

/-- The `OPC` of a command (R94). -/
def Instr.opc : Instr → BitVec 8
  | .nop => 0x00
  | .edc => 0x10
  | .rprefix _ => 0x11
  | .recc _ => 0x12
  | .eccsyn _ => 0x13
  | .eccfix _ => 0x14
  | .cdscr => 0x20
  | .dvdtest => 0x30
  | .dvdseed => 0x31
  | .dvdscr => 0x32
  | .dvdscrb => 0x33
  | .dvdrst => 0x34
  | .qbin2bcd => 0x40
  | .qbcd2bin => 0x41
  | .q2raw => 0x42
  | .intlv => 0x43
  | .deintlv => 0x44
  | .qparse _ => 0x45

/-- The `TT` field a command carries, 0 in a command without one (R90). -/
def Instr.ttBits : Instr → BitVec 3
  | .rprefix tt => tt.toBits
  | .recc tt => tt.toBits
  | .eccsyn tt => tt.toBits
  | .eccfix tt => tt.toBits
  | .nop => 0
  | .edc => 0
  | .cdscr => 0
  | .dvdtest => 0
  | .dvdseed => 0
  | .dvdscr => 0
  | .dvdscrb => 0
  | .dvdrst => 0
  | .qbin2bcd => 0
  | .qbcd2bin => 0
  | .q2raw => 0
  | .intlv => 0
  | .deintlv => 0
  | .qparse _ => 0

/-- The `QF` field a command carries, 0 in a command without one (R90). -/
def Instr.qfBits : Instr → BitVec 4
  | .qparse qf => qf.toBits
  | .nop => 0
  | .edc => 0
  | .rprefix _ => 0
  | .recc _ => 0
  | .eccsyn _ => 0
  | .eccfix _ => 0
  | .cdscr => 0
  | .dvdtest => 0
  | .dvdseed => 0
  | .dvdscr => 0
  | .dvdscrb => 0
  | .dvdrst => 0
  | .qbin2bcd => 0
  | .qbcd2bin => 0
  | .q2raw => 0
  | .intlv => 0
  | .deintlv => 0

/-- The word of a command: `QF` at 15:12, `TT` at 10:8, `OPC` at 7:0, every other bit 0 (R90). -/
def encode (i : Instr) : Word := 0#16 ++ i.qfBits ++ 0#1 ++ i.ttBits ++ i.opc

/-- The instruction the decoder of the default block reads from an instruction's bits, numbered as
spec/opcode_table.json numbers them. A command is ONE 32-bit value written to `CMD` as a whole: it has no byte
order (R66, R90). -/
def decodeTableWord (nbits w : Nat) : Option Instr :=
  if nbits ≤ 32 then
    match decode true (BitVec.ofNat 32 (w % 2 ^ nbits)) with
    | .ok i => some i
    | .error _ => none
  else none

/-- The mnemonic of a command (R94). -/
def Instr.mnemonic : Instr → String
  | .nop => "NOP"
  | .edc => "EDC"
  | .rprefix _ => "RPREFIX"
  | .recc _ => "RECC"
  | .eccsyn _ => "ECCSYN"
  | .eccfix _ => "ECCFIX"
  | .cdscr => "CDSCR"
  | .dvdtest => "DVDTEST"
  | .dvdseed => "DVDSEED"
  | .dvdscr => "DVDSCR"
  | .dvdscrb => "DVDSCRB"
  | .dvdrst => "DVDRST"
  | .qbin2bcd => "QBIN2BCD"
  | .qbcd2bin => "QBCD2BIN"
  | .q2raw => "Q2RAW"
  | .intlv => "INTLV"
  | .deintlv => "DEINTLV"
  | .qparse _ => "QPARSE"

/-- The assembler's name of a track type (R92). -/
def TrackType.asm : TrackType → String
  | .other => "OTHER"
  | .mode1 => "M1"
  | .mode2Form1 => "M2F1"
  | .mode2Form2 => "M2F2"
  | .mode2Formless => "M2FL"
  | .tt5 => "TT5"
  | .tt6 => "TT6"
  | .tt7 => "TT7"

/-- The assembler's flag list: the names of the set flags, in the order of R97, with commas between. -/
def QFlags.asm (q : QFlags) : String :=
  String.intercalate "," ((if q.bcd then ["BCD"] else []) ++ (if q.corruptedPause then ["CORRUPTED_PAUSE"] else [])
    ++ (if q.pause then ["PAUSE"] else []) ++ (if q.rwEmpty then ["RW_EMPTY"] else []))

/-- A command line of R97: the mnemonic, then the track type or the flag list where the command has one. -/
def Instr.asm (i : Instr) : String :=
  match i with
  | .rprefix tt => i.mnemonic ++ " " ++ tt.asm
  | .recc tt => i.mnemonic ++ " " ++ tt.asm
  | .eccsyn tt => i.mnemonic ++ " " ++ tt.asm
  | .eccfix tt => i.mnemonic ++ " " ++ tt.asm
  | .qparse qf => if qf.asm = "" then i.mnemonic else i.mnemonic ++ " " ++ qf.asm
  | .nop => i.mnemonic
  | .edc => i.mnemonic
  | .cdscr => i.mnemonic
  | .dvdtest => i.mnemonic
  | .dvdseed => i.mnemonic
  | .dvdscr => i.mnemonic
  | .dvdscrb => i.mnemonic
  | .dvdrst => i.mnemonic
  | .qbin2bcd => i.mnemonic
  | .qbcd2bin => i.mnemonic
  | .q2raw => i.mnemonic
  | .intlv => i.mnemonic
  | .deintlv => i.mnemonic

end Sys2Proof
end

