-- ==== Sys2Proof/Machine/State.lean ====
section
/-! DEFINITION. The state of one SCE block as plain data (spec 10_state.md R20 to R37), the events of the host's side
of the port (20_memory.md R61, 70_reset_and_hazards.md R330), the stops, and the state after reset. -/

namespace Sys2Proof.Machine

/-- The buffer memory `MEM` (R32): the bytes that differ from what an unlisted address reads as, addresses strictly
rising (Memory.wf in Machine/Ops.lean; log 3). -/
abbrev Memory := List Host.Cell

/-- The Q record, registers `Q0` to `Q7` (R31). -/
structure QRecord where
  q0 : Word
  q1 : Word
  q2 : Word
  q3 : Word
  q4 : Word
  q5 : Word
  q6 : Word
  q7 : Word
deriving DecidableEq, Repr

/-- The record with every register 0. -/
def QRecord.zero : QRecord := ⟨0, 0, 0, 0, 0, 0, 0, 0⟩

/-- The DvdDescrambler instance (R33): the hint `LAST` and the seeds of `CACHE`, oldest first. The keystream of a
cached seed is a function of the seed and is no state. -/
structure DvdInstance where
  last  : Option Seed
  cache : List Seed
deriving DecidableEq, Repr

/-- A new instance: no hint, an empty cache (R36). -/
def DvdInstance.fresh : DvdInstance := ⟨none, []⟩

/-- One event of the host's side of the port: a read or a write access of `bits` bits at an offset from the block's
base (R60, R61; well formed or not), or the platform's reset, after which the memory holds `content` (R37, R330;
log 7). A write access carries its value in 32 bits and an 8-bit one uses the low 8 (log 8). -/
inductive HostEvent where
  | read (bits off : Nat)
  | write (bits off : Nat) (value : Word)
  | reset (content : List Host.Cell)
deriving DecidableEq, Repr

/-- The state of the block, and the host's side of its port. -/
structure State where
  /-- The implementation parameters, fixed for the machine (R9; log 4). -/
  cfg      : Config
  /-- `SRC` (R21). -/
  src      : Word
  /-- `DST` (R21). -/
  dst      : Word
  /-- `LEN` (R21). -/
  len      : Word
  /-- `LBA`, read as two's complement (R21, R22, C1). -/
  lba      : Word
  /-- `EDCSEED` (R21). -/
  edcseed  : Word
  /-- `SEED`, the 15 bits kept (R22). -/
  seed     : Seed
  /-- `XFER` (R21). -/
  xfer     : Word
  /-- `OLEN` (R23). -/
  olen     : Word
  /-- `RES0` (R23). -/
  res0     : Word
  /-- `RES1` (R23). -/
  res1     : Word
  /-- `RES2` (R23). -/
  res2     : Word
  /-- `CMD`, the last word written (R28). -/
  cmd      : Word
  /-- `STATUS` (R25). -/
  status   : Word
  /-- `ERRLOG` (R26). -/
  errlog   : Word
  /-- `CACHEIDX` (R29). -/
  cacheidx : Word
  /-- `Q0` to `Q7` (R31). -/
  q        : QRecord
  /-- `MEM` (R32). -/
  mem      : Memory
  /-- `LAST` and `CACHE` (R33). -/
  dvd      : DvdInstance
  /-- The MODEL's field: what the host and the platform do next, the nearest first (log 1). -/
  host     : List HostEvent
  /-- The MODEL's field: the value the last read access returned to the host (log 2). -/
  rdata    : Word
deriving DecidableEq, Repr

/-- What stops the machine: nothing. Every word written to `CMD` in every state yields exactly one next state
(93_implementation_defined.md section 2); command errors and bus address errors are next states (log 14). -/
inductive Fault where
deriving DecidableEq, Repr

/-- Instructions the model gives no meaning to. -/
inductive Refusal where
  /-- Raised by exec's arm of a command that has no meaning yet; safe. No arm raises it in this model. -/
  | notModelled (mnemonic : String)
deriving DecidableEq, Repr

/-- The block right after reset in a configuration, when `MEM` powers up with `content` (R36, R37, R330): every
register 0, `LAST` unset, `CACHE` empty. -/
def State.resetWith (c : Config) (content : Memory) : State :=
  { cfg := c, src := 0, dst := 0, len := 0, lba := 0, edcseed := 0, seed := 0, xfer := 0, olen := 0, res0 := 0,
    res1 := 0, res2 := 0, cmd := 0, status := 0, errlog := 0, cacheidx := 0, q := .zero, mem := content,
    dvd := .fresh, host := [], rdata := 0 }

/-- The block right after reset with every parameter at its default and no memory byte listed (log 3, log 4). The
spec leaves the content of `MEM` open: State.resetWith ranges over every content. -/
def State.reset : State := .resetWith .standard []

end Sys2Proof.Machine
end

