-- ==== Sys2Proof/Machine/Flags.lean ====
section
/-! DEFINITION. The block's flags: the fields of `STATUS` and the bits of `ERRLOG` (spec 10_state.md R25, R26,
60_exceptions.md R301, R302, R310). -/

namespace Sys2Proof.Machine

/-- `STATUS.OUTCOME` (R25). -/
inductive Tag where
  | idle
  | unchanged
  | transformed
  | computed
  | error
deriving DecidableEq, Repr

/-- `STATUS.REASON` (R25). -/
inductive Reason where
  | none
  | length
  | nosync
  | ttype
  | noseed
  | range
  | clean
  | uncorr
deriving DecidableEq, Repr

/-- The four command errors (R301). -/
inductive CmdError where
  | illop
  | rsvd
  | srcrange
  | dstrange
deriving DecidableEq, Repr

/-- The value of `OUTCOME` (R25). -/
def Tag.code : Tag → BitVec 3
  | .idle => 0
  | .unchanged => 1
  | .transformed => 2
  | .computed => 3
  | .error => 4

/-- The value of `REASON` (R25). -/
def Reason.code : Reason → BitVec 4
  | .none => 0
  | .length => 1
  | .nosync => 2
  | .ttype => 3
  | .noseed => 4
  | .range => 5
  | .clean => 6
  | .uncorr => 7

/-- The value of `ERR` (R25, R301). -/
def CmdError.code : CmdError → BitVec 4
  | .illop => 1
  | .rsvd => 2
  | .srcrange => 3
  | .dstrange => 4

/-- A `STATUS` word (R25): `OPC` 31:24, reserved 23:12, `ERR` 11:8, `REASON` 7:4, reserved 3, `OUTCOME` 2:0. -/
def statusWord (tag : Tag) (reason : Reason) (err : BitVec 4) (opc : BitVec 8) : Word :=
  opc ++ 0#12 ++ err ++ reason.code ++ 0#1 ++ tag.code

/-- `STATUS.OUTCOME`, bits 2:0 (R25). -/
def statusOutcome (w : Word) : BitVec 3 := w.extractLsb' 0 3

/-- `STATUS.REASON`, bits 7:4 (R25). -/
def statusReason (w : Word) : BitVec 4 := w.extractLsb' 4 4

/-- `STATUS.ERR`, bits 11:8 (R25). -/
def statusErr (w : Word) : BitVec 4 := w.extractLsb' 8 4

/-- `STATUS.OPC`, bits 31:24 (R25). -/
def statusOpc (w : Word) : BitVec 8 := w.extractLsb' 24 8

/-- The `ERRLOG` bit of a command error, bit `n` for code `n` (R26, R302). -/
def CmdError.bit (e : CmdError) : Word := 1#32 <<< e.code.toNat

/-- The `ERRLOG` bit of a bus address error, bit 5 (R26, R308). -/
def busaddrBit : Word := 1#32 <<< 5

end Sys2Proof.Machine
end

