-- ==== Sys2Proof/Machine/Bytes.lean ====
section
/-! DEFINITION. Byte sequences: indexing, ranges, the fixed byte orders, nibbles, and exclusive-or with a
keystream (spec 00_scope.md R11, R13, 20_memory.md R66). -/

namespace Sys2Proof.Machine

/-- `buf[i]` (R13). Every rule keeps `i` inside the sequence; outside it this answers 0 (log 11). -/
def byteAt (b : Bytes) (i : Nat) : Byte := b.getD i 0

/-- `buf[lo..hi)`, the half-open range of R13. -/
def slice (b : Bytes) (lo hi : Nat) : Bytes := (b.drop lo).take (hi - lo)

/-- `buf` after the assignment `buf[lo..lo+len(v)) = v`. -/
def splice (b : Bytes) (lo : Nat) (v : Bytes) : Bytes := b.take lo ++ v ++ b.drop (lo + v.length)

/-- `u32_le(v)`: least significant byte first (R13). -/
def u32le (v : Word) : Bytes :=
  [v.extractLsb' 0 8, v.extractLsb' 8 8, v.extractLsb' 16 8, v.extractLsb' 24 8]

/-- `u32_be`: four bytes, most significant first (R13). -/
def u32be (b0 b1 b2 b3 : Byte) : Word := b0 ++ b1 ++ b2 ++ b3

/-- `u16_be`: two bytes, most significant first (R13). -/
def u16be (b0 b1 : Byte) : BitVec 16 := b0 ++ b1

/-- `hi4(b)`, bits 7:4 (R11). -/
def hi4 (b : Byte) : BitVec 4 := b.extractLsb' 4 4

/-- `lo4(b)`, bits 3:0 (R11). -/
def lo4 (b : Byte) : BitVec 4 := b.extractLsb' 0 4

/-- The sequence with its first `len(k)` bytes exclusive-ored with `k`; the bytes after them stay as they are. -/
def xorPrefix : Bytes → Bytes → Bytes
  | b :: bs, k :: ks => (b ^^^ k) :: xorPrefix bs ks
  | bs, [] => bs
  | [], _ => []

/-- `f` applied `n` times. -/
def times {α : Type} (n : Nat) (f : α → α) (x : α) : α :=
  match n with
  | 0 => x
  | k + 1 => times k f (f x)

end Sys2Proof.Machine
end

