-- ==== Sys2Proof/Machine/Tables.lean ====
section
/-! DEFINITION. The constant tables and the functions every family shares: GF(2^8), the CD EDC, SYNC, packed BCD,
MSF time (spec 40_tables.md R120 to R131). A table is computed from its rule, which R131 allows. -/

namespace Sys2Proof.Machine

/-- `F[i]`, the product `alpha * i` in GF(2^8) modulo 0x11D (R121): 0x11D cut to the 8 bits kept is 0x1D. -/
def gfF (i : Byte) : Byte := (i <<< 1) ^^^ (if i.getLsbD 7 then 0x1D else 0)

/-- `B[y]`: the `i` with `i ^ F[i] = y` (R122, C4); there is exactly one. -/
def gfB (y : Byte) : Byte :=
  BitVec.ofNat 8 (((List.range 256).find? fun n => BitVec.ofNat 8 n ^^^ gfF (BitVec.ofNat 8 n) == y).getD 0)

/-- `gmul` from bit `k` of `b` on: `n` bits are left, `a` is `alpha^k` times the first factor (R123). -/
def gmulFrom (b : Byte) : Nat → Nat → Byte → Byte → Byte
  | 0, _, _, r => r
  | n + 1, k, a, r => gmulFrom b n (k + 1) (gfF a) (if b.getLsbD k then r ^^^ a else r)

/-- The product in GF(2^8) (R123). -/
def gmul (a b : Byte) : Byte := gmulFrom b 8 0 a 0

/-- `EXP[k] = alpha^k` (R123). -/
def gexp (k : Nat) : Byte := times k gfF 1

/-- The search for `b` among `n` successive powers of `alpha`, the first of which is `x = alpha^k`. -/
def glogFrom (b : Byte) : Nat → Nat → Byte → Nat
  | 0, _, _ => 0
  | n + 1, k, x => if x = b then k else glogFrom b n (k + 1) (gfF x)

/-- `LOG[b]`, the `k` below 255 with `EXP[k] = b`, for `b` not 0 (R123). No rule asks for `LOG[0]` (log 11). -/
def glog (b : Byte) : Nat := glogFrom b 255 0 1

/-- The quotient in GF(2^8), for `b` not 0 (R123). -/
def gdiv (a b : Byte) : Byte := if a = 0 then 0 else gexp ((glog a + 255 - glog b) % 255)

/-- `ginv(b) = gdiv(1, b)` (R123). -/
def ginv (b : Byte) : Byte := gdiv 1 b

/-- One shift-step of the reflected CD EDC (R124). -/
def edcStep (e : Word) : Word := (e >>> 1) ^^^ (if e.getLsbD 0 then 0xD8018001 else 0)

/-- `EDCT[i]` (R124). -/
def edct (i : Byte) : Word := times 8 edcStep (i.setWidth 32)

/-- `edc_cd(seed, data)` (R125). -/
def edcCd (seed : Word) (data : Bytes) : Word :=
  data.foldl (fun e b => (e >>> 8) ^^^ edct ((e ^^^ b.setWidth 32).setWidth 8)) seed

/-- `SYNC`, the SyncMark (R127). -/
def sync : Bytes := [0x00, 0xFF, 0xFF, 0xFF, 0xFF, 0xFF, 0xFF, 0xFF, 0xFF, 0xFF, 0xFF, 0x00]

/-- `to_bcd(v)`, for `v` from 0 to 99 (R128). -/
def toBcd (v : Nat) : Byte := BitVec.ofNat 8 (((v / 10) <<< 4) ||| (v % 10))

/-- Both nibbles of a byte are decimal digits: the domain of `from_bcd` (R128). -/
def bcdOk (b : Byte) : Bool := decide ((hi4 b).toNat ≤ 9) && decide ((lo4 b).toNat ≤ 9)

/-- `from_bcd(b)`, for a byte both of whose nibbles are at most 9 (R128). -/
def fromBcd (b : Byte) : Nat := (hi4 b).toNat * 10 + (lo4 b).toNat

/-- Minute, second and frame of a time in frames. -/
structure Msf where
  minute : Nat
  second : Nat
  frame  : Nat
deriving DecidableEq, Repr

/-- `msf(t)`, 75 frames a second, 60 seconds a minute, for `t` from 0 to 449999 (R129). -/
def msf (t : Nat) : Msf := { minute := t / 4500, second := (t / 75) % 60, frame := t % 75 }

end Sys2Proof.Machine
end

