-- ==== Sys2Proof/Machine/Operands.lean ====
section
/-! DEFINITION. The operands of a command: the input range, the destination bound, the signed address and its time
(spec 10_state.md R22, 20_memory.md R65, 40_tables.md R129, 60_exceptions.md R305, R306). -/

namespace Sys2Proof.Machine

/-- `sext_32(LBA)` (R22, C1). -/
def State.lbaInt (s : State) : Int := s.lba.toInt

/-- `sext_32(LBA) + 150`, an unbounded integer (R130 d). -/
def lbaTime (lba : Int) : Int := lba + 150

/-- The time of an address is between 00:00:00 and 99:59:74 (R129, R145). -/
def timeOk (t : Int) : Bool := decide (0 ≤ t) && decide (t ≤ 449999)

/-- The commands that take an input buffer: every one but `NOP` and `DVDRST` (R305). -/
def readsSource : Instr → Bool
  | .nop => false
  | .dvdrst => false
  | .edc => true
  | .rprefix _ => true
  | .recc _ => true
  | .eccsyn _ => true
  | .eccfix _ => true
  | .cdscr => true
  | .dvdtest => true
  | .dvdseed => true
  | .dvdscr => true
  | .dvdscrb => true
  | .qbin2bcd => true
  | .qbcd2bin => true
  | .q2raw => true
  | .intlv => true
  | .deintlv => true
  | .qparse _ => true

/-- `outmax`: the most bytes a command can write at `DST` given `LEN` (R306). -/
def outmax (i : Instr) (len : Nat) : Nat :=
  match i with
  | .nop => 0
  | .edc => 0
  | .dvdtest => 0
  | .dvdrst => 0
  | .qparse _ => 0
  | .rprefix _ => len
  | .recc _ => len
  | .eccfix _ => len
  | .cdscr => len
  | .dvdscr => len
  | .dvdscrb => len
  | .qbin2bcd => len
  | .qbcd2bin => len
  | .intlv => len
  | .deintlv => len
  | .eccsyn _ => 276
  | .dvdseed => 2048
  | .q2raw => if len % 16 = 0 then 6 * len else len

/-- `SRC + LEN <= MEM_SIZE`, on unbounded naturals (R305). -/
def State.srcOk (s : State) : Bool := decide (s.src.toNat + s.len.toNat ≤ s.cfg.memSize)

/-- `outmax = 0` or `DST + outmax <= MEM_SIZE`, on unbounded naturals (R306). -/
def State.dstOk (s : State) (i : Instr) : Bool :=
  decide (outmax i s.len.toNat = 0) || decide (s.dst.toNat + outmax i s.len.toNat ≤ s.cfg.memSize)

/-- Every sector command takes the first 2352 bytes of its input as the sector (R140, R142). -/
def sectorSize : Nat := 2352

end Sys2Proof.Machine
end

