-- ==== Sys2Proof/Machine/Ops.lean ====
section
/-! DEFINITION. The named operations over memory and registers: byte read and write, MemRead and MemWrite, how a
command is checked, and how it ends (spec 20_memory.md R62 to R64, 60_exceptions.md R302 to R311). -/

namespace Sys2Proof.Machine

/-- What an unlisted address reads as. The spec gives `MEM` no content after reset and forbids taking it as zero
(R37): DESIGN CHOICE 0xA5, unsafe (log 3). -/
def Memory.unlisted : Byte := 0xA5

/-- Cells in strictly rising order of address, all at or above `lo` and below `size`, none equal to what an unlisted
address reads as. -/
def Memory.wfFrom (size : Nat) : Nat → Memory → Bool
  | _, [] => true
  | lo, (a, v) :: m => decide (lo ≤ a) && decide (a < size) && decide (v ≠ Memory.unlisted) && Memory.wfFrom size (a + 1) m

/-- The canonical form of a memory of `size` bytes. -/
def Memory.wf (size : Nat) (m : Memory) : Bool := Memory.wfFrom size 0 m

/-- `MEM[a]` (R32). -/
def Memory.read (m : Memory) (a : Nat) : Byte :=
  match m with
  | [] => Memory.unlisted
  | (b, v) :: rest => if a = b then v else Memory.read rest a

/-- The list with the cell at `a` made `v`, its order kept. -/
def Memory.put (a : Nat) (v : Byte) : Memory → Memory
  | [] => [(a, v)]
  | (b, w) :: rest =>
    if a < b then (a, v) :: (b, w) :: rest
    else if a = b then (a, v) :: rest
    else (b, w) :: Memory.put a v rest

/-- The list without the cell at `a`. -/
def Memory.erase (a : Nat) (m : Memory) : Memory := m.filter fun cell => cell.1 != a

/-- `MEM[a] <- v`, in canonical form. -/
def Memory.write (m : Memory) (a : Nat) (v : Byte) : Memory :=
  if v = Memory.unlisted then Memory.erase a m else Memory.put a v m

/-- `MemRead(addr, n)` (R62). -/
def Memory.readBytes (m : Memory) (addr n : Nat) : Bytes := (List.range n).map fun i => m.read (addr + i)

/-- `MemWrite(addr, len(v), v)` (R63). -/
def Memory.writeBytes (m : Memory) (addr : Nat) : Bytes → Memory
  | [] => m
  | v :: vs => Memory.writeBytes (m.write addr v) (addr + 1) vs

/-- The canonical memory of `size` bytes that holds a list of cells; the first cell of an address wins and a cell
outside the memory is none of its bytes (log 7). -/
def Memory.ofCells (size : Nat) : List Host.Cell → Memory
  | [] => []
  | (a, v) :: rest => if a < size then Memory.write (Memory.ofCells size rest) a v else Memory.ofCells size rest

/-- `CMD[7:0]`, the operation code of the word being executed (R302, R310). -/
def State.opc (s : State) : BitVec 8 := opcField s.cmd

/-- `raise E` (R302): `STATUS` and the sticky `ERRLOG` bit, and nothing else (R303). -/
def State.raise (s : State) (e : CmdError) : State :=
  { s with status := statusWord .error .none e.code s.opc, errlog := s.errlog ||| e.bit }

/-- A bus address error: `ERRLOG` bit 5 and nothing else (R308). -/
def State.busError (s : State) : State := { s with errlog := s.errlog ||| busaddrBit }

/-- What a command that ends without a command error leaves: its tag and reason, the bytes it writes at `DST`, and
its results. A result a command does not name is 0 (R23). -/
structure Result where
  tag    : Tag
  reason : Reason := .none
  out    : Bytes := []
  res0   : Word := 0
  res1   : Word := 0
  res2   : Word := 0
deriving DecidableEq, Repr

/-- `pass(REASON)` of a command that copies: the output is the input (R310). -/
def passCopy (reason : Reason) (src : Bytes) : Result := { tag := .unchanged, reason := reason, out := src }

/-- `pass(REASON)` of a command that does not copy: nothing is written (R311). -/
def passBare (reason : Reason) : Result := { tag := .unchanged, reason := reason }

/-- How every command without a command error ends: the one MemWrite (R64), `OLEN`, the three results (R23) and
`STATUS` (R25, R310). -/
def State.finish (s : State) (r : Result) : State :=
  { s with
    mem := s.mem.writeBytes s.dst.toNat r.out
    olen := BitVec.ofNat 32 r.out.length
    res0 := r.res0
    res1 := r.res1
    res2 := r.res2
    status := statusWord r.tag r.reason 0 s.opc }

/-- The range checks of a command and its snapshot: `SRCRANGE`, then `DSTRANGE`, then the command's own body on
`src = MemRead(SRC, LEN)` (R64, R305, R306, R307). -/
def guarded (i : Instr) (s : State) (body : Bytes → State) : Host.Outcome State Fault Refusal :=
  if s.srcOk = false then .next (s.raise .srcrange)
  else if s.dstOk i = false then .next (s.raise .dstrange)
  else .next (body (s.mem.readBytes s.src.toNat s.len.toNat))

end Sys2Proof.Machine
end

