-- ==== Sys2Proof/Machine/CdEngine.lean ====
section
/-! DEFINITION. The CD engine: the EDC generator, the sector prefix and the P/Q parity encoder
(spec 41_edc_ecc_encode.md R140 to R151). -/

namespace Sys2Proof.Machine

/-- `EDC` (R141): the CD EDC of the input from `EDCSEED`. -/
def execEdc (s : State) : Host.Outcome State Fault Refusal :=
  guarded .edc s fun src => s.finish { tag := .computed, res0 := edcCd s.edcseed src }

/-- The track types `RPREFIX` writes a prefix for, `TT` 1 to 4 (R144). -/
def hasPrefix : TrackType → Bool
  | .mode1 => true
  | .mode2Form1 => true
  | .mode2Form2 => true
  | .mode2Formless => true
  | .other => false
  | .tt5 => false
  | .tt6 => false
  | .tt7 => false

/-- The three packed-BCD time bytes of a sector header at time `t` (R144). -/
def headerTime (t : Nat) : Bytes := [toBcd (msf t).minute, toBcd (msf t).second, toBcd (msf t).frame]

/-- The sector with its prefix: SYNC, the time of `t`, the mode byte and, for Mode 2, the first subheader copy taken
from the second (R143, R144). -/
def withPrefix (tt : TrackType) (t : Nat) (src : Bytes) : Bytes :=
  let out := splice (splice src 0 sync) 12 (headerTime t)
  if tt = .mode1 then splice out 15 [0x01]
  else splice (splice out 15 [0x02]) 0x10 (slice src 0x14 0x18)

/-- What `RPREFIX` leaves for an input and an address, its tests in the order of R144. -/
def rprefixResult (tt : TrackType) (lba : Int) (src : Bytes) : Result :=
  if src.length < sectorSize then passCopy .length src
  else if hasPrefix tt = false then passCopy .ttype src
  else if timeOk (lbaTime lba) = false then passCopy .range src
  else { tag := .transformed, out := withPrefix tt (lbaTime lba).toNat src }

/-- `RPREFIX` (R144). -/
def execRprefix (tt : TrackType) (s : State) : Host.Outcome State Fault Refusal :=
  guarded (.rprefix tt) s fun src => s.finish (rprefixResult tt s.lbaInt src)

/-- The inner loop of the parity routine over `n` more symbols from region index `idx` (R146). -/
def parityWalk (region : Bytes) (size inc : Nat) : Nat → Nat → Byte → Byte → Byte × Byte
  | 0, _, a, b => (a, b)
  | n + 1, idx, a, b =>
    parityWalk region size inc n (if idx + inc ≥ size then idx + inc - size else idx + inc)
      (gfF (a ^^^ byteAt region idx)) (b ^^^ byteAt region idx)

/-- The two parity bytes made of the accumulators after the loop: `B[F[a] ^ b]` and that exclusive-or `b` (R146). -/
def parityPair (ab : Byte × Byte) : Byte × Byte := (gfB (gfF ab.1 ^^^ ab.2), gfB (gfF ab.1 ^^^ ab.2) ^^^ ab.2)

/-- The two parity bytes of codeword `major` (R146). -/
def codewordParity (region : Bytes) (majorCount minorCount majorMult minorInc major : Nat) : Byte × Byte :=
  parityPair (parityWalk region (majorCount * minorCount) minorInc minorCount
    ((major >>> 1) * majorMult + (major &&& 1)) 0 0)

/-- `ecc_parity`: the first parity bytes of all codewords, then the second ones (R146). -/
def eccParity (region : Bytes) (majorCount minorCount majorMult minorInc : Nat) : Bytes :=
  ((List.range majorCount).map fun j => (codewordParity region majorCount minorCount majorMult minorInc j).1) ++
  ((List.range majorCount).map fun j => (codewordParity region majorCount minorCount majorMult minorInc j).2)

/-- The P pass (R147). -/
def pParity (region : Bytes) : Bytes := eccParity region 86 24 2 86

/-- The Q pass (R147). -/
def qParity (region : Bytes) : Bytes := eccParity region 52 43 86 88

/-- The working copy the parity is computed from: sector bytes 0x00C to 0x8C7, the four header bytes zero when
`zeroAddress` (R149). -/
def parityRegion (sector : Bytes) (zeroAddress : Bool) : Bytes :=
  if zeroAddress then splice (slice sector 0x00C 0x8C8) 0 (List.replicate 4 0) else slice sector 0x00C 0x8C8

/-- `ecc_write`: the P parity, then the Q parity over the region that holds it (R149). -/
def eccWrite (sector : Bytes) (zeroAddress : Bool) : Bytes :=
  let region := parityRegion sector zeroAddress
  let p := pParity region
  let q := qParity (splice region 2064 p)
  splice (splice sector 0x81C p) 0x8C8 q

/-- The range the EDC of a mode covers, `[lo, hi)`; its field is the four bytes from `hi` on (R140, C3). -/
def edcRange : TrackType → Option (Nat × Nat)
  | .mode1 => some (0x000, 0x810)
  | .mode2Form1 => some (0x010, 0x818)
  | .mode2Form2 => some (0x010, 0x92C)
  | .mode2Formless => none
  | .other => none
  | .tt5 => none
  | .tt6 => none
  | .tt7 => none

/-- The sector with its EDC field written and, for Mode1, the eight reserved bytes zeroed (R150). -/
def withEdc (tt : TrackType) (hi : Nat) (e : Word) (src : Bytes) : Bytes :=
  let out := splice src hi (u32le e)
  if tt = .mode1 then splice out 0x814 (List.replicate 8 0) else out

/-- The sector with its parity, for the modes that have one: Mode1 from the sector as it is, Mode2Form1 with the
header taken as zero, Mode2Form2 none (R150, R151). -/
def withParity (tt : TrackType) (out : Bytes) : Bytes :=
  if tt = .mode1 then eccWrite out false
  else if tt = .mode2Form1 then eccWrite out true
  else out

/-- What `RECC` leaves for an input (R150). -/
def reccResult (tt : TrackType) (src : Bytes) : Result :=
  if src.length < sectorSize then passCopy .length src
  else match edcRange tt with
    | none => passCopy .ttype src
    | some (lo, hi) =>
      { tag := .transformed, out := withParity tt (withEdc tt hi (edcCd 0 (slice src lo hi)) src),
        res0 := edcCd 0 (slice src lo hi) }

/-- `RECC` (R150). -/
def execRecc (tt : TrackType) (s : State) : Host.Outcome State Fault Refusal :=
  guarded (.recc tt) s fun src => s.finish (reccResult tt src)

end Sys2Proof.Machine
end

