-- ==== Sys2Proof/Machine/Params.lean ====
section
/-! DEFINITION. What each parameter of the configuration stands for: the default value the spec gives it, or the
other value the configuration holds (spec 00_scope.md R9 and the rule each definition names). -/

namespace Sys2Proof.Machine

/-- One tick of the scramble-table register: feedback x^15 + x + 1 (R191). -/
def scrambleTick (r : BitVec 15) : BitVec 15 := (r >>> 1) ||| (((r ^^^ (r >>> 1)) &&& 1) <<< 14)

/-- The byte a register state yields, least significant bit first (R191): bit `b` is bit 0 after `b` ticks. -/
def scrambleByte (r : BitVec 15) : Byte :=
  (List.range 8).foldl (fun v b => v ||| (((times b scrambleTick r) &&& 1).setWidth 8 <<< b)) 0

/-- The next `n` bytes of the scramble sequence from a register state (R191). -/
def scrambleStream : Nat → BitVec 15 → Bytes
  | 0, _ => []
  | n + 1, r => scrambleByte r :: scrambleStream n (times 8 scrambleTick r)

/-- `SCRAMBLE_TABLE` (R191): by default twelve zero bytes and the ECMA-130 Annex B sequence. -/
def scrambleTable (c : Config) : Bytes :=
  match c.scramble with
  | .standard => List.replicate 12 0 ++ scrambleStream 2340 1
  | .other t  => t

/-- One shift-step of the default DVD EDC (R205). -/
def dvdEdcStep (e : Word) : Word := (e <<< 1) ^^^ (if e.getLsbD 31 then 0x80000011 else 0)

/-- The default DVD EDC: most significant bit first, initial value 0 (R205). -/
def dvdEdcStandard (data : Bytes) : Word :=
  data.foldl (fun (e : Word) (b : Byte) => times 8 dvdEdcStep (e ^^^ (b.setWidth 32 <<< 24))) (0 : Word)

/-- `DVD_EDC` (R205). -/
def dvdEdc (c : Config) : Bytes → Word :=
  match c.dvdEdc with
  | .standard => dvdEdcStandard
  | .other n  => Config.dvdEdcOther n

/-- `ECMA267_SEEDS` (R207). -/
def ecmaSeeds (c : Config) : List Seed :=
  match c.ecmaSeeds with
  | .standard => [0x0001, 0x5500, 0x0002, 0x2A00, 0x0004, 0x5400, 0x0008, 0x2800,
                  0x0010, 0x5000, 0x0020, 0x2001, 0x0040, 0x4002, 0x0080, 0x0005]
  | .other l  => l

/-- A seed put into a list that is in rising order of rank, before the first seed of no smaller rank. -/
def insertByRank (rank : Seed → Nat) (x : Seed) : List Seed → List Seed
  | [] => [x]
  | y :: ys => if rank x ≤ rank y then x :: y :: ys else y :: insertByRank rank x ys

/-- A list of seeds in rising order of rank. -/
def orderByRank (rank : Seed → Nat) : List Seed → List Seed
  | [] => []
  | x :: xs => insertByRank rank x (orderByRank rank xs)

/-- `CACHE_ORDER` (R209): by default insertion order, oldest first; else the order of a ranking of which nothing is
known, and any permutation of distinct seeds is such an order (log 6). -/
def cacheOrder (c : Config) (cache : List Seed) : List Seed :=
  match c.cacheOrder with
  | .standard => cache
  | .other n  => orderByRank (Config.cacheRank n cache) cache

/-- One shift-step of the default Q CRC (R252). -/
def qCrcStep (c : BitVec 16) : BitVec 16 := (c <<< 1) ^^^ (if c.getLsbD 15 then 0x1021 else 0)

/-- The default Q CRC: initial value 0, most significant bit first, result complemented (R252). -/
def qCrcStandard (data : Bytes) : BitVec 16 :=
  data.foldl (fun (c : BitVec 16) (x : Byte) => times 8 qCrcStep (c ^^^ (x.setWidth 16 <<< 8))) (0 : BitVec 16) ^^^ 0xFFFF

/-- `Q_CRC` (R252). -/
def qCrc (c : Config) : Bytes → BitVec 16 :=
  match c.qCrc with
  | .standard => qCrcStandard
  | .other n  => Config.qCrcOther n

/-- An entry of the default `ISRC_TABLE` (R262). -/
def isrcStandard (i : Nat) : Byte :=
  if i ≤ 9 ∨ (17 ≤ i ∧ i ≤ 42) then BitVec.ofNat 8 (0x30 + i) else 0

/-- `ISRC_TABLE` (R262): `ISRC_TABLE[code]` for a 6-bit code. -/
def isrcChar (c : Config) (code : BitVec 6) : Byte :=
  match c.isrc with
  | .standard => isrcStandard code.toNat
  | .other t  => byteAt t code.toNat

end Sys2Proof.Machine
end

