-- ==== Sys2Proof/Machine/CdScrambler.lean ====
section
/-! DEFINITION. The CD XOR scrambler (spec 43_cd_scrambler.md R190 to R193). -/

namespace Sys2Proof.Machine

/-- The first 2352 bytes exclusive-ored with a table of 2352 bytes, the others as they are (R193). -/
def cdScramble (table src : Bytes) : Bytes := xorPrefix src (table.take sectorSize)

/-- What `CDSCR` leaves for an input (R193). -/
def cdscrResult (table src : Bytes) : Result :=
  if src.length < sectorSize then passCopy .length src
  else if src.take 12 ≠ sync then passCopy .nosync src
  else { tag := .transformed, out := cdScramble table src }

/-- `CDSCR` (R193). -/
def execCdscr (s : State) : Host.Outcome State Fault Refusal :=
  guarded .cdscr s fun src => s.finish (cdscrResult (scrambleTable s.cfg) src)

end Sys2Proof.Machine
end

