-- ==== Sys2Proof/Machine/Dvd.lean ====
section
/-! DEFINITION. The DVD LFSR descrambler: keystream, verification, the candidate search with hint and cache, and its
five commands (spec 44_dvd_descrambler.md R200 to R219). -/

namespace Sys2Proof.Machine

/-- A DVD raw sector is 2064 bytes (R200). -/
def dvdSectorSize : Nat := 2064

/-- The output bit of the LFSR, bit 14 (R201). -/
def lfsrOut (st : Seed) : Bool := st.getLsbD 14

/-- The next state of the LFSR: shifted left, bit 14 exclusive-or bit 10 into bit 0 (R201). -/
def lfsrNext (st : Seed) : Seed := (st <<< 1) ||| (BitVec.ofBool (st.getLsbD 14 ^^ st.getLsbD 10)).setWidth 15

/-- `lfsr_tick`: the next state and the output bit (R201). -/
def lfsrTick (st : Seed) : Seed × Bool := (lfsrNext st, lfsrOut st)

/-- `n` more ticks of `lfsr_byte`, each shifting its output bit into the byte `v` from the right (R202). -/
def lfsrBits : Nat → Seed → Byte → Seed × Byte
  | 0, st, v => (st, v)
  | n + 1, st, v => lfsrBits n (lfsrTick st).1 ((v <<< 1) ||| (BitVec.ofBool (lfsrTick st).2).setWidth 8)

/-- `lfsr_byte`: eight ticks, most significant bit first (R202). -/
def lfsrByte (st : Seed) : Seed × Byte := lfsrBits 8 st 0

/-- The next `n` keystream bytes from an LFSR state. -/
def keystreamFrom : Nat → Seed → Bytes
  | 0, _ => []
  | n + 1, st => (lfsrByte st).2 :: keystreamFrom n (lfsrByte st).1

/-- `keystream(seed)`, 2048 bytes (R203). -/
def keystream (seed : Seed) : Bytes := keystreamFrom 2048 seed

/-- `apply(sec, k)`: bytes 12 to 2059 exclusive-ored with the 2048 bytes of `k`, every other byte as it is (R204). -/
def dvdApply (sec k : Bytes) : Bytes := sec.take 12 ++ xorPrefix (sec.drop 12) k

/-- The EDC field of a sector, bytes 2060 to 2063, most significant first (R200, R206). -/
def dvdEdcField (sec : Bytes) : Word := u32be (byteAt sec 2060) (byteAt sec 2061) (byteAt sec 2062) (byteAt sec 2063)

/-- `verify(sec, seed)` (R206). -/
def verify (c : Config) (sec : Bytes) (seed : Seed) : Bool :=
  decide (dvdEdc c ((dvdApply sec (keystream seed)).take 2060) = dvdEdcField sec)

/-- The stages of the search that supply a candidate (R208). -/
inductive Stage where
  | hint
  | cached
  | listed
  | exhaustive
deriving DecidableEq, Repr

/-- The number of a stage, 1 to 4 (R208). -/
def Stage.number : Stage → Nat
  | .hint => 1
  | .cached => 2
  | .listed => 3
  | .exhaustive => 4

/-- `n` seeds in ascending order from `k` on. -/
def seedsFrom : Nat → Nat → List Seed
  | 0, _ => []
  | n + 1, k => BitVec.ofNat 15 k :: seedsFrom n (k + 1)

/-- The candidate sequence, each seed with its stage: the hint, the cache in its order, the listed seeds, then 0 to
0x7FFF (R208, R209, C2). -/
def candidates (c : Config) (d : DvdInstance) : List (Stage × Seed) :=
  (d.last.toList.map fun x => (.hint, x)) ++ ((cacheOrder c d.cache).map fun x => (.cached, x)) ++
  ((ecmaSeeds c).map fun x => (.listed, x)) ++ ((seedsFrom 32768 0).map fun x => (.exhaustive, x))

/-- What a search finds (R210). -/
inductive SearchResult where
  | found (seed : Seed) (trials : Nat) (stage : Stage)
  | notFound (trials : Nat)
deriving DecidableEq, Repr

/-- The first candidate of a list that verifies, after `trials` earlier trials (R210). -/
def tryCandidates (c : Config) (sec : Bytes) : Nat → List (Stage × Seed) → SearchResult
  | trials, [] => .notFound trials
  | trials, (g, x) :: rest => if verify c sec x then .found x (trials + 1) g else tryCandidates c sec (trials + 1) rest

/-- `search(sec)` of an instance, without its effect on the instance (R210). -/
def search (c : Config) (d : DvdInstance) (sec : Bytes) : SearchResult := tryCandidates c sec 0 (candidates c d)

/-- The instance after a found seed: cached if it was not, and the hint (R210). -/
def DvdInstance.record (d : DvdInstance) (x : Seed) : DvdInstance :=
  { last := some x, cache := if x ∈ d.cache then d.cache else d.cache ++ [x] }

/-- `DVDTEST` (R211): whether `SEED` verifies; no state of the descrambler changes. -/
def execDvdtest (s : State) : Host.Outcome State Fault Refusal :=
  guarded .dvdtest s fun src =>
    if src.length ≠ dvdSectorSize then s.finish (passBare .length)
    else s.finish { tag := .computed, res0 := if verify s.cfg src s.seed then 1 else 0 }

/-- `DVDSEED` (R213): the seed, the trials, the stage, and the keystream at `DST`. -/
def execDvdseed (s : State) : Host.Outcome State Fault Refusal :=
  guarded .dvdseed s fun src =>
    if src.length ≠ dvdSectorSize then s.finish (passBare .length)
    else match search s.cfg s.dvd src with
      | .notFound n => s.finish { passBare .noseed with res1 := BitVec.ofNat 32 n }
      | .found x n g =>
        { s with dvd := s.dvd.record x }.finish
          { tag := .computed, out := keystream x, res0 := x.setWidth 32, res1 := BitVec.ofNat 32 n,
            res2 := BitVec.ofNat 32 g.number }

/-- `DVDSCR` (R215): the sector descrambled with the seed found. -/
def execDvdscr (s : State) : Host.Outcome State Fault Refusal :=
  guarded .dvdscr s fun src =>
    if src.length ≠ dvdSectorSize then s.finish (passCopy .length src)
    else match search s.cfg s.dvd src with
      | .notFound n => s.finish { passCopy .noseed src with res1 := BitVec.ofNat 32 n }
      | .found x n g =>
        { s with dvd := s.dvd.record x }.finish
          { tag := .transformed, out := dvdApply src (keystream x), res0 := x.setWidth 32, res1 := BitVec.ofNat 32 n,
            res2 := BitVec.ofNat 32 g.number }

/-- What a batch has made: its output, the instance after it, the chunks transformed and the chunks without a seed. -/
structure Batch where
  out  : Bytes
  inst : DvdInstance
  done : Nat
  miss : Nat
deriving DecidableEq, Repr

/-- `n` chunks of 2064 bytes in ascending order; the instance carries over from chunk to chunk, and a chunk without a
seed is left as it is (R217). -/
def dvdBatch (c : Config) : Nat → Bytes → DvdInstance → Batch
  | 0, _, d => ⟨[], d, 0, 0⟩
  | n + 1, b, d =>
    match search c d (b.take dvdSectorSize) with
    | .found x _ _ =>
      let rest := dvdBatch c n (b.drop dvdSectorSize) (d.record x)
      { rest with out := dvdApply (b.take dvdSectorSize) (keystream x) ++ rest.out, done := rest.done + 1 }
    | .notFound _ =>
      let rest := dvdBatch c n (b.drop dvdSectorSize) d
      { rest with out := b.take dvdSectorSize ++ rest.out, miss := rest.miss + 1 }

/-- What `DVDSCRB` leaves for a batch (R217). -/
def batchResult (b : Batch) : Result :=
  { tag := if b.done > 0 then .transformed else .unchanged,
    reason := if b.done > 0 then .none else if b.miss > 0 then .noseed else .none,
    out := b.out, res0 := BitVec.ofNat 32 b.done, res1 := BitVec.ofNat 32 b.miss }

/-- `DVDSCRB` (R217). -/
def execDvdscrb (s : State) : Host.Outcome State Fault Refusal :=
  guarded .dvdscrb s fun src =>
    if src.length ≠ dvdSectorSize * s.xfer.toNat then s.finish (passCopy .length src)
    else { s with dvd := (dvdBatch s.cfg s.xfer.toNat src s.dvd).inst }.finish
      (batchResult (dvdBatch s.cfg s.xfer.toNat src s.dvd))

/-- `DVDRST` (R219): a new instance; no range check. -/
def execDvdrst (s : State) : Host.Outcome State Fault Refusal :=
  .next ({ s with dvd := .fresh }.finish { tag := .computed })

end Sys2Proof.Machine
end

