-- ==== Sys2Proof/Machine/EccDecoder.lean ====
section
/-! DEFINITION. The P/Q ECC decoder: syndromes, error locator, Chien search, correction
(spec 42_ecc_decode.md R170 to R180). -/

namespace Sys2Proof.Machine

/-- The track types that carry P/Q parity, `TT` 1 and 2 (R176, R180). -/
def hasEcc : TrackType → Bool
  | .mode1 => true
  | .mode2Form1 => true
  | .mode2Form2 => false
  | .mode2Formless => false
  | .other => false
  | .tt5 => false
  | .tt6 => false
  | .tt7 => false

/-- `region(s, TT)`, 2340 bytes (R170). -/
def eccRegion (tt : TrackType) (sector : Bytes) : Bytes :=
  if tt = .mode2Form1 then splice (slice sector 0x00C 0x930) 0 (List.replicate 4 0) else slice sector 0x00C 0x930

/-- `ppos(j)`, the 26 region indices of P codeword `j` (R171). -/
def ppos (j : Nat) : List Nat := ((List.range 24).map fun i => j + 86 * i) ++ [2064 + j, 2150 + j]

/-- `qpos(j)`, the 45 region indices of Q codeword `j` (R171). -/
def qpos (j : Nat) : List Nat :=
  ((List.range 43).map fun i => ((j >>> 1) * 86 + (j &&& 1) + 88 * i) % 2236) ++ [2236 + j, 2288 + j]

/-- The codewords in pass order: P 0 to 85, then Q 0 to 51 (R180). -/
def allPositions : List (List Nat) := (List.range 86).map ppos ++ (List.range 52).map qpos

/-- The symbols of a codeword of a region. -/
def symbols (region : Bytes) (pos : List Nat) : Bytes := pos.map (byteAt region)

/-- The syndrome pair of a codeword, by Horner's rule (R172). -/
def syndromes (cs : Bytes) : Byte × Byte := cs.foldl (fun s c => (s.1 ^^^ c, gfF s.2 ^^^ c)) (0, 0)

/-- `alpha^-(n-1-k)`, where the Chien search evaluates the locator polynomial for position `k` of `n` (R174). -/
def inverseLocator (n k : Nat) : Byte := gexp ((255 - (n - 1 - k)) % 255)

/-- `locate(S0, S1, N)`: the one position at which `1 + X x` vanishes, `X = S1 / S0` (R173, R174). -/
def locate (s0 s1 : Byte) (n : Nat) : Option Nat :=
  if s0 = 0 ∨ s1 = 0 then none
  else (List.range n).find? fun k => 1 ^^^ gmul (gdiv s1 s0) (inverseLocator n k) == 0

/-- The classification of a codeword (R175). -/
inductive Verdict where
  | clean
  | correctable (k : Nat) (e : Byte)
  | uncorrectable
deriving DecidableEq, Repr

/-- The verdict on the syndromes of an `n`-symbol codeword (R175). -/
def classify (s : Byte × Byte) (n : Nat) : Verdict :=
  if s = (0, 0) then .clean
  else match locate s.1 s.2 n with
    | some k => .correctable k s.1
    | none   => .uncorrectable

/-- The working region of a correction pass, the symbols corrected so far and the codewords given up (R177, R180). -/
structure FixState where
  region : Bytes
  fixed  : Nat
  bad    : Nat
deriving DecidableEq, Repr

/-- `fix_codeword` on one codeword; `lock` guards the header bytes Mode2Form1 takes as zero (R177). -/
def fixCodeword (lock : Bool) (st : FixState) (pos : List Nat) : FixState :=
  match classify (syndromes (symbols st.region pos)) pos.length with
  | .clean => st
  | .uncorrectable => { st with bad := st.bad + 1 }
  | .correctable k e =>
    if lock = true ∧ pos.getD k 0 < 4 then { st with bad := st.bad + 1 }
    else { st with region := st.region.set (pos.getD k 0) (byteAt st.region (pos.getD k 0) ^^^ e),
                   fixed := st.fixed + 1 }

/-- One pass over every codeword (R180). -/
def fixPass (lock : Bool) (region : Bytes) : FixState := allPositions.foldl (fixCodeword lock) ⟨region, 0, 0⟩

/-- The syndrome bytes `ECCSYN` writes, S0 then S1 of each codeword in pass order (R176). -/
def syndromeBytes (region : Bytes) : Bytes :=
  allPositions.flatMap fun pos => [(syndromes (symbols region pos)).1, (syndromes (symbols region pos)).2]

/-- How many codewords of a list have a non-zero syndrome pair (R176). -/
def countDirty (region : Bytes) (codewords : List (List Nat)) : Nat :=
  (codewords.filter fun pos => syndromes (symbols region pos) != (0, 0)).length

/-- What `ECCSYN` leaves for an input (R176). -/
def eccsynResult (tt : TrackType) (src : Bytes) : Result :=
  if src.length < sectorSize then passBare .length
  else if hasEcc tt = false then passBare .ttype
  else
    { tag := .computed, out := syndromeBytes (eccRegion tt src),
      res0 := BitVec.ofNat 32 (countDirty (eccRegion tt src) ((List.range 86).map ppos)),
      res1 := BitVec.ofNat 32 (countDirty (eccRegion tt src) ((List.range 52).map qpos)) }

/-- `ECCSYN` (R176). -/
def execEccsyn (tt : TrackType) (s : State) : Host.Outcome State Fault Refusal :=
  guarded (.eccsyn tt) s fun src => s.finish (eccsynResult tt src)

/-- The input with its region replaced by a corrected one; the header bytes of a Mode2Form1 sector stay the input's
(R180). -/
def withRegion (tt : TrackType) (src region : Bytes) : Bytes :=
  if tt = .mode2Form1 then splice src (0x00C + 4) (region.drop 4) else splice src 0x00C region

/-- What `ECCFIX` leaves for an input (R180; the results of a pass-through, R310). -/
def eccfixResult (tt : TrackType) (src : Bytes) : Result :=
  if src.length < sectorSize then passCopy .length src
  else if hasEcc tt = false then passCopy .ttype src
  else
    let st := fixPass (decide (tt = .mode2Form1)) (eccRegion tt src)
    if st.fixed = 0 ∧ st.bad = 0 then passCopy .clean src
    else if st.fixed = 0 then { passCopy .uncorr src with res1 := BitVec.ofNat 32 st.bad }
    else { tag := .transformed, out := withRegion tt src st.region, res0 := BitVec.ofNat 32 st.fixed,
           res1 := BitVec.ofNat 32 st.bad }

/-- `ECCFIX` (R180). -/
def execEccfix (tt : TrackType) (s : State) : Host.Outcome State Fault Refusal :=
  guarded (.eccfix tt) s fun src => s.finish (eccfixResult tt src)

end Sys2Proof.Machine
end

