-- ==== Sys2Proof/Machine/QParser.lean ====
section
/-! DEFINITION. The Q-channel parser: the decoding logic of `prettify_q` and the record it leaves in `Q0` to `Q7`
(spec 46_q_parser.md R250 to R266). -/

namespace Sys2Proof.Machine

/-- `CRC_OK` (R252): the stored value is bytes 10 and 11, most significant first. -/
def qCrcOk (c : Config) (b : Bytes) : Bool := decide (qCrc c (b.take 10) = u16be (byteAt b 10) (byteAt b 11))

/-- `CONTROL`, the high nibble of byte 0 (R253). -/
def qControl (b : Bytes) : BitVec 4 := hi4 (byteAt b 0)

/-- `ADR`, the low nibble of byte 0 (R253). -/
def qAdr (b : Bytes) : BitVec 4 := lo4 (byteAt b 0)

/-- `AREA` is 1, the lead-in, when the address is negative (R254). -/
def qLeadIn (lba : Int) : Bool := decide (lba < 0)

/-- `EXP_VALID` (R254). -/
def expValid (lba : Int) : Bool := timeOk (lbaTime lba)

/-- The expected time, 0 where it is not valid (R254). -/
def expTime (lba : Int) : Msf := if expValid lba then msf (lbaTime lba).toNat else ⟨0, 0, 0⟩

/-- `ok` of a byte: in a BCD block, both nibbles are digits (R255). -/
def numOk (bcd : Bool) (v : Byte) : Bool := if bcd then bcdOk v else true

/-- `binv` of a byte: its binary view, the raw byte where it is no digit pair (R255). -/
def binView (bcd : Bool) (v : Byte) : Byte := if bcd && bcdOk v then BitVec.ofNat 8 (fromBcd v) else v

/-- `bcdv` of a byte: its BCD view, the raw byte where a binary one is above 99 (R255). -/
def bcdView (bcd : Bool) (v : Byte) : Byte :=
  if bcd then v else if v.toNat ≤ 99 then toBcd v.toNat else v

/-- `binv[i]` of a block (R255). -/
def binv (bcd : Bool) (b : Bytes) (i : Nat) : Byte := binView bcd (byteAt b i)

/-- `bcdv[i]` of a block (R255). -/
def bcdv (bcd : Bool) (b : Bytes) (i : Nat) : Byte := bcdView bcd (byteAt b i)

/-- `ok[i]` of a block (R255). -/
def okv (bcd : Bool) (b : Bytes) (i : Nat) : Bool := numOk bcd (byteAt b i)

/-- `NUM_VALID` (R255). -/
def numValid (bcd : Bool) (b : Bytes) : Bool := (List.range 9).all fun i => okv bcd b (i + 1)

/-- The record classes of R256 and R257. -/
inductive QClass where
  | unknown
  | liTrack
  | liFirstTrack
  | liLastTrack
  | liLeadout
  | liSkipInterval
  | liSkipTrack
  | liAtip
  | pgPosition
  | pgMcn
  | pgIsrc
deriving DecidableEq, Repr

/-- The code of a class (R256, R257). -/
def QClass.code : QClass → BitVec 8
  | .unknown => 0x00
  | .liTrack => 0x10
  | .liFirstTrack => 0x11
  | .liLastTrack => 0x12
  | .liLeadout => 0x13
  | .liSkipInterval => 0x14
  | .liSkipTrack => 0x15
  | .liAtip => 0x16
  | .pgPosition => 0x20
  | .pgMcn => 0x21
  | .pgIsrc => 0x22

/-- Classification in the lead-in: `point` is `bcdv[2]`, `track` is `binv[2]`, `ok` is `ok[2]`; first match wins
(R256). -/
def leadInClass (adr : BitVec 4) (point track : Byte) (ok : Bool) : QClass :=
  if adr = 1 ∨ adr = 4 then
    if point = 0xA0 then .liFirstTrack
    else if point = 0xA1 then .liLastTrack
    else if point = 0xA2 then .liLeadout
    else if ok = true ∧ 1 ≤ track.toNat ∧ track.toNat ≤ 99 then .liTrack
    else .unknown
  else if adr = 5 then
    if 0xB1 ≤ point.toNat ∧ point.toNat ≤ 0xB4 then .liSkipTrack
    else if point = 0xC0 ∨ point = 0xC1 then .liAtip
    else if ok = true ∧ 1 ≤ track.toNat ∧ track.toNat ≤ 40 then .liSkipInterval
    else .unknown
  else .unknown

/-- Classification in the program and lead-out area (R257). -/
def programClass (adr : BitVec 4) : QClass :=
  if adr = 1 then .pgPosition
  else if adr = 2 then .pgMcn
  else if adr = 3 then .pgIsrc
  else .unknown

/-- `CLASS` of a block (R256, R257). -/
def qClass (lba : Int) (bcd : Bool) (b : Bytes) : QClass :=
  if qLeadIn lba then leadInClass (qAdr b) (bcdv bcd b 2) (binv bcd b 2) (okv bcd b 2) else programClass (qAdr b)

/-- The 13 digits of a media catalog number, the nibbles of `bcdv[1]` to the high one of `bcdv[7]` (R258). -/
def mcnDigits (bcd : Bool) (b : Bytes) : List (BitVec 4) :=
  ((List.range 6).flatMap fun i => [hi4 (bcdv bcd b (i + 1)), lo4 (bcdv bcd b (i + 1))]) ++ [hi4 (bcdv bcd b 7)]

/-- The text part of a record: `TXT_VALID` and `Q5` to `Q7`. -/
structure QText where
  valid : Bool
  q5    : Word
  q6    : Word
  q7    : Word
deriving DecidableEq, Repr

/-- The catalog number, four bits a digit, the first digit most significant (R258). -/
def mcnText (bcd : Bool) (b : Bytes) : QText :=
  { valid := (mcnDigits bcd b).all fun n => decide (n.toNat ≤ 9)
    q5 := u32be (bcdv bcd b 1) (bcdv bcd b 2) (bcdv bcd b 3) (bcdv bcd b 4)
    q6 := u32be (bcdv bcd b 5) (bcdv bcd b 6) (bcdv bcd b 7 &&& 0xF0) 0x00
    q7 := 0 }

/-- The five 6-bit codes `I1` to `I5` of an ISRC, the first 30 bits of `bcdv[1]` to `bcdv[4]` (R259). -/
def isrcCodes (bcd : Bool) (b : Bytes) : List (BitVec 6) :=
  [(bcdv bcd b 1).extractLsb' 2 6,
   (bcdv bcd b 1).extractLsb' 0 2 ++ (bcdv bcd b 2).extractLsb' 4 4,
   (bcdv bcd b 2).extractLsb' 0 4 ++ (bcdv bcd b 3).extractLsb' 6 2,
   (bcdv bcd b 3).extractLsb' 0 6,
   (bcdv bcd b 4).extractLsb' 2 6]

/-- The seven digits `I6` to `I12` of an ISRC (R259). -/
def isrcDigits (bcd : Bool) (b : Bytes) : List (BitVec 4) :=
  [hi4 (bcdv bcd b 5), lo4 (bcdv bcd b 5), hi4 (bcdv bcd b 6), lo4 (bcdv bcd b 6), hi4 (bcdv bcd b 7),
   lo4 (bcdv bcd b 7), hi4 (bcdv bcd b 8)]

/-- The character of an ISRC digit, 0x00 where it is none (R259). -/
def digitChar (d : BitVec 4) : Byte := if d.toNat ≤ 9 then BitVec.ofNat 8 (0x30 + d.toNat) else 0

/-- The twelve characters of an ISRC (R259). -/
def isrcChars (c : Config) (bcd : Bool) (b : Bytes) : Bytes :=
  (isrcCodes bcd b).map (isrcChar c) ++ (isrcDigits bcd b).map digitChar

/-- The ISRC text, the first character most significant (R259). -/
def isrcText (c : Config) (bcd : Bool) (b : Bytes) : QText :=
  let t := isrcChars c bcd b
  { valid := t.all fun ch => ch != 0
    q5 := u32be (byteAt t 0) (byteAt t 1) (byteAt t 2) (byteAt t 3)
    q6 := u32be (byteAt t 4) (byteAt t 5) (byteAt t 6) (byteAt t 7)
    q7 := u32be (byteAt t 8) (byteAt t 9) (byteAt t 10) (byteAt t 11) }

/-- The text of a class: the catalog number, the ISRC, or none (R264). -/
def qText (c : Config) (cls : QClass) (bcd : Bool) (b : Bytes) : QText :=
  if cls = .pgMcn then mcnText bcd b
  else if cls = .pgIsrc then isrcText c bcd b
  else ⟨false, 0, 0, 0⟩

/-- `NOK`, nine bits: bit `i - 1` is `ok[i]` (R266). -/
def nokField (bcd : Bool) (b : Bytes) : BitVec 9 :=
  BitVec.ofBool (okv bcd b 9) ++ BitVec.ofBool (okv bcd b 8) ++ BitVec.ofBool (okv bcd b 7) ++
  BitVec.ofBool (okv bcd b 6) ++ BitVec.ofBool (okv bcd b 5) ++ BitVec.ofBool (okv bcd b 4) ++
  BitVec.ofBool (okv bcd b 3) ++ BitVec.ofBool (okv bcd b 2) ++ BitVec.ofBool (okv bcd b 1)

/-- The Q record of a block, field by field from the most significant (R264, R266; the flags, R263). -/
def qRecord (c : Config) (qf : QFlags) (lba : Int) (b : Bytes) : QRecord :=
  let cls := qClass lba qf.bcd b
  let txt := qText c cls qf.bcd b
  let e := expTime lba
  { q0 := 0#7 ++ BitVec.ofBool txt.valid ++ cls.code ++ qf.toBits ++ qControl b ++ qAdr b ++
          BitVec.ofBool (numValid qf.bcd b) ++ BitVec.ofBool (expValid lba) ++ BitVec.ofBool (qLeadIn lba) ++
          BitVec.ofBool (qCrcOk c b)
    q1 := 0#8 ++ BitVec.ofNat 8 e.minute ++ BitVec.ofNat 8 e.second ++ BitVec.ofNat 8 e.frame
    q2 := u32be (binv qf.bcd b 4) (binv qf.bcd b 3) (binv qf.bcd b 2) (binv qf.bcd b 1)
    q3 := u32be (binv qf.bcd b 8) (binv qf.bcd b 7) (binv qf.bcd b 6) (binv qf.bcd b 5)
    q4 := 0#15 ++ nokField qf.bcd b ++ binv qf.bcd b 9
    q5 := txt.q5
    q6 := txt.q6
    q7 := txt.q7 }

/-- `QPARSE` (R264); on a wrong length the record is cleared (R311). -/
def execQparse (qf : QFlags) (s : State) : Host.Outcome State Fault Refusal :=
  guarded (.qparse qf) s fun src =>
    if src.length ≠ 12 then { s with q := .zero }.finish (passBare .length)
    else { s with q := qRecord s.cfg qf s.lbaInt src }.finish
      { tag := .computed, res0 := (qRecord s.cfg qf s.lbaInt src).q0 }

end Sys2Proof.Machine
end

