-- ==== Sys2Proof/Machine/Subchannel.lean ====
section
/-! DEFINITION. The subchannel codec: BCD conversion of a Q block, Q-to-raw expansion, the bit interleaver and
deinterleaver (spec 45_subchannel.md R230 to R241). -/

namespace Sys2Proof.Machine

/-- A Q block is 12 bytes (R231). -/
def qBlockSize : Nat := 12

/-- A Q source record is 16 bytes (R235). -/
def qRecordSize : Nat := 16

/-- A subchannel frame is 96 bytes (R230). -/
def frameSize : Nat := 96

/-- Bytes 1 to 9 of a Q block, the numeric ones (R232). -/
def qNumeric (b : Bytes) : Bytes := slice b 1 10

/-- What `QBIN2BCD` leaves for an input: all nine bytes converted or none (R232, R234). -/
def qbin2bcdResult (src : Bytes) : Result :=
  if src.length ≠ qBlockSize then passCopy .length src
  else if (qNumeric src).any (fun v => decide (99 < v.toNat)) then passCopy .range src
  else { tag := .transformed, out := splice src 1 ((qNumeric src).map fun v => toBcd v.toNat) }

/-- `QBIN2BCD` (R232). -/
def execQbin2bcd (s : State) : Host.Outcome State Fault Refusal :=
  guarded .qbin2bcd s fun src => s.finish (qbin2bcdResult src)

/-- What `QBCD2BIN` leaves for an input: all nine bytes converted or none (R233, R234). -/
def qbcd2binResult (src : Bytes) : Result :=
  if src.length ≠ qBlockSize then passCopy .length src
  else if (qNumeric src).any (fun v => !bcdOk v) then passCopy .range src
  else { tag := .transformed, out := splice src 1 ((qNumeric src).map fun v => BitVec.ofNat 8 (fromBcd v)) }

/-- `QBCD2BIN` (R233). -/
def execQbcd2bin (s : State) : Host.Outcome State Fault Refusal :=
  guarded .qbcd2bin s fun src => s.finish (qbcd2binResult src)

/-- Byte `8*g + k` of the interleaved frame: bit `7 - c` is bit `7 - k` of deinterleaved byte `12*c + g`
(R238, R239, C7). -/
def interleavedByte (d : Bytes) (g k : Nat) : Byte :=
  (List.range 8).foldl (fun v c => v ||| (((byteAt d (12 * c + g) >>> (7 - k)) &&& 1) <<< (7 - c))) 0

/-- `interleave_frame(d)` (R239). -/
def interleaveFrame (d : Bytes) : Bytes :=
  (List.range 12).flatMap fun g => (List.range 8).map fun k => interleavedByte d g k

/-- Byte `12*c + g` of the deinterleaved frame: bit `7 - k` is bit `7 - c` of interleaved byte `8*g + k`
(R238, R239). -/
def deinterleavedByte (o : Bytes) (c g : Nat) : Byte :=
  (List.range 8).foldl (fun v k => v ||| (((byteAt o (8 * g + k) >>> (7 - c)) &&& 1) <<< (7 - k))) 0

/-- `deinterleave_frame(o)` (R239). -/
def deinterleaveFrame (o : Bytes) : Bytes :=
  (List.range 8).flatMap fun c => (List.range 12).map fun g => deinterleavedByte o c g

/-- `f` on each of `n` pieces of `size` bytes, one after the other. -/
def mapPieces (size : Nat) (f : Bytes → Bytes) : Nat → Bytes → Bytes
  | 0, _ => []
  | n + 1, b => f (b.take size) ++ mapPieces size f n (b.drop size)

/-- The deinterleaved frame of a Q source record: P all ones when byte 15 bit 7 is set, Q the first 12 bytes, R to W
zero (R235, R236). -/
def recordFrame (r : Bytes) : Bytes :=
  List.replicate 12 (if (byteAt r 15).getLsbD 7 then 0xFF else 0x00) ++ r.take 12 ++ List.replicate 72 0

/-- What `Q2RAW` leaves for an input (R236). -/
def q2rawResult (src : Bytes) : Result :=
  if src.length % qRecordSize ≠ 0 then passCopy .length src
  else { tag := .transformed,
         out := mapPieces qRecordSize (fun r => interleaveFrame (recordFrame r)) (src.length / qRecordSize) src,
         res0 := BitVec.ofNat 32 (src.length / qRecordSize) }

/-- `Q2RAW` (R236). -/
def execQ2raw (s : State) : Host.Outcome State Fault Refusal :=
  guarded .q2raw s fun src => s.finish (q2rawResult src)

/-- What `INTLV` and `DEINTLV` leave for an input, `f` being the transform of one frame (R240, R241). -/
def framesResult (f : Bytes → Bytes) (src : Bytes) : Result :=
  if src.length % frameSize ≠ 0 then passCopy .length src
  else { tag := .transformed, out := mapPieces frameSize f (src.length / frameSize) src,
         res0 := BitVec.ofNat 32 (src.length / frameSize) }

/-- `INTLV` (R240). -/
def execIntlv (s : State) : Host.Outcome State Fault Refusal :=
  guarded .intlv s fun src => s.finish (framesResult interleaveFrame src)

/-- `DEINTLV` (R241). -/
def execDeintlv (s : State) : Host.Outcome State Fault Refusal :=
  guarded .deintlv s fun src => s.finish (framesResult deinterleaveFrame src)

end Sys2Proof.Machine
end

