-- ==== Sys2Proof/Machine/System.lean ====
section
/-! DEFINITION. The system command (spec 47_system.md R280). -/

namespace Sys2Proof.Machine

/-- `NOP` (R280): no range check, results 0, `COMPUTED`. -/
def execNop (s : State) : Host.Outcome State Fault Refusal := .next (s.finish { tag := .computed })

end Sys2Proof.Machine
end

