-- ==== Sys2Proof/Machine/Dispatch.lean ====
section
/-! DEFINITION. The meaning of every command, one arm per constructor of Instr (spec 30_encoding.md R94). -/

namespace Sys2Proof.Machine

def exec (i : Instr) (s : State) : Host.Outcome State Fault Refusal :=
  match i with
  | .nop => Sys2Proof.Machine.execNop s
  | .edc => Sys2Proof.Machine.execEdc s
  | .rprefix tt => Sys2Proof.Machine.execRprefix tt s
  | .recc tt => Sys2Proof.Machine.execRecc tt s
  | .eccsyn tt => Sys2Proof.Machine.execEccsyn tt s
  | .eccfix tt => Sys2Proof.Machine.execEccfix tt s
  | .cdscr => Sys2Proof.Machine.execCdscr s
  | .dvdtest => Sys2Proof.Machine.execDvdtest s
  | .dvdseed => Sys2Proof.Machine.execDvdseed s
  | .dvdscr => Sys2Proof.Machine.execDvdscr s
  | .dvdscrb => Sys2Proof.Machine.execDvdscrb s
  | .dvdrst => Sys2Proof.Machine.execDvdrst s
  | .qbin2bcd => Sys2Proof.Machine.execQbin2bcd s
  | .qbcd2bin => Sys2Proof.Machine.execQbcd2bin s
  | .q2raw => Sys2Proof.Machine.execQ2raw s
  | .intlv => Sys2Proof.Machine.execIntlv s
  | .deintlv => Sys2Proof.Machine.execDeintlv s
  | .qparse qf => Sys2Proof.Machine.execQparse qf s

end Sys2Proof.Machine
end

