-- ==== Sys2Proof/Machine/Bus.lean ====
section
/-! DEFINITION. The host port: the register map, the memory window, the four transactions, bus address errors, the
command that a write to `CMD` starts, and the reset event (spec 10_state.md R26 to R30, 20_memory.md R60, R61,
30_encoding.md R95 to R98, 47_system.md R281 to R283, 60_exceptions.md R308, 70_reset_and_hazards.md R330). -/

namespace Sys2Proof.Machine

/-- The offset of register `CMD` (R30). -/
def cmdOffset : Nat := 0x0C

/-- The memory window's first offset: `0x10000 + a` is `MEM[a]` (R60). -/
def memWindow : Nat := 0x10000

/-- `LASTSEED`: bit 15 and the seed when `LAST` is set, else 0 (R29). -/
def lastSeedView (d : DvdInstance) : Word :=
  match d.last with
  | some x => 0#16 ++ 1#1 ++ x
  | none   => 0

/-- `CACHECNT` (R29). -/
def cacheCount (d : DvdInstance) : Word := BitVec.ofNat 32 d.cache.length

/-- `CACHEDAT`: bit 15 and the seed at position `CACHEIDX` of the cache in its enumeration order, else 0 (R29, R209). -/
def cacheData (c : Config) (d : DvdInstance) (idx : Word) : Word :=
  match (cacheOrder c d.cache)[idx.toNat]? with
  | some x => 0#16 ++ 1#1 ++ x
  | none   => 0

/-- The value of the register at an offset of the map, 0 at a reserved one (R27, R30, R281). -/
def State.readReg (s : State) (off : Nat) : Word :=
  match off with
  | 0x00 => 0x53434501
  | 0x04 => if s.cfg.hasEccDec then 1 else 0
  | 0x08 => BitVec.ofNat 32 s.cfg.memSize
  | 0x0C => s.cmd
  | 0x10 => s.status
  | 0x14 => s.errlog
  | 0x18 => s.src
  | 0x1C => s.dst
  | 0x20 => s.len
  | 0x24 => s.lba
  | 0x28 => s.edcseed
  | 0x2C => s.seed.setWidth 32
  | 0x30 => s.xfer
  | 0x34 => s.olen
  | 0x38 => s.res0
  | 0x3C => s.res1
  | 0x40 => s.res2
  | 0x44 => lastSeedView s.dvd
  | 0x48 => cacheCount s.dvd
  | 0x4C => s.cacheidx
  | 0x50 => cacheData s.cfg s.dvd s.cacheidx
  | 0x80 => s.q.q0
  | 0x84 => s.q.q1
  | 0x88 => s.q.q2
  | 0x8C => s.q.q3
  | 0x90 => s.q.q4
  | 0x94 => s.q.q5
  | 0x98 => s.q.q6
  | 0x9C => s.q.q7
  | _    => 0

/-- A host write to a register other than `CMD`: stored, the low 15 bits of it in `SEED`, ignored where the register
is read-only or reserved (R22, R30, R282). -/
def State.writeReg (s : State) (off : Nat) (v : Word) : State :=
  match off with
  | 0x18 => { s with src := v }
  | 0x1C => { s with dst := v }
  | 0x20 => { s with len := v }
  | 0x24 => { s with lba := v }
  | 0x28 => { s with edcseed := v }
  | 0x2C => { s with seed := v.setWidth 15 }
  | 0x30 => { s with xfer := v }
  | 0x4C => { s with cacheidx := v }
  | _    => s

/-- What an access reaches (R60, R61). -/
inductive Target where
  /-- The register at an offset that is a multiple of 4, by a 32-bit access. -/
  | register (off : Nat)
  /-- The byte `MEM[a]`, by an 8-bit access. -/
  | memory (a : Nat)
  /-- A bus address error: misaligned, of the wrong width, or unmapped. -/
  | nothing
deriving DecidableEq, Repr

/-- The target of an access of `bits` bits at an offset (R60, R61, R68). -/
def busTarget (memSize bits off : Nat) : Target :=
  if off ≤ 0xFF then
    if bits = 32 ∧ off % 4 = 0 then .register off else .nothing
  else if memWindow ≤ off ∧ off < memWindow + memSize then
    if bits = 8 then .memory (off - memWindow) else .nothing
  else .nothing

/-- A read access: the value goes to the host; only a bus address error has an effect (R61, R281, R283). -/
def State.busRead (s : State) (bits off : Nat) : State :=
  match busTarget s.cfg.memSize bits off with
  | .register r => { s with rdata := s.readReg r }
  | .memory a   => { s with rdata := (s.mem.read a).setWidth 32 }
  | .nothing    => { s.busError with rdata := 0 }

/-- The command of word `w`, which `CMD` already holds: decoded, then executed to its end (R28, R95, R301). -/
def State.runCommand (s : State) (w : Word) : Host.Outcome State Fault Refusal :=
  match decode s.cfg.hasEccDec w with
  | .ok i            => exec i s
  | .error .illop    => .next (s.raise .illop)
  | .error .rsvd     => .next (s.raise .rsvd)

/-- A write access: `CMD` stores the word and executes it as one transition (R28), a byte of the window is stored
(R283), a bus address error changes `ERRLOG` alone (R61). -/
def State.busWrite (s : State) (bits off : Nat) (v : Word) : Host.Outcome State Fault Refusal :=
  match busTarget s.cfg.memSize bits off with
  | .register r =>
    if r = cmdOffset then { s with cmd := v }.runCommand v else .next (s.writeReg r v)
  | .memory a   => .next { s with mem := s.mem.write a (v.setWidth 8) }
  | .nothing    => .next s.busError

/-- The reset event (R330, R331): every register, `LAST` and `CACHE` as after reset, `MEM` with the content the event
brings. The configuration and the host's remaining events are no state of the block. -/
def State.platformReset (s : State) (content : List Host.Cell) : State :=
  { State.resetWith s.cfg (Memory.ofCells s.cfg.memSize content) with host := s.host }

/-- One event of the host's side of the port, in the state that no longer lists it. -/
def State.hostEvent (s : State) (e : HostEvent) : Host.Outcome State Fault Refusal :=
  match e with
  | .read bits off    => .next (s.busRead bits off)
  | .write bits off v => s.busWrite bits off v
  | .reset content    => .next (s.platformReset content)

/-- One transition: the next event of the host, and none where there is none; between transactions the block holds
its state (R70, R321). -/
def State.advance (s : State) : Host.Outcome State Fault Refusal :=
  match s.host with
  | []        => .next s
  | e :: rest => { s with host := rest }.hostEvent e

/-- `RD` of the register at an offset (R61, R97). -/
def rd (off : Nat) : HostEvent := .read 32 off

/-- `WR` of the register at an offset (R61, R97). -/
def wr (off : Nat) (v : Word) : HostEvent := .write 32 off v

/-- `RDB a` (R61, R97). -/
def rdb (a : Nat) : HostEvent := .read 8 (memWindow + a)

/-- `WRB a, x` (R61, R97). -/
def wrb (a : Nat) (x : Byte) : HostEvent := .write 8 (memWindow + a) (x.setWidth 32)

/-- A command line of R97: `WR CMD, <word>`. -/
def command (i : Instr) : HostEvent := wr cmdOffset (encode i)

/-- The pseudo-instruction `CDDESCR` (R98). -/
def cddescr : HostEvent := command .cdscr

/-- The pseudo-instruction `DVDDESCR` (R98). -/
def dvddescr : HostEvent := command .dvdscr

/-- The pseudo-instruction `SETBUF s, d, n` (R98). -/
def setbuf (src dst len : Word) : List HostEvent := [wr 0x18 src, wr 0x1C dst, wr 0x20 len]

/-- The pseudo-instruction `LOAD a, b0 b1 ... bk` (R98). -/
def load (a : Nat) : Bytes → List HostEvent
  | [] => []
  | b :: bs => wrb a b :: load (a + 1) bs

/-- The event that brings an instruction's bits to the engine: the host's `WR CMD` of the word (R28, R90). -/
def commandWord (nbits w : Nat) : HostEvent := wr cmdOffset (BitVec.ofNat 32 (w % 2 ^ nbits))

end Sys2Proof.Machine
end

