-- ==== Sys2Proof/Machine/Step.lean ====
section
/-! DEFINITION. One step of the machine, and how a command word is put where the next step takes it from. The block
fetches nothing (spec 10_state.md R24): it takes the host's next transaction (20_memory.md R70; log 1). -/

namespace Sys2Proof.Machine

/-- One step: one transaction of the host, one reset event, or nothing (R19, R70). -/
def step (s : State) : Host.Outcome State Fault Refusal := s.advance

/-- The state in which the host's very next transaction writes the word to `CMD`; nothing else changes (log 1). -/
def State.withFetchWord (s : State) (nbits w : Nat) : State := { s with host := commandWord nbits w :: s.host }

end Sys2Proof.Machine
end

