-- ==== Sys2Proof/Safety.lean ====
section
/-! DEFINITION. What the claims speak of: the input of a command, what a command leaves alone, what it leaves behind,
and the invariant of the block (spec 10_state.md R20 to R33, 20_memory.md R62 to R65, 60_exceptions.md R301 to R311). -/

namespace Sys2Proof.Machine

/-- `src = MemRead(SRC, LEN)`, the input every command but `NOP` and `DVDRST` takes (R64). -/
def State.input (s : State) : Bytes := s.mem.readBytes s.src.toNat s.len.toNat

/-- The ranges of a command that writes at most `n` bytes fit the memory: neither `SRCRANGE` nor `DSTRANGE`
(R305, R306). -/
def RangesFit (s : State) (n : Nat) : Prop :=
  s.src.toNat + s.len.toNat ≤ s.cfg.memSize ∧ (n = 0 ∨ s.dst.toNat + n ≤ s.cfg.memSize)

/-- The registers no command writes keep their values (R21, R28, R29), with the parameters and the host's side of the
port. -/
structure OperandsKept (s t : State) : Prop where
  cfg : t.cfg = s.cfg
  src : t.src = s.src
  dst : t.dst = s.dst
  len : t.len = s.len
  lba : t.lba = s.lba
  edcseed : t.edcseed = s.edcseed
  seed : t.seed = s.seed
  xfer : t.xfer = s.xfer
  cmd : t.cmd = s.cmd
  cacheidx : t.cacheidx = s.cacheidx
  host : t.host = s.host
  rdata : t.rdata = s.rdata

/-- Every byte outside the `n` bytes from `lo` on reads as before. -/
def MemKeptOutside (s t : State) (lo n : Nat) : Prop :=
  ∀ a, a < lo ∨ lo + n ≤ a → t.mem.read a = s.mem.read a

/-- The bytes from `lo` on are `out`. -/
def MemHolds (t : State) (lo : Nat) (out : Bytes) : Prop :=
  ∀ i, i < out.length → t.mem.read (lo + i) = byteAt out i

/-- The four fields of `STATUS` after a command: its tag and reason, no error, and the `OPC` of the word in `CMD`
(R25). -/
def StatusIs (s t : State) (tag : Tag) (reason : Reason) : Prop :=
  t.status = opcField s.cmd ++ 0#12 ++ 0#4 ++ reason.code ++ 0#1 ++ tag.code

/-- What a command that ends without a command error leaves: `STATUS`, `OLEN`, the three results, `out` at `DST` and
every other byte as before, the operand registers and `ERRLOG` as before (R21, R23, R25, R26, R63). -/
structure Leaves (s t : State) (tag : Tag) (reason : Reason) (out : Bytes) (res0 res1 res2 : Word) : Prop where
  operands : OperandsKept s t
  errlog : t.errlog = s.errlog
  status : StatusIs s t tag reason
  olen : t.olen = BitVec.ofNat 32 out.length
  res0 : t.res0 = res0
  res1 : t.res1 = res1
  res2 : t.res2 = res2
  holds : MemHolds t s.dst.toNat out
  kept : MemKeptOutside s t s.dst.toNat out.length

/-- A command that ends without a command error and changes neither the Q record nor the descrambler's instance. -/
structure Ends (s t : State) (tag : Tag) (reason : Reason) (out : Bytes) (res0 res1 res2 : Word) : Prop
    extends Leaves s t tag reason out res0 res1 res2 where
  q : t.q = s.q
  dvd : t.dvd = s.dvd

/-- The state `raise E` makes of a state whose `CMD` holds the word, for the error of code `n` (R302, R303). -/
def State.raised (s : State) (n : Nat) : State :=
  { s with
    status := 4#32 ||| (BitVec.ofNat 32 n <<< 8) ||| ((s.cmd &&& 0xFF#32) <<< 24)
    errlog := s.errlog ||| (1#32 <<< n) }

/-- The state a bus address error makes: `ERRLOG` bit 5 and nothing else (R308). -/
def State.busErrored (s : State) : State := { s with errlog := s.errlog ||| (1#32 <<< 5) }

/-- What a command that reads an input and can write `bound` bytes at `DST` leaves when a range check fails: `SRCRANGE`
first, then `DSTRANGE` (R305, R306, R307). -/
def RangeErrors (s t : State) (bound : Nat) : Prop :=
  (s.cfg.memSize < s.src.toNat + s.len.toNat → t = s.raised 3) ∧
  (s.src.toNat + s.len.toNat ≤ s.cfg.memSize → 0 < bound → s.cfg.memSize < s.dst.toNat + bound → t = s.raised 4)

/-- The fields of a `STATUS` word are ones the block produces (R25). -/
def StatusLegal (w : Word) : Prop :=
  (statusOutcome w).toNat ≤ 4 ∧ w.getLsbD 3 = false ∧ (statusReason w).toNat ≤ 7 ∧
  (statusReason w ≠ 0 → statusOutcome w = 1) ∧ (statusErr w).toNat ≤ 4 ∧ (statusErr w ≠ 0 ↔ statusOutcome w = 4) ∧
  w.extractLsb' 12 12 = 0

/-- Only bits 1 to 5 of `ERRLOG` can be set (R26). -/
def ErrlogLegal (w : Word) : Prop := w &&& 0x0000003E = w

/-- The bits of the Q record that R266 does not name read 0. -/
def QLegal (q : QRecord) : Prop :=
  q.q0.extractLsb' 25 7 = 0 ∧ q.q1.extractLsb' 24 8 = 0 ∧ q.q4.extractLsb' 17 15 = 0

/-- The descrambler's instance: distinct cached seeds, and a set hint is one of them (R33, R210). -/
def DvdLegal (d : DvdInstance) : Prop := d.cache.Nodup ∧ ∀ x, d.last = some x → x ∈ d.cache

/-- The invariant of the block. -/
structure Inv (s : State) : Prop where
  cfg : s.cfg.wellFormed = true
  mem : Memory.wf s.cfg.memSize s.mem = true
  status : StatusLegal s.status
  errlog : ErrlogLegal s.errlog
  q : QLegal s.q
  dvd : DvdLegal s.dvd

/-- An event that is the platform's reset (R330). -/
def HostEvent.isReset : HostEvent → Bool
  | .read _ _ => false
  | .write _ _ _ => false
  | .reset _ => true

end Sys2Proof.Machine
end

