-- ==== Sys2Proof/Certificates/Slice0/Obligations.lean ====
section
/-! DEFINITION. The statements for the provers. Each docstring names the rule of spec/ it formalises. Where a statement
speaks of `exec`, the word of the command is the one `s.cmd` holds, as a host's `WR CMD` leaves it (R28). -/

section

open Sys2Proof Sys2Proof.Machine

/-! ### Encoding and decoding -/

/-- R90, R92, R93, R94: the word of a command that exists decodes to the command, every field at every value. -/
def Obligations.DecodeOfEncode : Prop :=
  ∀ (hasEccDec : Bool) (i : Instr), i.wellFormed hasEccDec = true → decode hasEccDec (encode i) = .ok i

/-- R94, R95: a word that decodes is the word of the command it decodes to, and that command exists in the block. -/
def Obligations.EncodeOfDecode : Prop :=
  ∀ (hasEccDec : Bool) (w : Word) (i : Instr),
    decode hasEccDec w = .ok i → i.wellFormed hasEccDec = true ∧ encode i = w

/-- R94, R97: one word of every command, written out from the opcode map, and the four words of R97. -/
def Obligations.SampleWords : Prop :=
  decode true 0x00000000 = .ok .nop ∧ decode true 0x00000010 = .ok .edc ∧
  decode true 0x00000211 = .ok (.rprefix .mode2Form1) ∧ decode true 0x00000112 = .ok (.recc .mode1) ∧
  decode true 0x00000713 = .ok (.eccsyn .tt7) ∧ decode true 0x00000214 = .ok (.eccfix .mode2Form1) ∧
  decode true 0x00000020 = .ok .cdscr ∧ decode true 0x00000030 = .ok .dvdtest ∧
  decode true 0x00000031 = .ok .dvdseed ∧ decode true 0x00000032 = .ok .dvdscr ∧
  decode true 0x00000033 = .ok .dvdscrb ∧ decode true 0x00000034 = .ok .dvdrst ∧
  decode true 0x00000040 = .ok .qbin2bcd ∧ decode true 0x00000041 = .ok .qbcd2bin ∧
  decode true 0x00000042 = .ok .q2raw ∧ decode true 0x00000043 = .ok .intlv ∧
  decode true 0x00000044 = .ok .deintlv ∧
  decode true 0x00005045 = .ok (.qparse { bcd := true, corruptedPause := false, pause := true, rwEmpty := false }) ∧
  decode false 0x00000113 = .error .illop ∧ decode true 0x00000100 = .error .rsvd

/-- R95, R301, R302: what a host's `WR CMD, w` does with every word `w`: `ILLOP`, else `RSVD`, else the command whose
`OPC` and fields the word has, run in the state whose `CMD` holds the word. -/
def Obligations.WordIsDecodedInOrder : Prop :=
  ∀ (s : State) (w : Word) (rest : List HostEvent), s.host = wr cmdOffset w :: rest →
    let s0 : State := { s with host := rest, cmd := w }
    let opc : BitVec 8 := w.extractLsb' 0 8
    let illegal : Prop :=
      opc ∉ ([0x00, 0x10, 0x11, 0x12, 0x13, 0x14, 0x20, 0x30, 0x31, 0x32, 0x33, 0x34, 0x40, 0x41, 0x42, 0x43, 0x44,
        0x45] : List (BitVec 8)) ∨ ((opc = 0x13 ∨ opc = 0x14) ∧ s.cfg.hasEccDec = false)
    let reserved : Prop :=
      w.extractLsb' 16 16 ≠ 0 ∨ w.getLsbD 11 = true ∨
      (opc ∉ ([0x11, 0x12, 0x13, 0x14] : List (BitVec 8)) ∧ w.extractLsb' 8 3 ≠ 0) ∨
      (opc ≠ 0x45 ∧ w.extractLsb' 12 4 ≠ 0)
    (illegal → step s = .next (s0.raised 1)) ∧
    (¬ illegal → reserved → step s = .next (s0.raised 2)) ∧
    (¬ illegal → ¬ reserved → ∃ i : Instr, i.opc = opc ∧ i.ttBits = w.extractLsb' 8 3 ∧ i.qfBits = w.extractLsb' 12 4 ∧
      step s = exec i s0)

/-! ### The host port -/

/-- R28: a write of `w` to `CMD` stores `w` and runs the command it encodes in the same transition; a read of `CMD`
returns the last word written, 0 after reset. -/
def Obligations.StepRunsTheCommand : Prop :=
  (∀ (s : State) (w : Word) (rest : List HostEvent) (i : Instr), s.host = wr cmdOffset w :: rest →
    decode s.cfg.hasEccDec w = .ok i → step s = exec i { s with host := rest, cmd := w }) ∧
  (∀ (s t : State) (w : Word) (rest : List HostEvent), s.host = wr cmdOffset w :: rest → step s = .next t →
    t.cmd = w ∧ t.host = rest) ∧
  (∀ (s : State) (rest : List HostEvent), s.host = rd cmdOffset :: rest →
    step s = .next { s with host := rest, rdata := s.cmd }) ∧
  State.reset.cmd = 0

/-- R281 with the map of R30: the value of every register a host reads; a read changes nothing but what the host
holds, except a read at a misaligned or unmapped offset. -/
def Obligations.RegisterRead : Prop :=
  ∀ (s : State) (off : Nat) (rest : List HostEvent), s.host = rd off :: rest →
    let s0 : State := { s with host := rest }
    let map : List (Nat × Word) :=
      [(0x00, 0x53434501), (0x04, if s.cfg.hasEccDec then 1 else 0), (0x08, BitVec.ofNat 32 s.cfg.memSize),
       (0x0C, s.cmd), (0x10, s.status), (0x14, s.errlog), (0x18, s.src), (0x1C, s.dst), (0x20, s.len), (0x24, s.lba),
       (0x28, s.edcseed), (0x2C, s.seed.setWidth 32), (0x30, s.xfer), (0x34, s.olen), (0x38, s.res0), (0x3C, s.res1),
       (0x40, s.res2),
       (0x44, match s.dvd.last with | some x => 0x8000#32 ||| x.setWidth 32 | none => 0),
       (0x48, BitVec.ofNat 32 s.dvd.cache.length), (0x4C, s.cacheidx),
       (0x50, if h : s.cacheidx.toNat < (cacheOrder s.cfg s.dvd.cache).length then
          0x8000#32 ||| ((cacheOrder s.cfg s.dvd.cache)[s.cacheidx.toNat]'h).setWidth 32 else 0),
       (0x80, s.q.q0), (0x84, s.q.q1), (0x88, s.q.q2), (0x8C, s.q.q3), (0x90, s.q.q4), (0x94, s.q.q5), (0x98, s.q.q6),
       (0x9C, s.q.q7)]
    (off ≤ 0xFF ∧ off % 4 = 0 → step s = .next { s0 with rdata := (map.lookup off).getD 0 }) ∧
    (¬ (off ≤ 0xFF ∧ off % 4 = 0) → step s = .next { s0.busErrored with rdata := 0 })

/-- R282, R22: where a host's register write goes: eight registers store it (`SEED` 15 bits of it, read back with the
others 0), `CMD` runs it, every other mapped offset ignores it. -/
def Obligations.RegisterWrite : Prop :=
  ∀ (s : State) (off : Nat) (v : Word) (rest : List HostEvent), s.host = wr off v :: rest →
    let s0 : State := { s with host := rest }
    (off = 0x18 → step s = .next { s0 with src := v }) ∧
    (off = 0x1C → step s = .next { s0 with dst := v }) ∧
    (off = 0x20 → step s = .next { s0 with len := v }) ∧
    (off = 0x24 → step s = .next { s0 with lba := v }) ∧
    (off = 0x28 → step s = .next { s0 with edcseed := v }) ∧
    (off = 0x2C → ∃ x : Seed, step s = .next { s0 with seed := x } ∧ x.setWidth 32 = v &&& 0x7FFF#32) ∧
    (off = 0x30 → step s = .next { s0 with xfer := v }) ∧
    (off = 0x4C → step s = .next { s0 with cacheidx := v }) ∧
    (off = 0x0C → step s = { s0 with cmd := v }.runCommand v) ∧
    (off ≤ 0xFF ∧ off % 4 = 0 ∧ off ∉ [0x0C, 0x18, 0x1C, 0x20, 0x24, 0x28, 0x2C, 0x30, 0x4C] → step s = .next s0)

/-- R283: `RDB a` returns `MEM[a]` and `WRB a, x` makes `MEM[a]` `x`, every other byte and every register as before. -/
def Obligations.MemoryAccess : Prop :=
  (∀ (s : State) (a : Nat) (rest : List HostEvent), a < s.cfg.memSize → s.host = rdb a :: rest →
    step s = .next { s with host := rest, rdata := (s.mem.read a).setWidth 32 }) ∧
  (∀ (s : State) (a : Nat) (x : Byte) (rest : List HostEvent), a < s.cfg.memSize → s.host = wrb a x :: rest →
    ∃ m : Memory, step s = .next { s with host := rest, mem := m } ∧
      ∀ b, m.read b = if b = a then x else s.mem.read b)

/-- R308, R61: an access that is misaligned, of the wrong width or unmapped sets `ERRLOG` bit 5 and changes nothing else
of the block; a read returns 0. -/
def Obligations.BusAddressError : Prop :=
  ∀ (s : State) (bits off : Nat) (v : Word) (rest : List HostEvent),
    ¬ (off ≤ 0xFF ∧ bits = 32 ∧ off % 4 = 0) →
    ¬ (0x10000 ≤ off ∧ off < 0x10000 + s.cfg.memSize ∧ bits = 8) →
    (s.host = .write bits off v :: rest → step s = .next { s with host := rest }.busErrored) ∧
    (s.host = .read bits off :: rest → step s = .next { { s with host := rest }.busErrored with rdata := 0 })

/-! ### Reset -/

/-- 10_state.md section 4, 70_reset_and_hazards.md section 1: after reset every register reads as in the reset column of
R30, `LAST` is unset and `CACHE` empty, whatever `MEM` holds; State.reset is such a state, and the reset event leaves one.
By the model's choices the event also leaves `rdata` 0 (log 2) and keeps the parameters and the events to come (log 7). -/
def Obligations.ResetValues : Prop :=
  (∀ (c : Config) (m : Memory),
    (∀ off, off ≤ 0xFF → off % 4 = 0 → (State.resetWith c m).readReg off =
      if off = 0x00 then 0x53434501 else if off = 0x04 then (if c.hasEccDec then 1 else 0)
      else if off = 0x08 then BitVec.ofNat 32 c.memSize else 0) ∧
    (State.resetWith c m).dvd.last = none ∧ (State.resetWith c m).dvd.cache = [] ∧
    statusOutcome (State.resetWith c m).status = Tag.idle.code) ∧
  (∃ m : Memory, State.reset = State.resetWith Config.standard m) ∧
  (∀ (s : State) (content : List Host.Cell) (rest : List HostEvent), s.host = .reset content :: rest →
    ∃ m : Memory, step s = .next { State.resetWith s.cfg m with host := rest })

/-- R37, by the choices of log 3 and log 7: a reset event can leave any bytes in `MEM`, and in canonical form. -/
def Obligations.ResetMemoryIsArbitrary : Prop :=
  ∀ (s : State) (f : Nat → Byte) (rest : List HostEvent),
    ∃ content : List Host.Cell, ∀ s1 : State, s1.cfg = s.cfg → s1.host = .reset content :: rest →
      ∃ t, step s1 = .next t ∧ Memory.wf s.cfg.memSize t.mem = true ∧ ∀ a, a < s.cfg.memSize → t.mem.read a = f a

/-! ### The whole machine -/

/-- Reset satisfies the invariant, in every admissible configuration and with every memory in canonical form, which is
the model's own form (log 3). -/
def Obligations.InvAtReset : Prop :=
  Inv State.reset ∧
  ∀ (c : Config) (m : Memory), c.wellFormed = true → Memory.wf c.memSize m = true → Inv (State.resetWith c m)

/-- R25, R26, R33, R266 and the canonical form of memory (log 3): every step keeps the invariant. -/
def Obligations.StepKeepsInv : Prop := ∀ s t : State, Inv s → step s = .next t → Inv t

/-- 93_implementation_defined.md section 2, R321: every step from every state, and every command in every state, has a
next state; where the host has nothing left to do, the block holds its state. -/
def Obligations.StepAlwaysNext : Prop :=
  (∀ s : State, ∃ t, step s = .next t) ∧ (∀ (i : Instr) (s : State), ∃ t, exec i s = .next t) ∧
  ∀ s : State, s.host = [] → step s = .next s

/-- R26, R331: no step clears an `ERRLOG` bit but the reset event, which clears them all. -/
def Obligations.ErrlogIsSticky : Prop :=
  ∀ s t : State, step s = .next t →
    (∀ content rest, s.host = .reset content :: rest → t.errlog = 0) ∧
    ((∀ content rest, s.host ≠ .reset content :: rest) → s.errlog &&& t.errlog = s.errlog)

/-- R21, R31, R33, R65, R303: what a command leaves alone. No command writes an operand register, only `QPARSE` writes
the Q record, only four DVD commands change `LAST` and `CACHE`, every byte outside `[DST, DST + OLEN)` is kept, and a
command that ends in `ERROR` keeps the memory, the results, the Q record and the instance. -/
def Obligations.CommandFrame : Prop :=
  ∀ (i : Instr) (s t : State), s.cfg.memSizeOk = true → exec i s = .next t →
    OperandsKept s t ∧
    ((∀ qf, i ≠ .qparse qf) → t.q = s.q) ∧
    (i ≠ .dvdseed → i ≠ .dvdscr → i ≠ .dvdscrb → i ≠ .dvdrst → t.dvd = s.dvd) ∧
    (statusOutcome t.status ≠ 4 → t.errlog = s.errlog ∧ t.olen.toNat ≤ outmax i s.len.toNat ∧
      MemKeptOutside s t s.dst.toNat t.olen.toNat) ∧
    (statusOutcome t.status = 4 → t.mem = s.mem ∧ t.olen = s.olen ∧ t.res0 = s.res0 ∧ t.res1 = s.res1 ∧
      t.res2 = s.res2 ∧ t.q = s.q ∧ t.dvd = s.dvd)

/-- R62, R64, R65: a command reads no byte of `MEM` outside `[SRC, SRC + LEN)`: from two memories that agree there it
leaves the same registers and writes the same bytes. -/
def Obligations.ResultsComeFromInputAlone : Prop :=
  ∀ (i : Instr) (s : State) (m : Memory), s.cfg.memSizeOk = true →
    (∀ a, s.src.toNat ≤ a → a < s.src.toNat + s.len.toNat → m.read a = s.mem.read a) →
    ∃ t t' : State, exec i s = .next t ∧ exec i { s with mem := m } = .next t' ∧
      t' = { t with mem := t'.mem } ∧
      (statusOutcome t.status ≠ 4 → ∀ a, s.dst.toNat ≤ a → a < s.dst.toNat + t.olen.toNat →
        t'.mem.read a = t.mem.read a)

/-- R91, R94: an operand register a command does not read has no effect on it. -/
def Obligations.UnreadRegistersHaveNoEffect : Prop :=
  ∀ (i : Instr) (s t : State) (v : Word) (x : Seed), exec i s = .next t →
    ((∀ tt, i ≠ .rprefix tt) → (∀ qf, i ≠ .qparse qf) → exec i { s with lba := v } = .next { t with lba := v }) ∧
    (i ≠ .edc → exec i { s with edcseed := v } = .next { t with edcseed := v }) ∧
    (i ≠ .dvdtest → exec i { s with seed := x } = .next { t with seed := x }) ∧
    (i ≠ .dvdscrb → exec i { s with xfer := v } = .next { t with xfer := v }) ∧
    (i = .nop ∨ i = .edc ∨ i = .dvdtest ∨ i = .dvdrst ∨ (∃ qf, i = .qparse qf) →
      exec i { s with dst := v } = .next { t with dst := v }) ∧
    (i = .nop ∨ i = .dvdrst → exec i { s with src := v } = .next { t with src := v } ∧
      exec i { s with len := v } = .next { t with len := v })

/-- R305: `SRCRANGE` is what a command reports exactly when it is not `NOP` or `DVDRST` and `SRC + LEN > MEM_SIZE`. -/
def Obligations.SourceRangeCheck : Prop :=
  ∀ (i : Instr) (s : State),
    (exec i s = .next (s.raised 3) ↔ i ≠ .nop ∧ i ≠ .dvdrst ∧ s.cfg.memSize < s.src.toNat + s.len.toNat)

/-- R306, R307: the bounds, and `DSTRANGE` exactly when the source range fits, the bound is not 0 and `DST` plus the bound
is above `MEM_SIZE`. -/
def Obligations.DestinationRangeCheck : Prop :=
  (∀ (tt : TrackType) (qf : QFlags) (n : Nat),
    (outmax .nop n = 0 ∧ outmax .edc n = 0 ∧ outmax .dvdtest n = 0 ∧ outmax .dvdrst n = 0 ∧ outmax (.qparse qf) n = 0) ∧
    (outmax (.rprefix tt) n = n ∧ outmax (.recc tt) n = n ∧ outmax (.eccfix tt) n = n ∧ outmax .cdscr n = n ∧
      outmax .dvdscr n = n ∧ outmax .dvdscrb n = n ∧ outmax .qbin2bcd n = n ∧ outmax .qbcd2bin n = n ∧
      outmax .intlv n = n ∧ outmax .deintlv n = n) ∧
    outmax (.eccsyn tt) n = 276 ∧ outmax .dvdseed n = 2048 ∧
    (n % 16 = 0 → outmax .q2raw n = 6 * n) ∧ (n % 16 ≠ 0 → outmax .q2raw n = n)) ∧
  ∀ (i : Instr) (s : State),
    (exec i s = .next (s.raised 4) ↔
      ¬ (i ≠ .nop ∧ i ≠ .dvdrst ∧ s.cfg.memSize < s.src.toNat + s.len.toNat) ∧
      0 < outmax i s.len.toNat ∧ s.cfg.memSize < s.dst.toNat + outmax i s.len.toNat)

/-! ### The commands -/

/-- R280: `NOP`. -/
def Obligations.NopCommand : Prop :=
  ∀ s : State, ∃ t, exec .nop s = .next t ∧ Ends s t .computed .none [] 0 0 0 ∧
    (opcField s.cmd = 0 → t.status = 0x00000003)

/-- R141: `EDC`. -/
def Obligations.EdcCommand : Prop :=
  ∀ s : State, ∃ t, exec .edc s = .next t ∧ RangeErrors s t 0 ∧
    (RangesFit s 0 → Ends s t .computed .none [] (edcCd s.edcseed s.input) 0 0)

/-- R144, R145: `RPREFIX`, its tests in order, and every byte of its output. -/
def Obligations.RprefixCommand : Prop :=
  ∀ (tt : TrackType) (s : State), ∃ t, exec (.rprefix tt) s = .next t ∧ RangeErrors s t s.len.toNat ∧
    (RangesFit s s.len.toNat →
      let listed : Prop := tt = .mode1 ∨ tt = .mode2Form1 ∨ tt = .mode2Form2 ∨ tt = .mode2Formless
      let time : Int := s.lba.toInt + 150
      (s.len.toNat < 2352 → Ends s t .unchanged .length s.input 0 0 0) ∧
      (2352 ≤ s.len.toNat → ¬ listed → Ends s t .unchanged .ttype s.input 0 0 0) ∧
      (2352 ≤ s.len.toNat → listed → time < 0 ∨ 449999 < time → Ends s t .unchanged .range s.input 0 0 0) ∧
      (2352 ≤ s.len.toNat → listed → 0 ≤ time → time ≤ 449999 → ∃ out : Bytes,
        Ends s t .transformed .none out 0 0 0 ∧ out.length = s.len.toNat ∧
        ∀ k, k < s.len.toNat → byteAt out k =
          if k < 12 then byteAt [0x00, 0xFF, 0xFF, 0xFF, 0xFF, 0xFF, 0xFF, 0xFF, 0xFF, 0xFF, 0xFF, 0x00] k
          else if k = 12 then toBcd (time.toNat / 4500)
          else if k = 13 then toBcd (time.toNat / 75 % 60)
          else if k = 14 then toBcd (time.toNat % 75)
          else if k = 15 then (if tt = .mode1 then 0x01 else 0x02)
          else if k < 20 ∧ tt ≠ .mode1 then byteAt s.input (k + 4)
          else byteAt s.input k))

/-- R150: `RECC`, its tests in order, and every byte of its output; the parity is `ecc_parity` of the output's own
bytes below it, the header bytes as zero for Mode2Form1 (R149). -/
def Obligations.ReccCommand : Prop :=
  ∀ (tt : TrackType) (s : State), ∃ t, exec (.recc tt) s = .next t ∧ RangeErrors s t s.len.toNat ∧
    (RangesFit s s.len.toNat →
      (s.len.toNat < 2352 → Ends s t .unchanged .length s.input 0 0 0) ∧
      (2352 ≤ s.len.toNat → tt ≠ .mode1 → tt ≠ .mode2Form1 → tt ≠ .mode2Form2 →
        Ends s t .unchanged .ttype s.input 0 0 0) ∧
      (2352 ≤ s.len.toNat → tt = .mode1 → ∃ out : Bytes,
        let e := edcCd 0 (slice s.input 0x000 0x810)
        Ends s t .transformed .none out e 0 0 ∧ out.length = s.len.toNat ∧
        ∀ k, k < s.len.toNat → byteAt out k =
          if 0x810 ≤ k ∧ k < 0x814 then byteAt (u32le e) (k - 0x810)
          else if 0x814 ≤ k ∧ k < 0x81C then 0
          else if 0x81C ≤ k ∧ k < 0x8C8 then byteAt (eccParity (slice out 0x00C 0x81C) 86 24 2 86) (k - 0x81C)
          else if 0x8C8 ≤ k ∧ k < 0x930 then byteAt (eccParity (slice out 0x00C 0x8C8) 52 43 86 88) (k - 0x8C8)
          else byteAt s.input k) ∧
      (2352 ≤ s.len.toNat → tt = .mode2Form1 → ∃ out : Bytes,
        let e := edcCd 0 (slice s.input 0x010 0x818)
        Ends s t .transformed .none out e 0 0 ∧ out.length = s.len.toNat ∧
        ∀ k, k < s.len.toNat → byteAt out k =
          if 0x818 ≤ k ∧ k < 0x81C then byteAt (u32le e) (k - 0x818)
          else if 0x81C ≤ k ∧ k < 0x8C8 then
            byteAt (eccParity (List.replicate 4 0 ++ slice out 0x010 0x81C) 86 24 2 86) (k - 0x81C)
          else if 0x8C8 ≤ k ∧ k < 0x930 then
            byteAt (eccParity (List.replicate 4 0 ++ slice out 0x010 0x8C8) 52 43 86 88) (k - 0x8C8)
          else byteAt s.input k) ∧
      (2352 ≤ s.len.toNat → tt = .mode2Form2 → ∃ out : Bytes,
        let e := edcCd 0 (slice s.input 0x010 0x92C)
        Ends s t .transformed .none out e 0 0 ∧ out.length = s.len.toNat ∧
        ∀ k, k < s.len.toNat → byteAt out k =
          if 0x92C ≤ k ∧ k < 0x930 then byteAt (u32le e) (k - 0x92C) else byteAt s.input k))

/-- R176: `ECCSYN`, its tests in order, its 276 output bytes and its two counts, over the region of R170. -/
def Obligations.EccsynCommand : Prop :=
  ∀ (tt : TrackType) (s : State), ∃ t, exec (.eccsyn tt) s = .next t ∧ RangeErrors s t 276 ∧
    (RangesFit s 276 →
      let r : Nat → Byte := fun k => if tt = .mode2Form1 ∧ k < 4 then 0 else byteAt s.input (0x00C + k)
      let p : Nat → Byte × Byte := fun j => syndromes ((ppos j).map r)
      let q : Nat → Byte × Byte := fun j => syndromes ((qpos j).map r)
      (s.len.toNat < 2352 → Ends s t .unchanged .length [] 0 0 0) ∧
      (2352 ≤ s.len.toNat → tt ≠ .mode1 → tt ≠ .mode2Form1 → Ends s t .unchanged .ttype [] 0 0 0) ∧
      (2352 ≤ s.len.toNat → tt = .mode1 ∨ tt = .mode2Form1 → ∃ out : Bytes,
        Ends s t .computed .none out
          (BitVec.ofNat 32 ((List.range 86).countP fun j => decide (p j ≠ (0, 0))))
          (BitVec.ofNat 32 ((List.range 52).countP fun j => decide (q j ≠ (0, 0)))) 0 ∧
        out.length = 276 ∧
        (∀ j, j < 86 → byteAt out (2 * j) = (p j).1 ∧ byteAt out (2 * j + 1) = (p j).2) ∧
        (∀ j, j < 52 → byteAt out (172 + 2 * j) = (q j).1 ∧ byteAt out (172 + 2 * j + 1) = (q j).2)))

/-- R180: `ECCFIX`, its tests in order, its two counts and every byte of its output, over `fix_codeword` of R177 on every
codeword in pass order. -/
def Obligations.EccfixCommand : Prop :=
  ∀ (tt : TrackType) (s : State), ∃ t, exec (.eccfix tt) s = .next t ∧ RangeErrors s t s.len.toNat ∧
    (RangesFit s s.len.toNat →
      let codewords : List (List Nat) := (List.range 86).map ppos ++ (List.range 52).map qpos
      let st : FixState := codewords.foldl (fixCodeword (decide (tt = .mode2Form1))) ⟨eccRegion tt s.input, 0, 0⟩
      (s.len.toNat < 2352 → Ends s t .unchanged .length s.input 0 0 0) ∧
      (2352 ≤ s.len.toNat → tt ≠ .mode1 → tt ≠ .mode2Form1 → Ends s t .unchanged .ttype s.input 0 0 0) ∧
      (2352 ≤ s.len.toNat → tt = .mode1 ∨ tt = .mode2Form1 →
        (st.fixed = 0 → st.bad = 0 → Ends s t .unchanged .clean s.input 0 0 0) ∧
        (st.fixed = 0 → st.bad ≠ 0 → Ends s t .unchanged .uncorr s.input 0 (BitVec.ofNat 32 st.bad) 0) ∧
        (st.fixed ≠ 0 → ∃ out : Bytes,
          Ends s t .transformed .none out (BitVec.ofNat 32 st.fixed) (BitVec.ofNat 32 st.bad) 0 ∧
          out.length = s.len.toNat ∧
          ∀ k, k < s.len.toNat → byteAt out k =
            if 0x00C + (if tt = .mode2Form1 then 4 else 0) ≤ k ∧ k < 0x930 then byteAt st.region (k - 0x00C)
            else byteAt s.input k)))

/-- R193: `CDSCR`, its tests in order, and every byte of its output. -/
def Obligations.CdscrCommand : Prop :=
  ∀ s : State, ∃ t, exec .cdscr s = .next t ∧ RangeErrors s t s.len.toNat ∧
    (RangesFit s s.len.toNat →
      (s.len.toNat < 2352 → Ends s t .unchanged .length s.input 0 0 0) ∧
      (2352 ≤ s.len.toNat → s.input.take 12 ≠ sync → Ends s t .unchanged .nosync s.input 0 0 0) ∧
      (2352 ≤ s.len.toNat → s.input.take 12 = sync → ∃ out : Bytes,
        Ends s t .transformed .none out 0 0 0 ∧ out.length = s.len.toNat ∧
        ∀ k, k < s.len.toNat → byteAt out k =
          if k < 2352 then byteAt s.input k ^^^ byteAt (scrambleTable s.cfg) k else byteAt s.input k))

/-- R211, R206: `DVDTEST`. The sector is accepted exactly when `DVD_EDC` of its first 2060 bytes, those from 12 on
exclusive-ored with the keystream of `SEED`, is the number its bytes 2060 to 2063 spell, most significant first. -/
def Obligations.DvdtestCommand : Prop :=
  ∀ s : State, ∃ t, exec .dvdtest s = .next t ∧ RangeErrors s t 0 ∧
    (RangesFit s 0 →
      let plain : Bytes := (List.range 2060).map fun k =>
        if 12 ≤ k then byteAt s.input k ^^^ byteAt (keystream s.seed) (k - 12) else byteAt s.input k
      let stored : Nat := (byteAt s.input 2060).toNat * 2 ^ 24 + (byteAt s.input 2061).toNat * 2 ^ 16 +
        (byteAt s.input 2062).toNat * 2 ^ 8 + (byteAt s.input 2063).toNat
      (s.len.toNat ≠ 2064 → Ends s t .unchanged .length [] 0 0 0) ∧
      (s.len.toNat = 2064 → (dvdEdc s.cfg plain).toNat = stored → Ends s t .computed .none [] 1 0 0) ∧
      (s.len.toNat = 2064 → (dvdEdc s.cfg plain).toNat ≠ stored → Ends s t .computed .none [] 0 0 0))

/-- R213, R210: `DVDSEED`: the seed, the trials, the stage, the keystream at `DST`, and the hint and the cache. -/
def Obligations.DvdseedCommand : Prop :=
  ∀ s : State, ∃ t, exec .dvdseed s = .next t ∧ RangeErrors s t 2048 ∧
    (RangesFit s 2048 →
      (s.len.toNat ≠ 2064 → Ends s t .unchanged .length [] 0 0 0) ∧
      (∀ n, s.len.toNat = 2064 → search s.cfg s.dvd s.input = .notFound n →
        Ends s t .unchanged .noseed [] 0 (BitVec.ofNat 32 n) 0) ∧
      (∀ x n g, s.len.toNat = 2064 → search s.cfg s.dvd s.input = .found x n g →
        Leaves s t .computed .none (keystream x) (x.setWidth 32) (BitVec.ofNat 32 n) (BitVec.ofNat 32 g.number) ∧
        t.q = s.q ∧ t.dvd.last = some x ∧
        t.dvd.cache = if x ∈ s.dvd.cache then s.dvd.cache else s.dvd.cache ++ [x]))

/-- R215, R210: `DVDSCR`: the sector with the found keystream applied, and the hint and the cache. -/
def Obligations.DvdscrCommand : Prop :=
  ∀ s : State, ∃ t, exec .dvdscr s = .next t ∧ RangeErrors s t s.len.toNat ∧
    (RangesFit s s.len.toNat →
      (s.len.toNat ≠ 2064 → Ends s t .unchanged .length s.input 0 0 0) ∧
      (∀ n, s.len.toNat = 2064 → search s.cfg s.dvd s.input = .notFound n →
        Ends s t .unchanged .noseed s.input 0 (BitVec.ofNat 32 n) 0) ∧
      (∀ x n g, s.len.toNat = 2064 → search s.cfg s.dvd s.input = .found x n g → ∃ out : Bytes,
        Leaves s t .transformed .none out (x.setWidth 32) (BitVec.ofNat 32 n) (BitVec.ofNat 32 g.number) ∧
        out.length = 2064 ∧
        (∀ k, k < 2064 → byteAt out k = if 12 ≤ k ∧ k < 2060 then byteAt s.input k ^^^ byteAt (keystream x) (k - 12)
          else byteAt s.input k) ∧
        t.q = s.q ∧ t.dvd.last = some x ∧
        t.dvd.cache = if x ∈ s.dvd.cache then s.dvd.cache else s.dvd.cache ++ [x]))

/-- R217: `DVDSCRB`: the chunks in ascending order, `LAST` and `CACHE` carried from chunk to chunk in `d`, a chunk without
a seed left as it is, the two counts and the outcome. -/
def Obligations.DvdscrbCommand : Prop :=
  ∀ s : State, ∃ t, exec .dvdscrb s = .next t ∧ RangeErrors s t s.len.toNat ∧
    (RangesFit s s.len.toNat →
      (s.len.toNat ≠ 2064 * s.xfer.toNat → Ends s t .unchanged .length s.input 0 0 0) ∧
      (s.len.toNat = 2064 * s.xfer.toNat → ∃ (out : Bytes) (d : Nat → DvdInstance) (hit : Nat → Bool),
        let chunk : Nat → Bytes := fun c => slice s.input (2064 * c) (2064 * (c + 1))
        let done : Nat := (List.range s.xfer.toNat).countP fun c => hit c
        let miss : Nat := (List.range s.xfer.toNat).countP fun c => !hit c
        Leaves s t (if 0 < done then .transformed else .unchanged)
          (if 0 < done then .none else if 0 < miss then .noseed else .none) out
          (BitVec.ofNat 32 done) (BitVec.ofNat 32 miss) 0 ∧
        t.q = s.q ∧ d 0 = s.dvd ∧ t.dvd = d s.xfer.toNat ∧ out.length = s.len.toNat ∧ done + miss = s.xfer.toNat ∧
        ∀ c, c < s.xfer.toNat →
          (∀ x n g, search s.cfg (d c) (chunk c) = .found x n g →
            hit c = true ∧ (d (c + 1)).last = some x ∧
            (d (c + 1)).cache = (if x ∈ (d c).cache then (d c).cache else (d c).cache ++ [x]) ∧
            slice out (2064 * c) (2064 * (c + 1)) = dvdApply (chunk c) (keystream x)) ∧
          (∀ n, search s.cfg (d c) (chunk c) = .notFound n →
            hit c = false ∧ d (c + 1) = d c ∧ slice out (2064 * c) (2064 * (c + 1)) = chunk c)))

/-- R219: `DVDRST`. -/
def Obligations.DvdrstCommand : Prop :=
  ∀ s : State, ∃ t, exec .dvdrst s = .next t ∧ Leaves s t .computed .none [] 0 0 0 ∧ t.q = s.q ∧
    t.dvd.last = none ∧ t.dvd.cache = []

/-- R232: `QBIN2BCD`, its tests in order, and every byte of its output. -/
def Obligations.Qbin2bcdCommand : Prop :=
  ∀ s : State, ∃ t, exec .qbin2bcd s = .next t ∧ RangeErrors s t s.len.toNat ∧
    (RangesFit s s.len.toNat →
      let bad : Prop := ∃ k, 1 ≤ k ∧ k ≤ 9 ∧ 99 < (byteAt s.input k).toNat
      (s.len.toNat ≠ 12 → Ends s t .unchanged .length s.input 0 0 0) ∧
      (s.len.toNat = 12 → bad → Ends s t .unchanged .range s.input 0 0 0) ∧
      (s.len.toNat = 12 → ¬ bad → ∃ out : Bytes, Ends s t .transformed .none out 0 0 0 ∧ out.length = 12 ∧
        ∀ k, k < 12 → byteAt out k =
          if 1 ≤ k ∧ k ≤ 9 then toBcd (byteAt s.input k).toNat else byteAt s.input k))

/-- R233: `QBCD2BIN`, its tests in order, and every byte of its output. -/
def Obligations.Qbcd2binCommand : Prop :=
  ∀ s : State, ∃ t, exec .qbcd2bin s = .next t ∧ RangeErrors s t s.len.toNat ∧
    (RangesFit s s.len.toNat →
      let bad : Prop := ∃ k, 1 ≤ k ∧ k ≤ 9 ∧ (9 < (hi4 (byteAt s.input k)).toNat ∨ 9 < (lo4 (byteAt s.input k)).toNat)
      (s.len.toNat ≠ 12 → Ends s t .unchanged .length s.input 0 0 0) ∧
      (s.len.toNat = 12 → bad → Ends s t .unchanged .range s.input 0 0 0) ∧
      (s.len.toNat = 12 → ¬ bad → ∃ out : Bytes, Ends s t .transformed .none out 0 0 0 ∧ out.length = 12 ∧
        ∀ k, k < 12 → byteAt out k =
          if 1 ≤ k ∧ k ≤ 9 then BitVec.ofNat 8 (fromBcd (byteAt s.input k)) else byteAt s.input k))

/-- R236, R235, R238: `Q2RAW`, its test, and every bit of its output: channel P in bit 7, channel Q in bit 6, the others
clear. -/
def Obligations.Q2rawCommand : Prop :=
  ∀ s : State, ∃ t, exec .q2raw s = .next t ∧ RangeErrors s t (if s.len.toNat % 16 = 0 then 6 * s.len.toNat else s.len.toNat) ∧
    (RangesFit s (if s.len.toNat % 16 = 0 then 6 * s.len.toNat else s.len.toNat) →
      (s.len.toNat % 16 ≠ 0 → Ends s t .unchanged .length s.input 0 0 0) ∧
      (s.len.toNat % 16 = 0 → ∃ out : Bytes,
        Ends s t .transformed .none out (BitVec.ofNat 32 (s.len.toNat / 16)) 0 0 ∧ out.length = 6 * s.len.toNat ∧
        ∀ r g k, r < s.len.toNat / 16 → g < 12 → k < 8 →
          (byteAt out (96 * r + 8 * g + k)).getLsbD 7 = (byteAt s.input (16 * r + 15)).getLsbD 7 ∧
          (byteAt out (96 * r + 8 * g + k)).getLsbD 6 = (byteAt s.input (16 * r + g)).getLsbD (7 - k) ∧
          ∀ b, b < 6 → (byteAt out (96 * r + 8 * g + k)).getLsbD b = false))

/-- R240, R238: `INTLV`, its test, and every bit of its output. -/
def Obligations.IntlvCommand : Prop :=
  ∀ s : State, ∃ t, exec .intlv s = .next t ∧ RangeErrors s t s.len.toNat ∧
    (RangesFit s s.len.toNat →
      (s.len.toNat % 96 ≠ 0 → Ends s t .unchanged .length s.input 0 0 0) ∧
      (s.len.toNat % 96 = 0 → ∃ out : Bytes,
        Ends s t .transformed .none out (BitVec.ofNat 32 (s.len.toNat / 96)) 0 0 ∧ out.length = s.len.toNat ∧
        ∀ r g c k, r < s.len.toNat / 96 → g < 12 → c < 8 → k < 8 →
          (byteAt out (96 * r + 8 * g + k)).getLsbD (7 - c) = (byteAt s.input (96 * r + 12 * c + g)).getLsbD (7 - k)))

/-- R241, R238: `DEINTLV`, its test, and every bit of its output. -/
def Obligations.DeintlvCommand : Prop :=
  ∀ s : State, ∃ t, exec .deintlv s = .next t ∧ RangeErrors s t s.len.toNat ∧
    (RangesFit s s.len.toNat →
      (s.len.toNat % 96 ≠ 0 → Ends s t .unchanged .length s.input 0 0 0) ∧
      (s.len.toNat % 96 = 0 → ∃ out : Bytes,
        Ends s t .transformed .none out (BitVec.ofNat 32 (s.len.toNat / 96)) 0 0 ∧ out.length = s.len.toNat ∧
        ∀ r g c k, r < s.len.toNat / 96 → g < 12 → c < 8 → k < 8 →
          (byteAt out (96 * r + 12 * c + g)).getLsbD (7 - k) = (byteAt s.input (96 * r + 8 * g + k)).getLsbD (7 - c)))

/-- R264, R311: `QPARSE`: the record of the block, or a cleared one. -/
def Obligations.QparseCommand : Prop :=
  ∀ (qf : QFlags) (s : State), ∃ t, exec (.qparse qf) s = .next t ∧ RangeErrors s t 0 ∧
    (RangesFit s 0 →
      (s.len.toNat ≠ 12 → Leaves s t .unchanged .length [] 0 0 0 ∧ t.dvd = s.dvd ∧ t.q = ⟨0, 0, 0, 0, 0, 0, 0, 0⟩) ∧
      (s.len.toNat = 12 → Leaves s t .computed .none [] t.q.q0 0 0 ∧ t.dvd = s.dvd ∧
        t.q = qRecord s.cfg qf s.lba.toInt s.input))

/-! ### The Q record -/

/-- 46_q_parser.md section 2: every field of `Q0` to `Q4` but `TXT_VALID` (bit 24 of `Q0`), which QRecordText says; the
spec marks as general knowledge which nibble of byte 0 is `CONTROL` and which `ADR` (R253) and the byte order of the
stored CRC (R252) (log 12). -/
def Obligations.QRecordFields : Prop :=
  ∀ (c : Config) (qf : QFlags) (l : Int) (b : Bytes),
    let q := qRecord c qf l b
    let time : Int := l + 150
    let valid : Bool := decide (0 ≤ time) && decide (time ≤ 449999)
    q.q0.getLsbD 0 = decide (qCrc c (b.take 10) = u16be (byteAt b 10) (byteAt b 11)) ∧
    q.q0.getLsbD 1 = decide (l < 0) ∧ q.q0.getLsbD 2 = valid ∧
    q.q0.getLsbD 3 = (List.range 9).all (fun k => okv qf.bcd b (k + 1)) ∧
    q.q0.extractLsb' 4 4 = (byteAt b 0).extractLsb' 0 4 ∧ q.q0.extractLsb' 8 4 = (byteAt b 0).extractLsb' 4 4 ∧
    q.q0.getLsbD 12 = qf.bcd ∧ q.q0.getLsbD 13 = qf.corruptedPause ∧ q.q0.getLsbD 14 = qf.pause ∧
    q.q0.getLsbD 15 = qf.rwEmpty ∧ q.q0.extractLsb' 16 8 = (qClass l qf.bcd b).code ∧ q.q0.extractLsb' 25 7 = 0 ∧
    q.q1.extractLsb' 24 8 = 0 ∧
    (valid = true → (q.q1.extractLsb' 16 8).toNat = time.toNat / 4500 ∧
      (q.q1.extractLsb' 8 8).toNat = time.toNat / 75 % 60 ∧ (q.q1.extractLsb' 0 8).toNat = time.toNat % 75) ∧
    (valid = false → q.q1 = 0) ∧
    (∀ k, k < 4 → q.q2.extractLsb' (8 * k) 8 = binv qf.bcd b (k + 1) ∧
      q.q3.extractLsb' (8 * k) 8 = binv qf.bcd b (k + 5)) ∧
    q.q4.extractLsb' 0 8 = binv qf.bcd b 9 ∧ (∀ k, 1 ≤ k → k ≤ 9 → q.q4.getLsbD (7 + k) = okv qf.bcd b k) ∧
    q.q4.extractLsb' 17 15 = 0

/-- R255: the two views of every byte of a block and its validity bit, and `NUM_VALID`. -/
def Obligations.QNumericViews : Prop :=
  (∀ (bcd : Bool) (b : Bytes), numValid bcd b = true ↔ ∀ k, 1 ≤ k → k ≤ 9 → okv bcd b k = true) ∧
  ∀ (b : Bytes) (k : Nat),
    let v := byteAt b k
    bcdv true b k = v ∧
    ((hi4 v).toNat ≤ 9 → (lo4 v).toNat ≤ 9 →
      (binv true b k).toNat = (hi4 v).toNat * 10 + (lo4 v).toNat ∧ okv true b k = true) ∧
    (9 < (hi4 v).toNat ∨ 9 < (lo4 v).toNat → binv true b k = v ∧ okv true b k = false) ∧
    binv false b k = v ∧ okv false b k = true ∧
    (v.toNat ≤ 99 → (bcdv false b k).toNat = (v.toNat / 10) * 16 + v.toNat % 10) ∧
    (99 < v.toNat → bcdv false b k = v)

/-- 46_q_parser.md section 2: the class code of a block, by area, `ADR` and `POINT`, the rows of R256 in their order; the
spec marks the `POINT` and `ADR` values as general knowledge (log 12). -/
def Obligations.QRecordClass : Prop :=
  ∀ (l : Int) (bcd : Bool) (b : Bytes),
    let adr : Nat := (lo4 (byteAt b 0)).toNat
    let point : Nat := (bcdv bcd b 2).toNat
    let n : Nat := (binv bcd b 2).toNat
    let code : Nat := (qClass l bcd b).code.toNat
    (0 ≤ l → code = if adr = 1 then 0x20 else if adr = 2 then 0x21 else if adr = 3 then 0x22 else 0x00) ∧
    (l < 0 → (adr = 1 ∨ adr = 4) → code =
      if point = 0xA0 then 0x11 else if point = 0xA1 then 0x12 else if point = 0xA2 then 0x13
      else if okv bcd b 2 = true ∧ 1 ≤ n ∧ n ≤ 99 then 0x10 else 0x00) ∧
    (l < 0 → adr = 5 → code =
      if 0xB1 ≤ point ∧ point ≤ 0xB4 then 0x15 else if point = 0xC0 ∨ point = 0xC1 then 0x16
      else if okv bcd b 2 = true ∧ 1 ≤ n ∧ n ≤ 40 then 0x14 else 0x00) ∧
    (l < 0 → adr ≠ 1 → adr ≠ 4 → adr ≠ 5 → code = 0x00)

/-- 46_q_parser.md sections 2 and 3: `TXT_VALID` and `Q5` to `Q7` of a catalog number, of an ISRC, and of every other
class; the spec marks the places of the digits and of the codes as general knowledge (log 12). -/
def Obligations.QRecordText : Prop :=
  ∀ (c : Config) (qf : QFlags) (l : Int) (b : Bytes),
    let q := qRecord c qf l b
    let v : Nat → Byte := bcdv qf.bcd b
    (qClass l qf.bcd b = .pgMcn →
      q.q5 = u32be (v 1) (v 2) (v 3) (v 4) ∧ q.q6 = u32be (v 5) (v 6) (v 7 &&& 0xF0) 0x00 ∧ q.q7 = 0 ∧
      (q.q0.getLsbD 24 = true ↔ (∀ k, 1 ≤ k → k ≤ 7 → (hi4 (v k)).toNat ≤ 9) ∧
        ∀ k, 1 ≤ k → k ≤ 6 → (lo4 (v k)).toNat ≤ 9)) ∧
    (qClass l qf.bcd b = .pgIsrc →
      let code : Nat → Byte := fun k =>
        if k = 1 then v 1 >>> 2 else if k = 2 then ((v 1 &&& 0x03) <<< 4) ||| (v 2 >>> 4)
        else if k = 3 then ((v 2 &&& 0x0F) <<< 2) ||| (v 3 >>> 6) else if k = 4 then v 3 &&& 0x3F else v 4 >>> 2
      let digit : Nat → BitVec 4 := fun k => if k % 2 = 0 then hi4 (v (k / 2 + 2)) else lo4 (v (k / 2 + 2))
      let ch : Nat → Byte := fun k =>
        if k ≤ 5 then isrcChar c ((code k).setWidth 6)
        else if (digit k).toNat ≤ 9 then BitVec.ofNat 8 (0x30 + (digit k).toNat) else 0
      q.q5 = u32be (ch 1) (ch 2) (ch 3) (ch 4) ∧ q.q6 = u32be (ch 5) (ch 6) (ch 7) (ch 8) ∧
      q.q7 = u32be (ch 9) (ch 10) (ch 11) (ch 12) ∧
      (q.q0.getLsbD 24 = true ↔ ∀ k, 1 ≤ k → k ≤ 12 → ch k ≠ 0)) ∧
    (qClass l qf.bcd b ≠ .pgMcn → qClass l qf.bcd b ≠ .pgIsrc →
      q.q0.getLsbD 24 = false ∧ q.q5 = 0 ∧ q.q6 = 0 ∧ q.q7 = 0)

/-! ### Tables, conversions and the CD EDC -/

/-- 40_tables.md section 1: the forward table, and the backward table as division by `alpha + 1`; the latter is the
reading of 90_conflicts.md C4 (log 13), which the spec marks as general knowledge (log 12). -/
def Obligations.GfTables : Prop :=
  (∀ i : Byte, (gfF i).toNat = ((i.toNat <<< 1) ^^^ (if i.getLsbD 7 then 0x11D else 0)) % 256) ∧
  (∀ i : Byte, gfB (i ^^^ gfF i) = i) ∧ (∀ i : Byte, i ^^^ gfF i = gmul 0x03 i) ∧
  (∀ y : Byte, gmul 0x03 (gfB y) = y) ∧
  gfB 0x00 = 0x00 ∧ gfB 0x03 = 0x01 ∧ gfB 0x01 = 0xF4 ∧ gfB 0x02 = 0xF5 ∧ gfB 0xFF = 0x55

/-- R120, R123: the product is the one of a field with 256 elements, of which `alpha` generates the non-zero ones, and
the quotient and the inverse undo it. -/
def Obligations.GfIsAField : Prop :=
  (∀ a b : Byte, gmul a b = gmul b a) ∧ (∀ a b c : Byte, gmul (gmul a b) c = gmul a (gmul b c)) ∧
  (∀ a b c : Byte, gmul a (b ^^^ c) = gmul a b ^^^ gmul a c) ∧ (∀ a : Byte, gmul a 1 = a) ∧
  (∀ a : Byte, gmul 0x02 a = gfF a) ∧ (∀ a : Byte, a ≠ 0 → gmul a (ginv a) = 1) ∧
  (∀ a b : Byte, b ≠ 0 → gmul (gdiv a b) b = a) ∧
  (∀ j k : Nat, gexp (j + k) = gmul (gexp j) (gexp k)) ∧ gexp 255 = 1 ∧
  (∀ b : Byte, b ≠ 0 → glog b < 255 ∧ gexp (glog b) = b)

/-- R128, R129: `to_bcd`, `from_bcd` and `msf` on their domains. -/
def Obligations.BcdAndMsf : Prop :=
  (∀ v : Nat, v ≤ 99 → (toBcd v).toNat = ((v / 10) <<< 4) ||| (v % 10)) ∧
  (∀ v : Nat, v ≤ 99 → (hi4 (toBcd v)).toNat ≤ 9 ∧ (lo4 (toBcd v)).toNat ≤ 9 ∧ fromBcd (toBcd v) = v) ∧
  (∀ b : Byte, (hi4 b).toNat ≤ 9 → (lo4 b).toNat ≤ 9 →
    fromBcd b = (hi4 b).toNat * 10 + (lo4 b).toNat ∧ fromBcd b ≤ 99 ∧ toBcd (fromBcd b) = b) ∧
  (∀ t : Nat, t ≤ 449999 →
    (msf t).minute = t / 4500 ∧ (msf t).second = (t / 75) % 60 ∧ (msf t).frame = t % 75 ∧
    (msf t).minute ≤ 99 ∧ (msf t).second ≤ 59 ∧ (msf t).frame ≤ 74 ∧
    t = ((msf t).minute * 60 + (msf t).second) * 75 + (msf t).frame)

/-- R124, R125, R126: the CD EDC: chaining, linearity, zeros, and the bit-serial form of R124. -/
def Obligations.EdcLaws : Prop :=
  (∀ (s : Word) (a b : Bytes), edcCd s (a ++ b) = edcCd (edcCd s a) b) ∧
  (∀ (s t : Word) (a b : Bytes), a.length = b.length →
    edcCd (s ^^^ t) (List.zipWith (· ^^^ ·) a b) = edcCd s a ^^^ edcCd t b) ∧
  (∀ n : Nat, edcCd 0 (List.replicate n 0) = 0) ∧
  (∀ (s : Word) (b : Byte), edcCd s [b] =
    times 8 (fun e : Word => (e >>> 1) ^^^ (if e.getLsbD 0 then 0xD8018001#32 else 0)) (s ^^^ b.setWidth 32)) ∧
  edcCd 0 [0x31, 0x32, 0x33, 0x34, 0x35, 0x36, 0x37, 0x38, 0x39] = 0x6EC2EDC4

/-! ### The P/Q code -/

/-- R172, R148: the syndrome pair of any codeword is `(c(1), c(alpha))`. -/
def Obligations.SyndromesAreCheckEquations : Prop :=
  ∀ cs : Bytes, syndromes cs =
    ((List.range cs.length).foldl (fun acc k => acc ^^^ byteAt cs k) 0,
     (List.range cs.length).foldl (fun acc k => acc ^^^ gmul (gexp (cs.length - 1 - k)) (byteAt cs k)) 0)

/-- R172 to R175: one wrong symbol in a codeword of at most 255 symbols whose syndromes are zero is located, and its
error value is the first syndrome. -/
def Obligations.OneWrongSymbolIsLocated : Prop :=
  ∀ (cs : Bytes) (k : Nat) (e : Byte), cs.length ≤ 255 → k < cs.length → e ≠ 0 → syndromes cs = (0, 0) →
    let damaged := cs.set k (byteAt cs k ^^^ e)
    syndromes damaged = (e, gmul (gexp (cs.length - 1 - k)) e) ∧
    classify (syndromes damaged) cs.length = .correctable k e

/-- R175, R177: the three verdicts of a syndrome pair in a codeword of at most 45 symbols: clean exactly when both are
zero, correctable at `k` exactly when both are non-zero and their quotient is the locator of `k`. Then what
`fix_codeword` does with each verdict on a codeword of any region: nothing; the codeword given up; the located symbol
exclusive-ored with the error value, or the codeword given up where that symbol is a locked header byte. -/
def Obligations.VerdictOfSyndromes : Prop :=
  (∀ (s0 s1 : Byte) (n : Nat), n ≤ 45 →
    (classify (s0, s1) n = .clean ↔ s0 = 0 ∧ s1 = 0) ∧
    (∀ (k : Nat) (e : Byte), classify (s0, s1) n = .correctable k e ↔
      s0 ≠ 0 ∧ s1 ≠ 0 ∧ k < n ∧ e = s0 ∧ s1 = gmul (gexp (n - 1 - k)) s0)) ∧
  ∀ (lock : Bool) (st : FixState) (pos : List Nat),
    let verdict := classify (syndromes (pos.map (byteAt st.region))) pos.length
    let after := fixCodeword lock st pos
    let givenUp : FixState := { st with bad := st.bad + 1 }
    (verdict = .clean → after = st) ∧ (verdict = .uncorrectable → after = givenUp) ∧
    ∀ (k : Nat) (e : Byte), verdict = .correctable k e → ∃ p : Nat, pos[k]? = some p ∧
      (lock = true → p < 4 → after = givenUp) ∧
      (lock = false ∨ 4 ≤ p → after.fixed = st.fixed + 1 ∧ after.bad = st.bad ∧
        after.region.length = st.region.length ∧ ∀ i, i < st.region.length → byteAt after.region i =
          if i = p then byteAt st.region i ^^^ e else byteAt st.region i)

/-- R152 (a), R148: after `RECC` with Mode1 or Mode2Form1, an `ECCSYN` of the bytes it wrote reports no dirty codeword
and 276 zero bytes. -/
def Obligations.ReccMakesCleanCodewords : Prop :=
  ∀ (tt : TrackType) (s t u : State), tt = .mode1 ∨ tt = .mode2Form1 → 2352 ≤ s.len.toNat →
    RangesFit s s.len.toNat → exec (.recc tt) s = .next t →
    u.cfg = t.cfg → u.mem = t.mem → u.src = t.dst → u.len = t.len → RangesFit u 276 →
    ∃ v, exec (.eccsyn tt) u = .next v ∧ Ends u v .computed .none (List.replicate 276 0) 0 0 0

/-- R152 (b), (c): the EDC over the covered range and its field is 0, and a second `RECC` writes the same bytes. -/
def Obligations.ReccIsIdempotent : Prop :=
  ∀ (tt : TrackType) (s t u : State) (lo hi : Nat), edcRange tt = some (lo, hi) → 2352 ≤ s.len.toNat →
    RangesFit s s.len.toNat → exec (.recc tt) s = .next t →
    u.cfg = t.cfg → u.mem = t.mem → u.src = t.dst → u.len = t.len → RangesFit u u.len.toNat →
    edcCd 0 (slice u.input lo (hi + 4)) = 0 ∧
    ∃ v, exec (.recc tt) u = .next v ∧ Ends u v .transformed .none u.input t.res0 0 0

/-- R181 (b): an input that differs in one byte of the region from a sector all of whose codewords are clean is repaired
by one `ECCFIX`; for Mode2Form1 the byte is outside the header. -/
def Obligations.EccfixRepairsOneByte : Prop :=
  ∀ (tt : TrackType) (s : State) (g : Bytes) (k : Nat) (e : Byte), tt = .mode1 ∨ tt = .mode2Form1 →
    RangesFit s s.len.toNat → 2352 ≤ s.len.toNat → g.length = s.len.toNat →
    (∀ pos ∈ allPositions, syndromes (symbols (eccRegion tt g) pos) = (0, 0)) →
    (if tt = .mode2Form1 then 4 else 0) ≤ k → k < 2340 → e ≠ 0 →
    s.input = g.set (0x00C + k) (byteAt g (0x00C + k) ^^^ e) →
    ∃ t, exec (.eccfix tt) s = .next t ∧ Ends s t .transformed .none g 1 0 0

/-! ### The scramblers -/

/-- R194 (a), (d): for every admissible table, `CDSCR` of the bytes `CDSCR` wrote restores the input. -/
def Obligations.CdscrIsSelfInverse : Prop :=
  ∀ s t u : State, s.cfg.scrambleOk = true → 2352 ≤ s.len.toNat → RangesFit s s.len.toNat →
    s.input.take 12 = sync → exec .cdscr s = .next t →
    u.cfg = t.cfg → u.mem = t.mem → u.src = t.dst → u.len = t.len → RangesFit u u.len.toNat →
    statusOutcome t.status = 2 ∧ ∃ v, exec .cdscr u = .next v ∧ Ends u v .transformed .none s.input 0 0 0

/-- R201 to R204: one tick of the LFSR, one keystream byte (eight output bits, the first in bit 7), the keystream: its
length, its bytes, its injectivity, the zero seed; and applying it twice. -/
def Obligations.KeystreamLaws : Prop :=
  (∀ st : Seed, lfsrTick st = ((st <<< 1) ||| (if st.getLsbD 14 != st.getLsbD 10 then 1 else 0), st.getLsbD 14)) ∧
  (∀ st : Seed, (lfsrByte st).1 = times 8 (fun y => (lfsrTick y).1) st ∧ (lfsrByte st).2 = st.extractLsb' 7 8 ∧
    ∀ b, b < 8 → (lfsrByte st).2.getLsbD (7 - b) = (lfsrTick (times b (fun y => (lfsrTick y).1) st)).2) ∧
  (∀ x : Seed, (keystream x).length = 2048) ∧
  (∀ (x : Seed) (k : Nat), k < 2048 → byteAt (keystream x) k = (lfsrByte (times k (fun st => (lfsrByte st).1) x)).2) ∧
  keystream 0 = List.replicate 2048 0 ∧ (∀ x y : Seed, keystream x = keystream y → x = y) ∧
  (∀ (sec : Bytes) (x : Seed), sec.length = 2064 →
    dvdApply (dvdApply sec (keystream x)) (keystream x) = sec)

/-- R206, R208, R210: a sector verifies with a seed exactly when `DVD_EDC` of its unscrambled first 2060 bytes is the
number its last four bytes spell; `search` answers with the first candidate that verifies, its number in the sequence and
its stage, and finds none exactly when no seed at all verifies, after all the candidates. -/
def Obligations.SearchIsFirstVerifying : Prop :=
  ∀ (c : Config) (d : DvdInstance) (sec : Bytes), c.ecmaSeedsOk = true →
    (sec.length = 2064 → ∀ x : Seed, verify c sec x = true ↔
      (dvdEdc c ((List.range 2060).map fun k =>
        if 12 ≤ k then byteAt sec k ^^^ byteAt (keystream x) (k - 12) else byteAt sec k)).toNat =
      (byteAt sec 2060).toNat * 2 ^ 24 + (byteAt sec 2061).toNat * 2 ^ 16 + (byteAt sec 2062).toNat * 2 ^ 8 +
        (byteAt sec 2063).toNat) ∧
    (∀ x n g, search c d sec = .found x n g →
      1 ≤ n ∧ (candidates c d)[n - 1]? = some (g, x) ∧ verify c sec x = true ∧
      ∀ k, k < n - 1 → ∀ p, (candidates c d)[k]? = some p → verify c sec p.2 = false) ∧
    (∀ n, search c d sec = .notFound n →
      n = (if d.last.isSome then 1 else 0) + d.cache.length + 16 + 32768 ∧ ∀ x : Seed, verify c sec x = false) ∧
    ((∃ x : Seed, verify c sec x = true) → ∃ x n g, search c d sec = .found x n g)

/-- R208, R209: the candidate sequence, stage by stage; the cached stage is the enumeration that `CACHEDAT` shows, a
permutation of the cache, and the cache itself in the default order. -/
def Obligations.CandidateSequence : Prop :=
  ∀ (c : Config) (d : DvdInstance),
    let cached : List Seed := cacheOrder c d.cache
    (candidates c d).map Prod.snd = d.last.toList ++ cached ++ ecmaSeeds c ++ (List.range 32768).map (BitVec.ofNat 15) ∧
    (candidates c d).map (fun p => p.1.number) =
      d.last.toList.map (fun _ => 1) ++ cached.map (fun _ => 2) ++ (ecmaSeeds c).map (fun _ => 3) ++
        List.replicate 32768 4 ∧
    cached.Perm d.cache ∧ (c.cacheOrder = .standard → cached = d.cache)

/-- R220 (a): a plain sector with a right EDC, scrambled with any seed, is found to have a seed, and where that seed is
the one it was scrambled with, `DVDSCR` restores the plain sector. -/
def Obligations.DvdscrUndoesScrambling : Prop :=
  ∀ (s : State) (plain : Bytes) (x : Seed), RangesFit s s.len.toNat → s.len.toNat = 2064 →
    plain.length = 2064 → dvdEdc s.cfg (plain.take 2060) = dvdEdcField plain →
    s.input = dvdApply plain (keystream x) →
    verify s.cfg s.input x = true ∧ ∃ t, exec .dvdscr s = .next t ∧ statusOutcome t.status = 2 ∧
      (t.res0 = x.setWidth 32 → MemHolds t s.dst.toNat plain)

/-- R213, R210: a `DVDSEED` that found a seed, repeated on the same input, finds it at its first trial, from the hint. -/
def Obligations.DvdseedAgainUsesTheHint : Prop :=
  ∀ s t u : State, RangesFit s 2048 → s.len.toNat = 2064 → exec .dvdseed s = .next t →
    statusOutcome t.status = 3 → u.cfg = s.cfg → u.dvd = t.dvd → u.len = s.len → u.input = s.input → RangesFit u 2048 →
    ∃ v, exec .dvdseed u = .next v ∧ v.res0 = t.res0 ∧ v.res1 = 1 ∧ v.res2 = 1 ∧ v.dvd = t.dvd

/-! ### The subchannel codec -/

/-- R234: `QBIN2BCD` then `QBCD2BIN` restores a block of values up to 99, and the other way a block of digit pairs. -/
def Obligations.BcdRoundTrip : Prop :=
  ∀ s t u : State, s.len.toNat = 12 → RangesFit s 12 → u.cfg = t.cfg → u.mem = t.mem → u.src = t.dst → u.len = t.len →
    RangesFit u 12 →
    ((∀ k, 1 ≤ k → k ≤ 9 → (byteAt s.input k).toNat ≤ 99) → exec .qbin2bcd s = .next t →
      ∃ v, exec .qbcd2bin u = .next v ∧ Ends u v .transformed .none s.input 0 0 0) ∧
    ((∀ k, 1 ≤ k → k ≤ 9 → (hi4 (byteAt s.input k)).toNat ≤ 9 ∧ (lo4 (byteAt s.input k)).toNat ≤ 9) →
      exec .qbcd2bin s = .next t →
      ∃ v, exec .qbin2bcd u = .next v ∧ Ends u v .transformed .none s.input 0 0 0)

/-- R242 (a): `DEINTLV` of the bytes `INTLV` wrote restores the input, and the other way round. -/
def Obligations.InterleaverRoundTrip : Prop :=
  ∀ s t u : State, s.len.toNat % 96 = 0 → RangesFit s s.len.toNat → u.cfg = t.cfg → u.mem = t.mem → u.src = t.dst →
    u.len = t.len → RangesFit u u.len.toNat →
    (exec .intlv s = .next t → ∃ v, exec .deintlv u = .next v ∧
      Ends u v .transformed .none s.input (BitVec.ofNat 32 (s.len.toNat / 96)) 0 0) ∧
    (exec .deintlv s = .next t → ∃ v, exec .intlv u = .next v ∧
      Ends u v .transformed .none s.input (BitVec.ofNat 32 (s.len.toNat / 96)) 0 0)

end
end

