-- ==== Sys2Proof/Laws/Bytes.lean ====
section
/-! SUPPORT. The laws of byte sequences: lengths and single bytes of ranges, assignments to ranges and exclusive-or. -/

namespace Sys2Proof.Machine

@[simp] theorem byteAt_nil (i : Nat) : byteAt [] i = 0 := rfl

theorem byteAt_append (a b : Bytes) (i : Nat) :
    byteAt (a ++ b) i = if i < a.length then byteAt a i else byteAt b (i - a.length) := by
  simp only [byteAt, List.getD_eq_getElem?_getD, List.getElem?_append]
  split_ifs <;> rfl

theorem byteAt_take (b : Bytes) (n i : Nat) : byteAt (b.take n) i = if i < n then byteAt b i else 0 := by
  simp only [byteAt, List.getD_eq_getElem?_getD, List.getElem?_take]
  split_ifs <;> rfl

theorem byteAt_drop (b : Bytes) (n i : Nat) : byteAt (b.drop n) i = byteAt b (n + i) := by
  simp [byteAt, List.getD_eq_getElem?_getD]

@[simp] theorem length_slice (b : Bytes) (lo hi : Nat) : (slice b lo hi).length = min (hi - lo) (b.length - lo) := by
  simp [slice]

theorem byteAt_slice (b : Bytes) (lo hi i : Nat) :
    byteAt (slice b lo hi) i = if i < hi - lo then byteAt b (lo + i) else 0 := by
  simp [slice, byteAt_take, byteAt_drop]

/-- An assignment to a range inside the sequence keeps its length. -/
theorem length_splice (b : Bytes) (lo : Nat) (v : Bytes) (h : lo + v.length ≤ b.length) :
    (splice b lo v).length = b.length := by
  simp [splice]; omega

/-- After `buf[lo..lo+len(v)) = v`: the bytes of `v` in the range, every other byte as before. -/
theorem byteAt_splice (b : Bytes) (lo : Nat) (v : Bytes) (i : Nat) (h : lo + v.length ≤ b.length) :
    byteAt (splice b lo v) i = if lo ≤ i ∧ i < lo + v.length then byteAt v (i - lo) else byteAt b i := by
  have hlo : (b.take lo).length = lo := by simp; omega
  simp only [splice, byteAt_append, List.length_append, hlo, byteAt_take, byteAt_drop]
  by_cases h1 : i < lo
  · have : ¬ (lo ≤ i ∧ i < lo + v.length) := by omega
    simp [h1, this]; omega
  · by_cases h2 : i < lo + v.length
    · simp [h1, h2, not_lt.mp h1]
    · have h3 : lo + v.length + (i - (lo + v.length)) = i := by omega
      simp [h2, h3]

@[simp] theorem length_xorPrefix (b k : Bytes) : (xorPrefix b k).length = b.length := by
  induction b generalizing k with
  | nil => cases k <;> rfl
  | cons x b ih => cases k with
    | nil => rfl
    | cons y k => simp [xorPrefix, ih]

theorem byteAt_xorPrefix (b k : Bytes) (i : Nat) (h : i < b.length) :
    byteAt (xorPrefix b k) i = byteAt b i ^^^ byteAt k i := by
  induction b generalizing k i with
  | nil => simp at h
  | cons x b ih => cases k with
    | nil => simp [xorPrefix, byteAt]
    | cons y k =>
      cases i with
      | zero => rfl
      | succ i => simpa [xorPrefix, byteAt] using ih k i (by simpa using h)

/-- Exclusive-or with one keystream twice restores the sequence. -/
theorem xorPrefix_twice (b k : Bytes) : xorPrefix (xorPrefix b k) k = b := by
  induction b generalizing k with
  | nil => cases k <;> rfl
  | cons x b ih => cases k with
    | nil => rfl
    | cons y k => simp [xorPrefix, ih]

@[simp] theorem length_u32le (v : Word) : (u32le v).length = 4 := rfl

end Sys2Proof.Machine
end

