-- ==== Sys2Proof/Laws/Memory.lean ====
section
/-! SUPPORT. The laws of memory: a read after a write, and that every memory operation keeps the canonical form. -/

namespace Sys2Proof.Machine

@[simp] theorem Memory.read_nil (a : Nat) : Memory.read [] a = Memory.unlisted := rfl

@[simp] theorem Memory.read_cons (b : Nat) (v : Byte) (m : Memory) (a : Nat) :
    Memory.read ((b, v) :: m) a = if a = b then v else Memory.read m a := rfl

theorem Memory.read_put (m : Memory) (a : Nat) (v : Byte) (b : Nat) :
    Memory.read (Memory.put a v m) b = if b = a then v else Memory.read m b := by
  induction m with
  | nil => simp [Memory.put]
  | cons cell m ih =>
    obtain ⟨c, w⟩ := cell
    simp only [Memory.put]
    split_ifs with h1 h2 <;> simp only [Memory.read_cons, ih] <;> grind

theorem Memory.read_erase (m : Memory) (a b : Nat) :
    Memory.read (Memory.erase a m) b = if b = a then Memory.unlisted else Memory.read m b := by
  induction m with
  | nil => simp [Memory.erase]
  | cons cell m ih =>
    obtain ⟨c, w⟩ := cell
    simp only [Memory.erase, List.filter_cons] at ih ⊢
    by_cases hc : c = a <;> simp [hc, ih] <;> grind

/-- A read after a write: the byte written at its address, every other byte as before (R63). -/
theorem Memory.read_write (m : Memory) (a : Nat) (v : Byte) (b : Nat) :
    Memory.read (Memory.write m a v) b = if b = a then v else Memory.read m b := by
  unfold Memory.write
  split_ifs with h1 h2 <;> simp [Memory.read_put, Memory.read_erase, *]

@[simp] theorem Memory.length_readBytes (m : Memory) (a n : Nat) : (Memory.readBytes m a n).length = n := by
  simp [Memory.readBytes]

theorem Memory.byteAt_readBytes (m : Memory) (a n i : Nat) (h : i < n) :
    byteAt (Memory.readBytes m a n) i = Memory.read m (a + i) := by
  simp [Memory.readBytes, byteAt, h]

/-- A read after MemWrite: the bytes written in their range, every other byte as before (R63). -/
theorem Memory.read_writeBytes (m : Memory) (a : Nat) (vs : Bytes) (b : Nat) :
    Memory.read (Memory.writeBytes m a vs) b =
      if a ≤ b ∧ b < a + vs.length then byteAt vs (b - a) else Memory.read m b := by
  induction vs generalizing m a with
  | nil => simp [Memory.writeBytes]
  | cons v vs ih =>
    simp only [Memory.writeBytes, ih, Memory.read_write, List.length_cons]
    by_cases h1 : b = a
    · subst h1; simp [byteAt]
    · by_cases h2 : a + 1 ≤ b ∧ b < a + 1 + vs.length
      · have h3 : a ≤ b ∧ b < a + (vs.length + 1) := by omega
        have h4 : b - a = (b - (a + 1)) + 1 := by omega
        simp [h2, h3, h4, byteAt]
      · have h3 : ¬ (a ≤ b ∧ b < a + (vs.length + 1)) := by omega
        rw [if_neg h2, if_neg h3, if_neg h1]

@[simp] theorem Memory.writeBytes_nil (m : Memory) (a : Nat) : Memory.writeBytes m a [] = m := rfl

/-- MemRead of the range MemWrite wrote (R62, R63). -/
theorem Memory.readBytes_writeBytes (m : Memory) (a : Nat) (vs : Bytes) :
    Memory.readBytes (Memory.writeBytes m a vs) a vs.length = vs := by
  apply List.ext_getElem (by simp)
  intro i h1 h2
  simp [Memory.readBytes, Memory.read_writeBytes, byteAt, h2]

theorem Memory.wfFrom_mono {size lo lo' : Nat} {m : Memory} (h : lo' ≤ lo) (hw : Memory.wfFrom size lo m = true) :
    Memory.wfFrom size lo' m = true := by
  cases m with
  | nil => rfl
  | cons cell m =>
    obtain ⟨c, w⟩ := cell
    simp only [Memory.wfFrom, Bool.and_eq_true, decide_eq_true_eq] at hw ⊢
    exact ⟨⟨⟨le_trans h hw.1.1.1, hw.1.1.2⟩, hw.1.2⟩, hw.2⟩

theorem Memory.wfFrom_put {size lo a : Nat} {v : Byte} {m : Memory} (hw : Memory.wfFrom size lo m = true)
    (hlo : lo ≤ a) (ha : a < size) (hv : v ≠ Memory.unlisted) : Memory.wfFrom size lo (Memory.put a v m) = true := by
  induction m generalizing lo with
  | nil => simp [Memory.put, Memory.wfFrom, hlo, ha, hv]
  | cons cell m ih =>
    obtain ⟨c, w⟩ := cell
    simp only [Memory.wfFrom, Bool.and_eq_true, decide_eq_true_eq] at hw
    obtain ⟨⟨⟨h1, h2⟩, h3⟩, h4⟩ := hw
    simp only [Memory.put]
    split_ifs with hlt heq
    · simp [Memory.wfFrom, hlo, ha, hv, h2, h3, h4]; omega
    · subst heq; simp [Memory.wfFrom, hlo, ha, hv, h4]
    · have := ih h4 (by omega)
      simp [Memory.wfFrom, h1, h2, h3, this]

theorem Memory.wfFrom_erase {size lo a : Nat} {m : Memory} (hw : Memory.wfFrom size lo m = true) :
    Memory.wfFrom size lo (Memory.erase a m) = true := by
  induction m generalizing lo with
  | nil => rfl
  | cons cell m ih =>
    obtain ⟨c, w⟩ := cell
    simp only [Memory.wfFrom, Bool.and_eq_true, decide_eq_true_eq] at hw
    obtain ⟨⟨⟨h1, h2⟩, h3⟩, h4⟩ := hw
    have ih' := ih h4
    by_cases hc : c = a
    · simp only [Memory.erase, List.filter_cons, hc, bne_self_eq_false, Bool.false_eq_true, if_false]
      exact Memory.wfFrom_mono (Nat.le_succ_of_le h1) ih'
    · simp only [Memory.erase, List.filter_cons, bne_iff_ne, ne_eq, hc, not_false_eq_true, if_true]
      simp only [Memory.wfFrom, Bool.and_eq_true, decide_eq_true_eq]
      exact ⟨⟨⟨h1, h2⟩, h3⟩, by simpa [Memory.erase] using ih'⟩

/-- The canonical form survives a write inside the memory. -/
theorem Memory.wf_write {size a : Nat} {m : Memory} (v : Byte) (hw : Memory.wf size m = true) (ha : a < size) :
    Memory.wf size (Memory.write m a v) = true := by
  unfold Memory.write
  split_ifs with h
  · exact Memory.wfFrom_erase hw
  · exact Memory.wfFrom_put hw (Nat.zero_le _) ha h

/-- The canonical form survives MemWrite inside the memory; an empty MemWrite may be anywhere. -/
theorem Memory.wf_writeBytes {size a : Nat} {m : Memory} {vs : Bytes} (hw : Memory.wf size m = true)
    (ha : vs.length = 0 ∨ a + vs.length ≤ size) : Memory.wf size (Memory.writeBytes m a vs) = true := by
  induction vs generalizing m a with
  | nil => exact hw
  | cons v vs ih =>
    simp only [List.length_cons] at ha
    exact ih (Memory.wf_write v hw (by omega)) (by omega)

/-- The memory a reset event brings is in canonical form. -/
theorem Memory.wf_ofCells (size : Nat) (cells : List Host.Cell) : Memory.wf size (Memory.ofCells size cells) = true := by
  induction cells with
  | nil => rfl
  | cons cell cells ih =>
    obtain ⟨a, v⟩ := cell
    simp only [Memory.ofCells]
    split_ifs with h
    · exact Memory.wf_write v ih h
    · exact ih

/-- Reset's memory is in canonical form. -/
theorem Memory.wf_reset : Memory.wf State.reset.cfg.memSize State.reset.mem = true := rfl

end Sys2Proof.Machine
end

