-- ==== Sys2Proof/Laws/State.lean ====
section
/-! SUPPORT. What each shared update of the state leaves in each field, true by definition. -/

namespace Sys2Proof.Machine

/-! ### `raise E` -/

@[simp] theorem State.raise_cfg (s : State) (e : CmdError) : (s.raise e).cfg = s.cfg := rfl

@[simp] theorem State.raise_src (s : State) (e : CmdError) : (s.raise e).src = s.src := rfl

@[simp] theorem State.raise_dst (s : State) (e : CmdError) : (s.raise e).dst = s.dst := rfl

@[simp] theorem State.raise_len (s : State) (e : CmdError) : (s.raise e).len = s.len := rfl

@[simp] theorem State.raise_lba (s : State) (e : CmdError) : (s.raise e).lba = s.lba := rfl

@[simp] theorem State.raise_edcseed (s : State) (e : CmdError) : (s.raise e).edcseed = s.edcseed := rfl

@[simp] theorem State.raise_seed (s : State) (e : CmdError) : (s.raise e).seed = s.seed := rfl

@[simp] theorem State.raise_xfer (s : State) (e : CmdError) : (s.raise e).xfer = s.xfer := rfl

@[simp] theorem State.raise_olen (s : State) (e : CmdError) : (s.raise e).olen = s.olen := rfl

@[simp] theorem State.raise_res0 (s : State) (e : CmdError) : (s.raise e).res0 = s.res0 := rfl

@[simp] theorem State.raise_res1 (s : State) (e : CmdError) : (s.raise e).res1 = s.res1 := rfl

@[simp] theorem State.raise_res2 (s : State) (e : CmdError) : (s.raise e).res2 = s.res2 := rfl

@[simp] theorem State.raise_cmd (s : State) (e : CmdError) : (s.raise e).cmd = s.cmd := rfl

@[simp] theorem State.raise_status (s : State) (e : CmdError) : (s.raise e).status = statusWord .error .none e.code s.opc := rfl

@[simp] theorem State.raise_errlog (s : State) (e : CmdError) : (s.raise e).errlog = s.errlog ||| e.bit := rfl

@[simp] theorem State.raise_cacheidx (s : State) (e : CmdError) : (s.raise e).cacheidx = s.cacheidx := rfl

@[simp] theorem State.raise_q (s : State) (e : CmdError) : (s.raise e).q = s.q := rfl

@[simp] theorem State.raise_mem (s : State) (e : CmdError) : (s.raise e).mem = s.mem := rfl

@[simp] theorem State.raise_dvd (s : State) (e : CmdError) : (s.raise e).dvd = s.dvd := rfl

@[simp] theorem State.raise_host (s : State) (e : CmdError) : (s.raise e).host = s.host := rfl

@[simp] theorem State.raise_rdata (s : State) (e : CmdError) : (s.raise e).rdata = s.rdata := rfl

/-! ### A bus address error -/

@[simp] theorem State.busError_cfg (s : State) : (s.busError).cfg = s.cfg := rfl

@[simp] theorem State.busError_src (s : State) : (s.busError).src = s.src := rfl

@[simp] theorem State.busError_dst (s : State) : (s.busError).dst = s.dst := rfl

@[simp] theorem State.busError_len (s : State) : (s.busError).len = s.len := rfl

@[simp] theorem State.busError_lba (s : State) : (s.busError).lba = s.lba := rfl

@[simp] theorem State.busError_edcseed (s : State) : (s.busError).edcseed = s.edcseed := rfl

@[simp] theorem State.busError_seed (s : State) : (s.busError).seed = s.seed := rfl

@[simp] theorem State.busError_xfer (s : State) : (s.busError).xfer = s.xfer := rfl

@[simp] theorem State.busError_olen (s : State) : (s.busError).olen = s.olen := rfl

@[simp] theorem State.busError_res0 (s : State) : (s.busError).res0 = s.res0 := rfl

@[simp] theorem State.busError_res1 (s : State) : (s.busError).res1 = s.res1 := rfl

@[simp] theorem State.busError_res2 (s : State) : (s.busError).res2 = s.res2 := rfl

@[simp] theorem State.busError_cmd (s : State) : (s.busError).cmd = s.cmd := rfl

@[simp] theorem State.busError_status (s : State) : (s.busError).status = s.status := rfl

@[simp] theorem State.busError_errlog (s : State) : (s.busError).errlog = s.errlog ||| busaddrBit := rfl

@[simp] theorem State.busError_cacheidx (s : State) : (s.busError).cacheidx = s.cacheidx := rfl

@[simp] theorem State.busError_q (s : State) : (s.busError).q = s.q := rfl

@[simp] theorem State.busError_mem (s : State) : (s.busError).mem = s.mem := rfl

@[simp] theorem State.busError_dvd (s : State) : (s.busError).dvd = s.dvd := rfl

@[simp] theorem State.busError_host (s : State) : (s.busError).host = s.host := rfl

@[simp] theorem State.busError_rdata (s : State) : (s.busError).rdata = s.rdata := rfl

/-! ### The end of a command without a command error -/

@[simp] theorem State.finish_cfg (s : State) (r : Result) : (s.finish r).cfg = s.cfg := rfl

@[simp] theorem State.finish_src (s : State) (r : Result) : (s.finish r).src = s.src := rfl

@[simp] theorem State.finish_dst (s : State) (r : Result) : (s.finish r).dst = s.dst := rfl

@[simp] theorem State.finish_len (s : State) (r : Result) : (s.finish r).len = s.len := rfl

@[simp] theorem State.finish_lba (s : State) (r : Result) : (s.finish r).lba = s.lba := rfl

@[simp] theorem State.finish_edcseed (s : State) (r : Result) : (s.finish r).edcseed = s.edcseed := rfl

@[simp] theorem State.finish_seed (s : State) (r : Result) : (s.finish r).seed = s.seed := rfl

@[simp] theorem State.finish_xfer (s : State) (r : Result) : (s.finish r).xfer = s.xfer := rfl

@[simp] theorem State.finish_olen (s : State) (r : Result) : (s.finish r).olen = BitVec.ofNat 32 r.out.length := rfl

@[simp] theorem State.finish_res0 (s : State) (r : Result) : (s.finish r).res0 = r.res0 := rfl

@[simp] theorem State.finish_res1 (s : State) (r : Result) : (s.finish r).res1 = r.res1 := rfl

@[simp] theorem State.finish_res2 (s : State) (r : Result) : (s.finish r).res2 = r.res2 := rfl

@[simp] theorem State.finish_cmd (s : State) (r : Result) : (s.finish r).cmd = s.cmd := rfl

@[simp] theorem State.finish_status (s : State) (r : Result) : (s.finish r).status = statusWord r.tag r.reason 0 s.opc := rfl

@[simp] theorem State.finish_errlog (s : State) (r : Result) : (s.finish r).errlog = s.errlog := rfl

@[simp] theorem State.finish_cacheidx (s : State) (r : Result) : (s.finish r).cacheidx = s.cacheidx := rfl

@[simp] theorem State.finish_q (s : State) (r : Result) : (s.finish r).q = s.q := rfl

@[simp] theorem State.finish_mem (s : State) (r : Result) : (s.finish r).mem = s.mem.writeBytes s.dst.toNat r.out := rfl

@[simp] theorem State.finish_dvd (s : State) (r : Result) : (s.finish r).dvd = s.dvd := rfl

@[simp] theorem State.finish_host (s : State) (r : Result) : (s.finish r).host = s.host := rfl

@[simp] theorem State.finish_rdata (s : State) (r : Result) : (s.finish r).rdata = s.rdata := rfl

/-! ### A command word put before the host's events -/

@[simp] theorem State.withFetchWord_cfg (s : State) (nbits w : Nat) : (s.withFetchWord nbits w).cfg = s.cfg := rfl

@[simp] theorem State.withFetchWord_src (s : State) (nbits w : Nat) : (s.withFetchWord nbits w).src = s.src := rfl

@[simp] theorem State.withFetchWord_dst (s : State) (nbits w : Nat) : (s.withFetchWord nbits w).dst = s.dst := rfl

@[simp] theorem State.withFetchWord_len (s : State) (nbits w : Nat) : (s.withFetchWord nbits w).len = s.len := rfl

@[simp] theorem State.withFetchWord_lba (s : State) (nbits w : Nat) : (s.withFetchWord nbits w).lba = s.lba := rfl

@[simp] theorem State.withFetchWord_edcseed (s : State) (nbits w : Nat) : (s.withFetchWord nbits w).edcseed = s.edcseed := rfl

@[simp] theorem State.withFetchWord_seed (s : State) (nbits w : Nat) : (s.withFetchWord nbits w).seed = s.seed := rfl

@[simp] theorem State.withFetchWord_xfer (s : State) (nbits w : Nat) : (s.withFetchWord nbits w).xfer = s.xfer := rfl

@[simp] theorem State.withFetchWord_olen (s : State) (nbits w : Nat) : (s.withFetchWord nbits w).olen = s.olen := rfl

@[simp] theorem State.withFetchWord_res0 (s : State) (nbits w : Nat) : (s.withFetchWord nbits w).res0 = s.res0 := rfl

@[simp] theorem State.withFetchWord_res1 (s : State) (nbits w : Nat) : (s.withFetchWord nbits w).res1 = s.res1 := rfl

@[simp] theorem State.withFetchWord_res2 (s : State) (nbits w : Nat) : (s.withFetchWord nbits w).res2 = s.res2 := rfl

@[simp] theorem State.withFetchWord_cmd (s : State) (nbits w : Nat) : (s.withFetchWord nbits w).cmd = s.cmd := rfl

@[simp] theorem State.withFetchWord_status (s : State) (nbits w : Nat) : (s.withFetchWord nbits w).status = s.status := rfl

@[simp] theorem State.withFetchWord_errlog (s : State) (nbits w : Nat) : (s.withFetchWord nbits w).errlog = s.errlog := rfl

@[simp] theorem State.withFetchWord_cacheidx (s : State) (nbits w : Nat) : (s.withFetchWord nbits w).cacheidx = s.cacheidx := rfl

@[simp] theorem State.withFetchWord_q (s : State) (nbits w : Nat) : (s.withFetchWord nbits w).q = s.q := rfl

@[simp] theorem State.withFetchWord_mem (s : State) (nbits w : Nat) : (s.withFetchWord nbits w).mem = s.mem := rfl

@[simp] theorem State.withFetchWord_dvd (s : State) (nbits w : Nat) : (s.withFetchWord nbits w).dvd = s.dvd := rfl

@[simp] theorem State.withFetchWord_host (s : State) (nbits w : Nat) : (s.withFetchWord nbits w).host = commandWord nbits w :: s.host := rfl

@[simp] theorem State.withFetchWord_rdata (s : State) (nbits w : Nat) : (s.withFetchWord nbits w).rdata = s.rdata := rfl

/-! ### The reset event -/

@[simp] theorem State.platformReset_cfg (s : State) (content : List Host.Cell) : (s.platformReset content).cfg = s.cfg := rfl

@[simp] theorem State.platformReset_src (s : State) (content : List Host.Cell) : (s.platformReset content).src = 0 := rfl

@[simp] theorem State.platformReset_dst (s : State) (content : List Host.Cell) : (s.platformReset content).dst = 0 := rfl

@[simp] theorem State.platformReset_len (s : State) (content : List Host.Cell) : (s.platformReset content).len = 0 := rfl

@[simp] theorem State.platformReset_lba (s : State) (content : List Host.Cell) : (s.platformReset content).lba = 0 := rfl

@[simp] theorem State.platformReset_edcseed (s : State) (content : List Host.Cell) : (s.platformReset content).edcseed = 0 := rfl

@[simp] theorem State.platformReset_seed (s : State) (content : List Host.Cell) : (s.platformReset content).seed = 0 := rfl

@[simp] theorem State.platformReset_xfer (s : State) (content : List Host.Cell) : (s.platformReset content).xfer = 0 := rfl

@[simp] theorem State.platformReset_olen (s : State) (content : List Host.Cell) : (s.platformReset content).olen = 0 := rfl

@[simp] theorem State.platformReset_res0 (s : State) (content : List Host.Cell) : (s.platformReset content).res0 = 0 := rfl

@[simp] theorem State.platformReset_res1 (s : State) (content : List Host.Cell) : (s.platformReset content).res1 = 0 := rfl

@[simp] theorem State.platformReset_res2 (s : State) (content : List Host.Cell) : (s.platformReset content).res2 = 0 := rfl

@[simp] theorem State.platformReset_cmd (s : State) (content : List Host.Cell) : (s.platformReset content).cmd = 0 := rfl

@[simp] theorem State.platformReset_status (s : State) (content : List Host.Cell) : (s.platformReset content).status = 0 := rfl

@[simp] theorem State.platformReset_errlog (s : State) (content : List Host.Cell) : (s.platformReset content).errlog = 0 := rfl

@[simp] theorem State.platformReset_cacheidx (s : State) (content : List Host.Cell) : (s.platformReset content).cacheidx = 0 := rfl

@[simp] theorem State.platformReset_q (s : State) (content : List Host.Cell) : (s.platformReset content).q = .zero := rfl

@[simp] theorem State.platformReset_mem (s : State) (content : List Host.Cell) : (s.platformReset content).mem = Memory.ofCells s.cfg.memSize content := rfl

@[simp] theorem State.platformReset_dvd (s : State) (content : List Host.Cell) : (s.platformReset content).dvd = .fresh := rfl

@[simp] theorem State.platformReset_host (s : State) (content : List Host.Cell) : (s.platformReset content).host = s.host := rfl

@[simp] theorem State.platformReset_rdata (s : State) (content : List Host.Cell) : (s.platformReset content).rdata = 0 := rfl

end Sys2Proof.Machine
end

