-- ==== Sys2Proof/Laws/Ops.lean ====
section
/-! SUPPORT. One lemma per shared operation that says all it can do: `raise`, a bus address error, the end of a command,
the checks of a command, a transaction. -/

namespace Sys2Proof.Machine

/-- `raise E` in the numbers of R302. -/
theorem State.raise_eq (s : State) (e : CmdError) : s.raise e = s.raised e.code.toNat := by
  have h : statusWord .error .none e.code s.opc = 4#32 ||| (BitVec.ofNat 32 e.code.toNat <<< 8) ||| ((s.cmd &&& 0xFF#32) <<< 24) := by
    apply BitVec.eq_of_getLsbD_eq
    intro i hi
    simp only [statusWord, State.opc, opcField, BitVec.getLsbD_append, BitVec.getLsbD_or, BitVec.getLsbD_shiftLeft,
      BitVec.getLsbD_and, BitVec.getLsbD_extractLsb']
    cases e <;> interval_cases i <;> simp [CmdError.code, Tag.code, Reason.code]
  simp only [State.raise, State.raised, h, CmdError.bit]

/-- The fields of a `STATUS` word are what it was put together from (R25). -/
theorem statusWord_fields (tag : Tag) (reason : Reason) (err : BitVec 4) (opc : BitVec 8) :
    statusOutcome (statusWord tag reason err opc) = tag.code ∧ statusReason (statusWord tag reason err opc) = reason.code ∧
    statusErr (statusWord tag reason err opc) = err ∧ statusOpc (statusWord tag reason err opc) = opc ∧
    (statusWord tag reason err opc).getLsbD 3 = false ∧ (statusWord tag reason err opc).extractLsb' 12 12 = 0 := by
  refine ⟨?_, ?_, ?_, ?_, ?_, ?_⟩
  · apply BitVec.eq_of_getLsbD_eq; intro j hj
    simp only [statusOutcome, statusWord, BitVec.getLsbD_extractLsb', BitVec.getLsbD_append]
    interval_cases j <;> simp
  · apply BitVec.eq_of_getLsbD_eq; intro j hj
    simp only [statusReason, statusWord, BitVec.getLsbD_extractLsb', BitVec.getLsbD_append]
    interval_cases j <;> simp
  · apply BitVec.eq_of_getLsbD_eq; intro j hj
    simp only [statusErr, statusWord, BitVec.getLsbD_extractLsb', BitVec.getLsbD_append]
    interval_cases j <;> simp
  · apply BitVec.eq_of_getLsbD_eq; intro j hj
    simp only [statusOpc, statusWord, BitVec.getLsbD_extractLsb', BitVec.getLsbD_append]
    interval_cases j <;> simp
  · simp only [statusWord, BitVec.getLsbD_append]; simp
  · apply BitVec.eq_of_getLsbD_eq; intro j hj
    simp only [statusWord, BitVec.getLsbD_extractLsb', BitVec.getLsbD_append]
    interval_cases j <;> simp

theorem State.busError_eq (s : State) : s.busError = s.busErrored := rfl

/-- What a command's checks can do: `SRCRANGE`, `DSTRANGE`, or the command's body on its input. -/
theorem guarded_spec (i : Instr) (s : State) (body : Bytes → State) :
    ∃ t, guarded i s body = .next t ∧ RangeErrors s t (outmax i s.len.toNat) ∧
      (RangesFit s (outmax i s.len.toNat) → t = body s.input) := by
  unfold guarded RangeErrors RangesFit
  by_cases h1 : s.src.toNat + s.len.toNat ≤ s.cfg.memSize
  · by_cases h2 : outmax i s.len.toNat = 0 ∨ s.dst.toNat + outmax i s.len.toNat ≤ s.cfg.memSize
    · refine ⟨body s.input, ?_, ⟨fun h => absurd h1 (by omega), fun _ h => by omega⟩, fun _ => rfl⟩
      have : s.dstOk i = true := by simpa [State.dstOk] using h2
      simp [State.srcOk, h1, this, State.input]
    · refine ⟨s.raise .dstrange, ?_, ⟨fun h => absurd h1 (by omega), fun _ _ _ => State.raise_eq s .dstrange⟩,
        fun h => absurd h.2 h2⟩
      have : s.dstOk i = false := by simpa [State.dstOk] using h2
      simp [State.srcOk, h1, this]
  · refine ⟨s.raise .srcrange, ?_, ⟨fun _ => State.raise_eq s .srcrange, fun h => absurd h h1⟩, fun h => absurd h.1 h1⟩
    simp [State.srcOk, h1]

/-- The bytes of a memory after the one MemWrite of a command. -/
theorem memHolds_writeBytes (s : State) (out : Bytes) (t : State) (h : t.mem = s.mem.writeBytes s.dst.toNat out) :
    MemHolds t s.dst.toNat out ∧ MemKeptOutside s t s.dst.toNat out.length := by
  constructor
  · intro i hi
    rw [h, Memory.read_writeBytes, if_pos (by omega), Nat.add_sub_cancel_left]
  · intro a ha
    rw [h, Memory.read_writeBytes, if_neg (by omega)]

/-- A command that changes neither the Q record nor the instance ends as its result says. -/
theorem State.finish_ends (s : State) (r : Result) :
    Ends s (s.finish r) r.tag r.reason r.out r.res0 r.res1 r.res2 where
  operands := ⟨rfl, rfl, rfl, rfl, rfl, rfl, rfl, rfl, rfl, rfl, rfl, rfl⟩
  errlog := rfl
  status := rfl
  olen := rfl
  res0 := rfl
  res1 := rfl
  res2 := rfl
  holds := (memHolds_writeBytes s r.out _ rfl).1
  kept := (memHolds_writeBytes s r.out _ rfl).2
  q := rfl
  dvd := rfl

/-- A command that replaces the instance ends as its result says. -/
theorem State.finish_dvd_leaves (s : State) (d : DvdInstance) (r : Result) :
    Leaves s ({ s with dvd := d }.finish r) r.tag r.reason r.out r.res0 r.res1 r.res2 where
  operands := ⟨rfl, rfl, rfl, rfl, rfl, rfl, rfl, rfl, rfl, rfl, rfl, rfl⟩
  errlog := rfl
  status := rfl
  olen := rfl
  res0 := rfl
  res1 := rfl
  res2 := rfl
  holds := (memHolds_writeBytes s r.out _ rfl).1
  kept := (memHolds_writeBytes s r.out _ rfl).2

/-- A command that replaces the Q record ends as its result says. -/
theorem State.finish_q_leaves (s : State) (q : QRecord) (r : Result) :
    Leaves s ({ s with q := q }.finish r) r.tag r.reason r.out r.res0 r.res1 r.res2 where
  operands := ⟨rfl, rfl, rfl, rfl, rfl, rfl, rfl, rfl, rfl, rfl, rfl, rfl⟩
  errlog := rfl
  status := rfl
  olen := rfl
  res0 := rfl
  res1 := rfl
  res2 := rfl
  holds := (memHolds_writeBytes s r.out _ rfl).1
  kept := (memHolds_writeBytes s r.out _ rfl).2

@[simp] theorem State.length_input (s : State) : s.input.length = s.len.toNat := Memory.length_readBytes _ _ _

/-- A byte of a command's input is the byte of `MEM` it stands for (R62). -/
theorem State.byteAt_input (s : State) (i : Nat) (h : i < s.len.toNat) :
    byteAt s.input i = s.mem.read (s.src.toNat + i) := Memory.byteAt_readBytes _ _ _ _ h

/-- The bytes a command wrote are the input of a command that reads them back. -/
theorem input_of_leaves {s t u : State} {tag : Tag} {reason : Reason} {out : Bytes} {r0 r1 r2 : Word}
    (h : Leaves s t tag reason out r0 r1 r2) (hm : u.mem = t.mem) (hs : u.src = t.dst)
    (hl : u.len.toNat = out.length) : u.input = out := by
  apply List.ext_getElem (by simp [hl])
  intro i h1 h2
  have := h.holds i h2
  have hd : t.dst = s.dst := h.operands.dst
  simp only [State.input, Memory.readBytes, List.getElem_map, List.getElem_range, hm, hs, hd]
  rw [this]
  simp [byteAt, h2]

/-! ### Lengths -/

theorem length_keystreamFrom (n : Nat) (st : Seed) : (keystreamFrom n st).length = n := by
  induction n generalizing st with
  | zero => rfl
  | succ n ih => simp [keystreamFrom, ih]

@[simp] theorem length_keystream (x : Seed) : (keystream x).length = 2048 := length_keystreamFrom _ _

@[simp] theorem length_dvdApply (sec k : Bytes) : (dvdApply sec k).length = sec.length := by
  simp [dvdApply]; omega

@[simp] theorem length_cdScramble (table src : Bytes) : (cdScramble table src).length = src.length := by
  simp [cdScramble]

@[simp] theorem length_eccParity (region : Bytes) (a b c d : Nat) : (eccParity region a b c d).length = 2 * a := by
  simp [eccParity]; omega

theorem length_dvdBatch (c : Config) (n : Nat) (b : Bytes) (d : DvdInstance) (h : b.length = 2064 * n) :
    (dvdBatch c n b d).out.length = b.length := by
  induction n generalizing b d with
  | zero => simp [dvdBatch]; omega
  | succ n ih =>
    unfold dvdBatch
    have hd : (b.drop dvdSectorSize).length = 2064 * n := by simp [dvdSectorSize, h]; omega
    have hs : dvdSectorSize = 2064 := rfl
    split <;> simp only [List.length_append, length_dvdApply, List.length_take, ih _ _ hd] <;> omega

theorem length_mapPieces (size size' : Nat) (f : Bytes → Bytes) (hf : ∀ b, (f b).length = size') (n : Nat) (b : Bytes) :
    (mapPieces size f n b).length = size' * n := by
  induction n generalizing b with
  | zero => simp [mapPieces]
  | succ n ih => simp [mapPieces, hf, ih]; ring

@[simp] theorem length_interleaveFrame (d : Bytes) : (interleaveFrame d).length = 96 := by
  simp [interleaveFrame]

@[simp] theorem length_deinterleaveFrame (d : Bytes) : (deinterleaveFrame d).length = 96 := by
  simp [deinterleaveFrame]

end Sys2Proof.Machine
end

