-- ==== Sys2Proof/Laws/Exec.lean ====
section
/-! SUPPORT. What `exec` can do, said once for all commands: a range error, or the one end of every command with a
result, a Q record and an instance that are functions of the input and of the registers (R64). -/

namespace Sys2Proof.Machine

/-- What a command leaves besides its operand registers: its result, the Q record, the descrambler's instance. -/
structure Effect where
  result : Result
  q      : QRecord
  dvd    : DvdInstance

/-- The state after a command with an effect. -/
def State.apply (s : State) (e : Effect) : State := { s with q := e.q, dvd := e.dvd }.finish e.result

/-- The effect of a command that found a seed or none (R213, R215). -/
def seedEffect (s : State) (r : SearchResult) (found : Seed → Nat → Stage → Result) (missed : Nat → Result) : Effect :=
  match r with
  | .notFound n => ⟨missed n, s.q, s.dvd⟩
  | .found x n g => ⟨found x n g, s.q, s.dvd.record x⟩

/-- The effect of a command on an input that passes the range checks. -/
def effect (i : Instr) (s : State) (src : Bytes) : Effect :=
  match i with
  | .nop => ⟨{ tag := .computed }, s.q, s.dvd⟩
  | .edc => ⟨{ tag := .computed, res0 := edcCd s.edcseed src }, s.q, s.dvd⟩
  | .rprefix tt => ⟨rprefixResult tt s.lbaInt src, s.q, s.dvd⟩
  | .recc tt => ⟨reccResult tt src, s.q, s.dvd⟩
  | .eccsyn tt => ⟨eccsynResult tt src, s.q, s.dvd⟩
  | .eccfix tt => ⟨eccfixResult tt src, s.q, s.dvd⟩
  | .cdscr => ⟨cdscrResult (scrambleTable s.cfg) src, s.q, s.dvd⟩
  | .dvdtest => ⟨if src.length ≠ dvdSectorSize then passBare .length
      else { tag := .computed, res0 := if verify s.cfg src s.seed then 1 else 0 }, s.q, s.dvd⟩
  | .dvdseed => if src.length ≠ dvdSectorSize then ⟨passBare .length, s.q, s.dvd⟩
      else seedEffect s (search s.cfg s.dvd src)
        (fun x n g => { tag := .computed, out := keystream x, res0 := x.setWidth 32, res1 := BitVec.ofNat 32 n,
                        res2 := BitVec.ofNat 32 g.number })
        (fun n => { passBare .noseed with res1 := BitVec.ofNat 32 n })
  | .dvdscr => if src.length ≠ dvdSectorSize then ⟨passCopy .length src, s.q, s.dvd⟩
      else seedEffect s (search s.cfg s.dvd src)
        (fun x n g => { tag := .transformed, out := dvdApply src (keystream x), res0 := x.setWidth 32,
                        res1 := BitVec.ofNat 32 n, res2 := BitVec.ofNat 32 g.number })
        (fun n => { passCopy .noseed src with res1 := BitVec.ofNat 32 n })
  | .dvdscrb => if src.length ≠ dvdSectorSize * s.xfer.toNat then ⟨passCopy .length src, s.q, s.dvd⟩
      else ⟨batchResult (dvdBatch s.cfg s.xfer.toNat src s.dvd), s.q, (dvdBatch s.cfg s.xfer.toNat src s.dvd).inst⟩
  | .dvdrst => ⟨{ tag := .computed }, s.q, .fresh⟩
  | .qbin2bcd => ⟨qbin2bcdResult src, s.q, s.dvd⟩
  | .qbcd2bin => ⟨qbcd2binResult src, s.q, s.dvd⟩
  | .q2raw => ⟨q2rawResult src, s.q, s.dvd⟩
  | .intlv => ⟨framesResult interleaveFrame src, s.q, s.dvd⟩
  | .deintlv => ⟨framesResult deinterleaveFrame src, s.q, s.dvd⟩
  | .qparse qf => if src.length ≠ 12 then ⟨passBare .length, .zero, s.dvd⟩
      else ⟨{ tag := .computed, res0 := (qRecord s.cfg qf s.lbaInt src).q0 }, qRecord s.cfg qf s.lbaInt src, s.dvd⟩

/-- The source range of a command fits, or it has none (R305). -/
def SrcFits (i : Instr) (s : State) : Prop :=
  i = .nop ∨ i = .dvdrst ∨ s.src.toNat + s.len.toNat ≤ s.cfg.memSize

/-- The destination range of a command fits, or it has none (R306). -/
def DstFits (i : Instr) (s : State) : Prop :=
  outmax i s.len.toNat = 0 ∨ s.dst.toNat + outmax i s.len.toNat ≤ s.cfg.memSize

/-- A checked command is its two range errors, or its body on its input. -/
theorem guarded_eq (i : Instr) (s : State) (body : Bytes → State) (hi : i ≠ .nop) (hi' : i ≠ .dvdrst) :
    (¬ SrcFits i s → guarded i s body = .next (s.raised 3)) ∧
    (SrcFits i s → ¬ DstFits i s → guarded i s body = .next (s.raised 4)) ∧
    (SrcFits i s → DstFits i s → guarded i s body = .next (body s.input)) := by
  have h3 : s.raise .srcrange = s.raised 3 := State.raise_eq s .srcrange
  have h4 : s.raise .dstrange = s.raised 4 := State.raise_eq s .dstrange
  have hd : s.dstOk i = true ↔ DstFits i s := by simp [State.dstOk, DstFits]
  have hs : s.srcOk = true ↔ SrcFits i s := by simp [State.srcOk, SrcFits, hi, hi']
  refine ⟨fun h => ?_, fun h h' => ?_, fun h h' => ?_⟩
  · rw [← hs] at h; simp [guarded, h, h3]
  · rw [← hs] at h; rw [← hd] at h'; simp [guarded, h, h', h4]
  · rw [← hs] at h; rw [← hd] at h'; simp [guarded, h, h', State.input]

/-- A checked command whose body has an effect is `SRCRANGE`, else `DSTRANGE`, else the effect. -/
theorem checked_eq {i : Instr} {s : State} {body : Bytes → State} (h : exec i s = guarded i s body)
    (hb : body s.input = s.apply (effect i s s.input)) (hi : i ≠ .nop) (hi' : i ≠ .dvdrst) :
    (¬ SrcFits i s → exec i s = .next (s.raised 3)) ∧
    (SrcFits i s → ¬ DstFits i s → exec i s = .next (s.raised 4)) ∧
    (SrcFits i s → DstFits i s → exec i s = .next (s.apply (effect i s s.input))) := by
  rw [h, ← hb]; exact guarded_eq i s body hi hi'

/-- Every command is `SRCRANGE`, else `DSTRANGE`, else its effect on its input (R307). -/
theorem exec_eq (i : Instr) (s : State) :
    (¬ SrcFits i s → exec i s = .next (s.raised 3)) ∧
    (SrcFits i s → ¬ DstFits i s → exec i s = .next (s.raised 4)) ∧
    (SrcFits i s → DstFits i s → exec i s = .next (s.apply (effect i s s.input))) := by
  cases i with
  | nop => exact ⟨fun h => absurd (.inl rfl) h, fun _ h => absurd (.inl rfl) h, fun _ _ => rfl⟩
  | dvdrst => exact ⟨fun h => absurd (.inr (.inl rfl)) h, fun _ h => absurd (.inl rfl) h, fun _ _ => rfl⟩
  | dvdtest =>
    refine checked_eq (by unfold exec execDvdtest; rfl) ?_ (by decide) (by decide)
    by_cases hl : s.input.length ≠ dvdSectorSize
    · simp only [effect, if_pos hl]; rfl
    · simp only [effect, if_neg hl]; rfl
  | dvdseed =>
    refine checked_eq (by unfold exec execDvdseed; rfl) ?_ (by decide) (by decide)
    by_cases hl : s.input.length ≠ dvdSectorSize
    · simp only [effect, if_pos hl]; rfl
    · cases hr : search s.cfg s.dvd s.input <;> simp only [effect, if_neg hl, hr, seedEffect] <;> rfl
  | dvdscr =>
    refine checked_eq (by unfold exec execDvdscr; rfl) ?_ (by decide) (by decide)
    by_cases hl : s.input.length ≠ dvdSectorSize
    · simp only [effect, if_pos hl]; rfl
    · cases hr : search s.cfg s.dvd s.input <;> simp only [effect, if_neg hl, hr, seedEffect] <;> rfl
  | dvdscrb =>
    refine checked_eq (by unfold exec execDvdscrb; rfl) ?_ (by decide) (by decide)
    by_cases hl : s.input.length ≠ dvdSectorSize * s.xfer.toNat
    · simp only [effect, if_pos hl]; rfl
    · simp only [effect, if_neg hl]; rfl
  | qparse qf =>
    refine checked_eq (by unfold exec execQparse; rfl) ?_ (by simp) (by simp)
    by_cases hl : s.input.length ≠ 12
    · simp only [effect, if_pos hl]; rfl
    · simp only [effect, if_neg hl]; rfl
  | edc => exact checked_eq (by unfold exec execEdc; rfl) (by unfold effect State.apply; rfl) (by simp) (by simp)
  | rprefix tt => exact checked_eq (by unfold exec execRprefix; rfl) (by unfold effect State.apply; rfl) (by simp) (by simp)
  | recc tt => exact checked_eq (by unfold exec execRecc; rfl) (by unfold effect State.apply; rfl) (by simp) (by simp)
  | eccsyn tt => exact checked_eq (by unfold exec execEccsyn; rfl) (by unfold effect State.apply; rfl) (by simp) (by simp)
  | eccfix tt => exact checked_eq (by unfold exec execEccfix; rfl) (by unfold effect State.apply; rfl) (by simp) (by simp)
  | cdscr => exact checked_eq (by unfold exec execCdscr; rfl) (by unfold effect State.apply; rfl) (by simp) (by simp)
  | qbin2bcd => exact checked_eq (by unfold exec execQbin2bcd; rfl) (by unfold effect State.apply; rfl) (by simp) (by simp)
  | qbcd2bin => exact checked_eq (by unfold exec execQbcd2bin; rfl) (by unfold effect State.apply; rfl) (by simp) (by simp)
  | q2raw => exact checked_eq (by unfold exec execQ2raw; rfl) (by unfold effect State.apply; rfl) (by simp) (by simp)
  | intlv => exact checked_eq (by unfold exec execIntlv; rfl) (by unfold effect State.apply; rfl) (by simp) (by simp)
  | deintlv => exact checked_eq (by unfold exec execDeintlv; rfl) (by unfold effect State.apply; rfl) (by simp) (by simp)

/-- Every command has a next state. -/
theorem exec_next (i : Instr) (s : State) : ∃ t, exec i s = .next t := by
  by_cases h1 : SrcFits i s
  · by_cases h2 : DstFits i s
    · exact ⟨_, (exec_eq i s).2.2 h1 h2⟩
    · exact ⟨_, (exec_eq i s).2.1 h1 h2⟩
  · exact ⟨_, (exec_eq i s).1 h1⟩

/-- What a command's next state can be. -/
theorem exec_cases {i : Instr} {s t : State} (h : exec i s = .next t) :
    (¬ SrcFits i s ∧ t = s.raised 3) ∨ (SrcFits i s ∧ ¬ DstFits i s ∧ t = s.raised 4) ∨
    (SrcFits i s ∧ DstFits i s ∧ t = s.apply (effect i s s.input)) := by
  obtain ⟨h3, h4, h5⟩ := exec_eq i s
  by_cases h1 : SrcFits i s
  · by_cases h2 : DstFits i s
    · rw [h5 h1 h2] at h; cases h; exact .inr (.inr ⟨h1, h2, rfl⟩)
    · rw [h4 h1 h2] at h; cases h; exact .inr (.inl ⟨h1, h2, rfl⟩)
  · rw [h3 h1] at h; cases h; exact .inl ⟨h1, rfl⟩

/-- Only `QPARSE` writes the Q record (R31). -/
theorem effect_q (i : Instr) (s : State) (src : Bytes) (h : ∀ qf, i ≠ .qparse qf) : (effect i s src).q = s.q := by
  cases i with
  | qparse qf => exact absurd rfl (h qf)
  | dvdseed => simp only [effect]; split_ifs <;> [rfl; (cases search s.cfg s.dvd src <;> rfl)]
  | dvdscr => simp only [effect]; split_ifs <;> [rfl; (cases search s.cfg s.dvd src <;> rfl)]
  | dvdscrb => simp only [effect]; split_ifs <;> rfl
  | _ => rfl

/-- Only four commands change the descrambler's instance (R33). -/
theorem effect_dvd (i : Instr) (s : State) (src : Bytes) (h1 : i ≠ .dvdseed) (h2 : i ≠ .dvdscr) (h3 : i ≠ .dvdscrb)
    (h4 : i ≠ .dvdrst) : (effect i s src).dvd = s.dvd := by
  cases i with
  | qparse qf => simp only [effect]; split_ifs <;> rfl
  | dvdseed => exact absurd rfl h1
  | dvdscr => exact absurd rfl h2
  | dvdscrb => exact absurd rfl h3
  | dvdrst => exact absurd rfl h4
  | _ => rfl

/-- No command writes an operand register. -/
theorem exec_operands {i : Instr} {s t : State} (h : exec i s = .next t) : OperandsKept s t := by
  rcases exec_cases h with ⟨_, rfl⟩ | ⟨_, _, rfl⟩ | ⟨_, _, rfl⟩ <;>
    exact ⟨rfl, rfl, rfl, rfl, rfl, rfl, rfl, rfl, rfl, rfl, rfl, rfl⟩

/-! ### How many bytes a command writes -/

@[simp] theorem length_headerTime (t : Nat) : (headerTime t).length = 3 := rfl

@[simp] theorem length_sync : sync.length = 12 := rfl

theorem length_withPrefix (tt : TrackType) (t : Nat) (src : Bytes) (h : 2352 ≤ src.length) :
    (withPrefix tt t src).length = src.length := by
  have hs : (slice src 0x14 0x18).length = 4 := by simp; omega
  have h1 : (splice src 0 sync).length = src.length := length_splice _ _ _ (by simp; omega)
  have h2 : (splice (splice src 0 sync) 12 (headerTime t)).length = src.length := by
    rw [length_splice _ _ _ (by simp [h1]; omega), h1]
  have h3 : ∀ v : Byte, (splice (splice (splice src 0 sync) 12 (headerTime t)) 15 [v]).length = src.length := by
    intro v
    rw [length_splice _ _ _ (by simp [h2]; omega), h2]
  unfold withPrefix
  split_ifs
  · exact h3 1
  · rw [length_splice _ _ _ (by rw [hs, h3]; omega), h3]

theorem length_rprefixResult (tt : TrackType) (lba : Int) (src : Bytes) :
    (rprefixResult tt lba src).out.length = src.length := by
  unfold rprefixResult sectorSize passCopy
  split_ifs with h1 h2 h3
  · rfl
  · rfl
  · rfl
  · exact length_withPrefix _ _ _ (by omega)

theorem length_eccWrite (sector : Bytes) (z : Bool) (h : 2352 ≤ sector.length) :
    (eccWrite sector z).length = sector.length := by
  have h1 : ∀ p : Bytes, p.length = 172 → (splice sector 0x81C p).length = sector.length := fun p hp =>
    length_splice _ _ _ (by omega)
  unfold eccWrite
  rw [length_splice _ _ _ (by rw [h1 _ (by simp [pParity])]; simp [qParity]; omega), h1 _ (by simp [pParity])]

theorem length_withEdc (tt : TrackType) (hi : Nat) (e : Word) (src : Bytes) (h : 2352 ≤ src.length)
    (hh : hi + 4 ≤ 2352) : (withEdc tt hi e src).length = src.length := by
  unfold withEdc
  have h1 : (splice src hi (u32le e)).length = src.length := length_splice _ _ _ (by simp; omega)
  split_ifs
  · rw [length_splice _ _ _ (by simp [h1]; omega), h1]
  · exact h1

theorem length_withParity (tt : TrackType) (out : Bytes) (h : 2352 ≤ out.length) :
    (withParity tt out).length = out.length := by
  unfold withParity
  split_ifs
  · exact length_eccWrite _ _ h
  · exact length_eccWrite _ _ h
  · rfl

/-- The field of an EDC lies inside the sector. -/
theorem edcRange_le {tt : TrackType} {lo hi : Nat} (h : edcRange tt = some (lo, hi)) : lo ≤ hi ∧ hi + 4 ≤ 2352 := by
  cases tt <;> simp [edcRange] at h <;> omega

theorem length_reccResult (tt : TrackType) (src : Bytes) : (reccResult tt src).out.length = src.length := by
  unfold reccResult sectorSize passCopy
  split_ifs with h1
  · rfl
  · cases h : edcRange tt with
    | none => rfl
    | some p =>
      obtain ⟨lo, hi⟩ := p
      have h2 := (edcRange_le h).2
      have h3 := length_withEdc tt hi (edcCd 0 (slice src lo hi)) src (by omega) h2
      simp only
      rw [length_withParity _ _ (by omega), h3]

@[simp] theorem length_syndromeBytes (region : Bytes) : (syndromeBytes region).length = 276 := by
  simp [syndromeBytes, allPositions, Function.comp_def]

theorem length_eccsynResult (tt : TrackType) (src : Bytes) : (eccsynResult tt src).out.length ≤ 276 := by
  unfold eccsynResult passBare
  split_ifs <;> simp

theorem length_eccRegion (tt : TrackType) (src : Bytes) (h : 2352 ≤ src.length) : (eccRegion tt src).length = 2340 := by
  unfold eccRegion
  split_ifs
  · rw [length_splice] <;> simp <;> omega
  · simp; omega

@[simp] theorem length_fixCodeword (lock : Bool) (st : FixState) (pos : List Nat) :
    (fixCodeword lock st pos).region.length = st.region.length := by
  unfold fixCodeword
  split
  · rfl
  · rfl
  · split_ifs <;> simp

theorem length_foldl_fixCodeword (lock : Bool) (l : List (List Nat)) (st : FixState) :
    (l.foldl (fixCodeword lock) st).region.length = st.region.length := by
  induction l generalizing st with
  | nil => rfl
  | cons pos l ih => simp [ih]

theorem length_withRegion (tt : TrackType) (src region : Bytes) (h : 2352 ≤ src.length) (hr : region.length = 2340) :
    (withRegion tt src region).length = src.length := by
  unfold withRegion
  split_ifs <;> rw [length_splice] <;> simp [hr] <;> omega

theorem length_eccfixResult (tt : TrackType) (src : Bytes) : (eccfixResult tt src).out.length = src.length := by
  unfold eccfixResult sectorSize passCopy
  split_ifs with h1 h2
  · rfl
  · rfl
  · simp only
    split_ifs
    · rfl
    · rfl
    · exact length_withRegion _ _ _ (by omega) (by
        simp only [fixPass]; rw [length_foldl_fixCodeword]; exact length_eccRegion _ _ (by omega))

theorem length_cdscrResult (table src : Bytes) : (cdscrResult table src).out.length = src.length := by
  unfold cdscrResult passCopy
  split_ifs <;> simp

theorem length_qbin2bcdResult (src : Bytes) : (qbin2bcdResult src).out.length = src.length := by
  unfold qbin2bcdResult passCopy qBlockSize
  split_ifs with h1
  · rfl
  · rfl
  · have : (qNumeric src).length = 9 := by simp [qNumeric]; omega
    rw [length_splice] ; simp [this]; omega

theorem length_qbcd2binResult (src : Bytes) : (qbcd2binResult src).out.length = src.length := by
  unfold qbcd2binResult passCopy qBlockSize
  split_ifs with h1
  · rfl
  · rfl
  · have : (qNumeric src).length = 9 := by simp [qNumeric]; omega
    rw [length_splice] ; simp [this]; omega

theorem length_q2rawResult (src : Bytes) :
    (q2rawResult src).out.length = if src.length % 16 = 0 then 6 * src.length else src.length := by
  unfold q2rawResult passCopy qRecordSize
  by_cases h : src.length % 16 = 0
  · rw [if_neg (by omega), if_pos h]
    simp only
    rw [length_mapPieces 16 96 _ (by simp)]; omega
  · rw [if_pos h, if_neg h]

theorem length_framesResult (f : Bytes → Bytes) (hf : ∀ b, (f b).length = 96) (src : Bytes) :
    (framesResult f src).out.length = src.length := by
  unfold framesResult passCopy frameSize
  split_ifs with h1
  · rfl
  · simp only
    rw [length_mapPieces 96 96 f hf]; omega

/-- A command writes at most the bytes its bound says (R306). -/
theorem length_effect_le (i : Instr) (s : State) : (effect i s s.input).result.out.length ≤ outmax i s.len.toNat := by
  cases i with
  | nop => simp [effect]
  | edc => simp [effect]
  | rprefix tt => simp [effect, length_rprefixResult, outmax]
  | recc tt => simp [effect, length_reccResult, outmax]
  | eccsyn tt => exact length_eccsynResult tt _
  | eccfix tt => simp [effect, length_eccfixResult, outmax]
  | cdscr => simp [effect, length_cdscrResult, outmax]
  | dvdtest => simp only [effect]; split_ifs <;> simp [passBare]
  | dvdseed =>
    simp only [effect]
    split_ifs
    · simp [passBare]
    · cases search s.cfg s.dvd s.input <;> simp [seedEffect, passBare, outmax]
  | dvdscr =>
    simp only [effect]
    split_ifs
    · simp [passCopy, outmax]
    · cases search s.cfg s.dvd s.input <;> simp [seedEffect, passCopy, outmax]
  | dvdscrb =>
    simp only [effect]
    split_ifs with h
    · simp [passCopy, outmax]
    · have hl : s.input.length = 2064 * s.xfer.toNat := by simpa [dvdSectorSize] using h
      simp [batchResult, length_dvdBatch _ _ _ _ hl, outmax]
  | dvdrst => simp [effect]
  | qbin2bcd => simp [effect, length_qbin2bcdResult, outmax]
  | qbcd2bin => simp [effect, length_qbcd2binResult, outmax]
  | q2raw => simp only [effect, length_q2rawResult, outmax, State.length_input]; exact le_refl _
  | intlv => simp [effect, length_framesResult, outmax]
  | deintlv => simp [effect, length_framesResult, outmax]
  | qparse qf => simp only [effect]; split_ifs <;> simp [passBare]

/-- The ranges of a command fit exactly when they do in the form the claims use. -/
theorem fits_of_rangesFit {i : Instr} {s : State} (h : RangesFit s (outmax i s.len.toNat)) : SrcFits i s ∧ DstFits i s :=
  ⟨.inr (.inr h.1), h.2⟩

end Sys2Proof.Machine
end

