-- ==== Sys2Proof/Laws/Commands.lean ====
section
/-! SUPPORT. What the functions the commands are built from leave in each byte: the parity encoder, the region of the
P/Q code, the keystream, the instance after a found seed, the interleaver. -/

namespace Sys2Proof.Machine

/-- Past its end a sequence reads 0 (log 11). -/
theorem byteAt_of_ge (b : Bytes) (i : Nat) (h : b.length ≤ i) : byteAt b i = 0 := by
  unfold byteAt; rw [List.getD_eq_default]; exact h

/-- Two sequences of one length with the same bytes are equal. -/
theorem bytes_ext {a b : Bytes} (hl : a.length = b.length) (h : ∀ i, i < a.length → byteAt a i = byteAt b i) : a = b := by
  apply List.ext_getElem hl
  intro i h1 h2
  have := h i h1
  simpa [byteAt, h1, h2] using this

theorem byteAt_replicate (n : Nat) (v : Byte) (i : Nat) : byteAt (List.replicate n v) i = if i < n then v else 0 := by
  simp only [byteAt, List.getD_eq_getElem?_getD, List.getElem?_replicate]
  split_ifs <;> rfl

/-- A command with an input, in the form the claims use: its range errors, or its effect on its input. -/
theorem exec_form (i : Instr) (s : State) (n : Nat) (hn : outmax i s.len.toNat = n) (h1 : i ≠ .nop) (h2 : i ≠ .dvdrst) :
    ∃ t, exec i s = .next t ∧ RangeErrors s t n ∧ (RangesFit s n → t = s.apply (effect i s s.input)) := by
  subst hn
  obtain ⟨a3, a4, a5⟩ := exec_eq i s
  by_cases hs : SrcFits i s
  · have hs' : s.src.toNat + s.len.toNat ≤ s.cfg.memSize := by simpa [SrcFits, h1, h2] using hs
    by_cases hd : DstFits i s
    · refine ⟨_, a5 hs hd, ⟨fun h => absurd h (by omega), fun _ h h' => ?_⟩, fun _ => rfl⟩
      unfold DstFits at hd; omega
    · refine ⟨_, a4 hs hd, ⟨fun h => absurd h (by omega), fun _ h h' => rfl⟩, fun h => absurd h.2 hd⟩
  · have hs' : ¬ s.src.toNat + s.len.toNat ≤ s.cfg.memSize := by simpa [SrcFits, h1, h2] using hs
    refine ⟨_, a3 hs, ⟨fun h => rfl, fun h _ h' => absurd h hs'⟩, fun h => absurd h.1 hs'⟩

/-- A command whose effect is a result alone ends as the result says. -/
theorem ends_apply (s : State) (r : Result) : Ends s (s.apply ⟨r, s.q, s.dvd⟩) r.tag r.reason r.out r.res0 r.res1 r.res2 :=
  State.finish_ends s r

/-- The same, for an effect that is shown to be a result alone. -/
theorem ends_of (s : State) (e : Effect) (r : Result) (h : e = ⟨r, s.q, s.dvd⟩) : Ends s (s.apply e) r.tag r.reason r.out r.res0 r.res1 r.res2 := by
  subst h; exact ends_apply s r

/-! ### The P/Q code -/

/-- The parity loop reads only the bytes below `size`. -/
theorem parityWalk_congr (r r' : Bytes) (size inc : Nat) (hi : inc ≤ size) (h : ∀ i, i < size → byteAt r i = byteAt r' i) :
    ∀ n idx a b, idx < size → parityWalk r size inc n idx a b = parityWalk r' size inc n idx a b := by
  intro n
  induction n with
  | zero => intros; rfl
  | succ n ih =>
    intro idx a b hx
    unfold parityWalk
    rw [h idx hx]
    exact ih _ _ _ (by split_ifs <;> omega)

/-- The parity of a region is a function of the bytes its codewords cover. -/
theorem eccParity_congr (r r' : Bytes) (mc nc mm mi : Nat) (hi : mi ≤ mc * nc)
    (hs : ∀ j, j < mc → (j >>> 1) * mm + (j &&& 1) < mc * nc)
    (h : ∀ i, i < mc * nc → byteAt r i = byteAt r' i) : eccParity r mc nc mm mi = eccParity r' mc nc mm mi := by
  unfold eccParity codewordParity
  congr 1
  · apply List.map_congr_left; intro j hj
    rw [parityWalk_congr r r' _ _ hi h _ _ _ _ (hs j (List.mem_range.mp hj))]
  · apply List.map_congr_left; intro j hj
    rw [parityWalk_congr r r' _ _ hi h _ _ _ _ (hs j (List.mem_range.mp hj))]

theorem pParity_congr (r r' : Bytes) (h : ∀ i, i < 2064 → byteAt r i = byteAt r' i) : pParity r = pParity r' :=
  eccParity_congr r r' 86 24 2 86 (by omega) (by decide) h

theorem qParity_congr (r r' : Bytes) (h : ∀ i, i < 2236 → byteAt r i = byteAt r' i) : qParity r = qParity r' :=
  eccParity_congr r r' 52 43 86 88 (by omega) (by decide) h

@[simp] theorem length_pParity (r : Bytes) : (pParity r).length = 172 := by simp [pParity]

@[simp] theorem length_qParity (r : Bytes) : (qParity r).length = 104 := by simp [qParity]

/-- The bytes of the working copy the parity is computed from (R149). -/
theorem byteAt_parityRegion (sec : Bytes) (z : Bool) (h : 2352 ≤ sec.length) (i : Nat) (hi : i < 2236) :
    byteAt (parityRegion sec z) i = if z = true ∧ i < 4 then 0 else byteAt sec (0x00C + i) := by
  unfold parityRegion
  cases z
  · simp [byteAt_slice, hi]
  · simp only [if_true]
    rw [byteAt_splice _ _ _ _ (by simp; omega), byteAt_slice, byteAt_replicate]
    by_cases c : i < 4
    · simp [c]
    · simp [c, hi]

theorem length_parityRegion (sec : Bytes) (z : Bool) (h : 2352 ≤ sec.length) : (parityRegion sec z).length = 2236 := by
  unfold parityRegion
  cases z
  · simp; omega
  · simp only [if_true]; rw [length_splice] <;> simp <;> omega

/-- The bytes of a sector with its parity written (R149). -/
theorem byteAt_eccWrite (sec : Bytes) (z : Bool) (h : 2352 ≤ sec.length) (k : Nat) :
    byteAt (eccWrite sec z) k =
      if 0x81C ≤ k ∧ k < 0x8C8 then byteAt (pParity (parityRegion sec z)) (k - 0x81C)
      else if 0x8C8 ≤ k ∧ k < 0x930 then byteAt (qParity (splice (parityRegion sec z) 2064 (pParity (parityRegion sec z)))) (k - 0x8C8)
      else byteAt sec k := by
  unfold eccWrite
  have e1 : (splice sec 0x81C (pParity (parityRegion sec z))).length = sec.length := length_splice _ _ _ (by simp; omega)
  rw [byteAt_splice _ _ _ _ (by rw [e1]; simp; omega), byteAt_splice _ _ _ _ (by simp; omega)]
  simp only [length_pParity, length_qParity]
  grind

/-- The bytes of a sector with its EDC field written (R150). -/
theorem byteAt_withEdc (tt : TrackType) (hi : Nat) (e : Word) (src : Bytes) (h : 2352 ≤ src.length) (hh : hi + 4 ≤ 2352) (k : Nat) :
    byteAt (withEdc tt hi e src) k = if tt = .mode1 ∧ 0x814 ≤ k ∧ k < 0x81C then 0 else if hi ≤ k ∧ k < hi + 4 then byteAt (u32le e) (k - hi) else byteAt src k := by
  unfold withEdc
  have h1 : (splice src hi (u32le e)).length = src.length := length_splice _ _ _ (by simp; omega)
  have h2 : byteAt (splice src hi (u32le e)) k = if hi ≤ k ∧ k < hi + 4 then byteAt (u32le e) (k - hi) else byteAt src k := by
    rw [byteAt_splice _ _ _ _ (by simp; omega)]; rfl
  by_cases hm : tt = .mode1
  · simp only [hm, if_true, true_and]
    rw [byteAt_splice _ _ _ _ (by simp [h1]; omega), byteAt_replicate, h2]
    simp only [List.length_replicate]
    by_cases c : 0x814 ≤ k ∧ k < 0x81C
    · rw [if_pos c, if_pos c]; split_ifs <;> rfl
    · rw [if_neg c, if_neg c]
  · simp only [hm, if_false, false_and]; exact h2

/-- The bytes of the region a sector's codewords lie in (R170). -/
theorem byteAt_eccRegion (tt : TrackType) (src : Bytes) (h : 2352 ≤ src.length) (k : Nat) (hk : k < 2340) :
    byteAt (eccRegion tt src) k = if tt = .mode2Form1 ∧ k < 4 then 0 else byteAt src (0x00C + k) := by
  unfold eccRegion
  by_cases hm : tt = .mode2Form1
  · simp only [hm, if_true, true_and]
    rw [byteAt_splice _ _ _ _ (by simp; omega), byteAt_slice, byteAt_replicate]
    simp only [List.length_replicate]
    by_cases c : k < 4
    · simp [c]
    · simp [c]; omega
  · simp only [hm, if_false, false_and]
    rw [byteAt_slice, if_pos (by omega)]

/-- The positions of a P codeword (R171). -/
theorem ppos_lt (j : Nat) (h : j < 86) : ∀ k ∈ ppos j, k < 2236 := by
  intro k hk
  simp only [ppos, List.mem_append, List.mem_map, List.mem_range, List.mem_cons, List.not_mem_nil, or_false] at hk
  rcases hk with ⟨i, hi, rfl⟩ | rfl | rfl <;> omega

/-- The positions of a Q codeword (R171). -/
theorem qpos_lt (j : Nat) (h : j < 52) : ∀ k ∈ qpos j, k < 2340 := by
  intro k hk
  simp only [qpos, List.mem_append, List.mem_map, List.mem_range, List.mem_cons, List.not_mem_nil, or_false] at hk
  rcases hk with ⟨i, hi, rfl⟩ | rfl | rfl
  · have := Nat.mod_lt (((j >>> 1) * 86 + (j &&& 1) + 88 * i)) (show 2236 > 0 by omega); omega
  · omega
  · omega

/-- The symbols of a codeword, where the bytes of the region are known. -/
theorem symbols_congr (r : Bytes) (f : Nat → Byte) (pos : List Nat) (n : Nat) (hp : ∀ k ∈ pos, k < n) (h : ∀ k, k < n → byteAt r k = f k) :
    symbols r pos = pos.map f := by
  unfold symbols; apply List.map_congr_left; intro k hk; exact h k (hp k hk)

/-- The two bytes a codeword contributes to the output of `ECCSYN`. -/
theorem byteAt_flatMap2 (l : List (List Nat)) (f : List Nat → Byte × Byte) (j : Nat) (hj : j < l.length) :
    byteAt (l.flatMap fun p => [(f p).1, (f p).2]) (2 * j) = (f (l[j])).1 ∧ byteAt (l.flatMap fun p => [(f p).1, (f p).2]) (2 * j + 1) = (f (l[j])).2 := by
  induction l generalizing j with
  | nil => simp at hj
  | cons a l ih =>
    simp only [List.flatMap_cons]
    cases j with
    | zero => exact ⟨rfl, rfl⟩
    | succ j =>
      have := ih j (by simpa using hj)
      rw [byteAt_append, byteAt_append]
      simp only [List.length_cons, List.length_nil]
      rw [if_neg (by omega), if_neg (by omega)]
      simpa [show 2 * (j + 1) - 2 = 2 * j by omega, show 2 * (j + 1) + 1 - 2 = 2 * j + 1 by omega] using this

/-! ### The descrambler -/

/-- The bytes of a DVD sector with a keystream applied (R204). -/
theorem byteAt_dvdApply (sec k : Bytes) (hk : k.length = 2048) (i : Nat) (hi : i < sec.length) :
    byteAt (dvdApply sec k) i = if 12 ≤ i ∧ i < 2060 then byteAt sec i ^^^ byteAt k (i - 12) else byteAt sec i := by
  unfold dvdApply
  rw [byteAt_append, List.length_take]
  split_ifs with h1 h2 h2
  · omega
  · rw [byteAt_take, if_pos (by omega)]
  · rw [byteAt_xorPrefix _ _ _ (by simp; omega), byteAt_drop]
    congr 2 <;> omega
  · by_cases hs : sec.length ≤ 12
    · omega
    · rw [byteAt_xorPrefix _ _ _ (by simp; omega), byteAt_drop]
      have : byteAt k (i - min 12 sec.length) = 0 := by
        unfold byteAt; rw [List.getD_eq_default]; omega
      rw [this]; simp; congr 1; omega

/-- The bytes of an unscrambled sector the DVD EDC is taken over (R206). -/
theorem take_dvdApply (sec : Bytes) (x : Seed) (h : sec.length = 2064) :
    (dvdApply sec (keystream x)).take 2060 = (List.range 2060).map fun k =>
      if 12 ≤ k then byteAt sec k ^^^ byteAt (keystream x) (k - 12) else byteAt sec k := by
  refine bytes_ext (by simp [dvdApply, h]) fun i hi => ?_
  have hi' : i < 2060 := by simp at hi; omega
  rw [byteAt_take, if_pos hi', byteAt_dvdApply _ _ (length_keystream x) _ (by omega)]
  by_cases h12 : 12 ≤ i
  · rw [if_pos ⟨h12, hi'⟩]; simp [byteAt, hi', h12]
  · rw [if_neg fun h => h12 h.1]; simp [byteAt, hi', h12]

/-- Four bytes, most significant first, as a number (R13). -/
theorem u32be_toNat (a b c d : Byte) :
    (u32be a b c d).toNat = a.toNat * 2 ^ 24 + b.toNat * 2 ^ 16 + c.toNat * 2 ^ 8 + d.toNat := by
  have := a.isLt; have := b.isLt; have := c.isLt; have := d.isLt
  simp only [u32be, BitVec.toNat_append, Nat.shiftLeft_eq]
  rw [← Nat.shiftLeft_eq, ← Nat.shiftLeft_add_eq_or_of_lt (by omega), ← Nat.shiftLeft_eq,
    ← Nat.shiftLeft_add_eq_or_of_lt (by omega), ← Nat.shiftLeft_eq, ← Nat.shiftLeft_add_eq_or_of_lt (by omega)]
  simp only [Nat.shiftLeft_eq]
  omega

/-- The instance after a found seed (R210): the hint is the seed, and the cache holds it. -/
theorem DvdInstance.record_spec (d : DvdInstance) (x : Seed) :
    (d.record x).last = some x ∧ (d.record x).cache = (if x ∈ d.cache then d.cache else d.cache ++ [x]) ∧
      x ∈ (d.record x).cache := by
  refine ⟨rfl, rfl, ?_⟩
  simp only [DvdInstance.record]
  split_ifs with h <;> simp [h]

/-- A search without a candidate that verifies finds no seed, after all of them (R210). -/
theorem tryCandidates_notFound (c : Config) (sec : Bytes) (l : List (Stage × Seed)) (n : Nat)
    (h : ∀ p ∈ l, verify c sec p.2 = false) : tryCandidates c sec n l = .notFound (n + l.length) := by
  induction l generalizing n with
  | nil => rfl
  | cons p l ih =>
    simp only [tryCandidates, h p (by simp), Bool.false_eq_true, if_false]
    rw [ih (n + 1) fun p hp => h p (by simp [hp])]
    simp only [List.length_cons, SearchResult.notFound.injEq]
    omega

/-- A hint that verifies is found at the first trial (R208, R210). -/
theorem search_hint (c : Config) (d : DvdInstance) (sec : Bytes) (x : Seed) (hd : d.last = some x)
    (hv : verify c sec x = true) : search c d sec = .found x 1 .hint := by
  simp [search, candidates, hd, tryCandidates, hv]

/-! ### The subchannel codec -/

/-- A byte of the output made piece by piece lies in the image of its piece. -/
theorem byteAt_mapPieces (size size' : Nat) (f : Bytes → Bytes) (hf : ∀ b, (f b).length = size') (_hs : 0 < size') (n : Nat) (b : Bytes) (r i : Nat) (hr : r < n) (hi : i < size') :
    byteAt (mapPieces size f n b) (size' * r + i) = byteAt (f (slice b (size * r) (size * (r + 1)))) i := by
  induction n generalizing b r with
  | zero => omega
  | succ n ih =>
    simp only [mapPieces, byteAt_append, hf]
    cases r with
    | zero => simp [hi, slice]
    | succ r =>
      rw [if_neg (by rw [Nat.mul_succ]; omega)]
      have e1 : size' * (r + 1) + i - size' = size' * r + i := by rw [Nat.mul_succ]; omega
      rw [e1, ih _ _ (by omega)]
      congr 2
      simp only [slice, List.drop_drop]
      congr 1
      · rw [Nat.mul_succ, Nat.mul_succ, Nat.mul_succ]; omega
      · rw [Nat.mul_succ, Nat.add_comm]

/-- A byte put together bit by bit from the most significant end. -/
theorem foldl_or_bit (n : Nat) (g : Nat → Bool) (v : Byte) (b : Nat) (hb : b < 8) :
    ((List.range n).foldl (fun (v : Byte) c => v ||| (if g c then (1 : Byte) <<< (7 - c) else 0)) v).getLsbD b = (v.getLsbD b || (List.range n).any fun c => g c && decide (7 - c = b)) := by
  induction n with
  | zero => simp
  | succ n ih =>
    rw [List.range_succ, List.foldl_append, List.any_append]
    simp only [List.foldl_cons, List.foldl_nil, BitVec.getLsbD_or, ih, List.any_cons, List.any_nil, Bool.or_false, Bool.or_assoc]
    congr 1; congr 1
    cases g n
    · simp
    · simp only [if_true, Bool.true_and]
      have : (1 : Byte) <<< (7 - n) = BitVec.twoPow 8 (7 - n) := by simp [BitVec.twoPow]
      rw [this, BitVec.getLsbD_twoPow]
      simp; omega

/-- One bit moved from place `7 - k` to place `7 - c`. -/
theorem bit_term (x : Byte) (k c : Nat) (_hc : c < 8) : ((x >>> (7 - k)) &&& 1) <<< (7 - c) = if x.getLsbD (7 - k) then (1 : Byte) <<< (7 - c) else 0 := by
  have h : (x >>> (7 - k)) &&& 1 = if x.getLsbD (7 - k) then (1 : Byte) else 0 := by
    apply BitVec.eq_of_getLsbD_eq; intro j hj
    by_cases hb : x.getLsbD (7 - k) <;> cases j <;> simp_all
  rw [h]; split_ifs <;> simp

/-- The bit move of the interleaver (R238). -/
theorem interleavedByte_bit (d : Bytes) (g k c : Nat) (hc : c < 8) (_hk : k < 8) : (interleavedByte d g k).getLsbD (7 - c) = (byteAt d (12 * c + g)).getLsbD (7 - k) := by
  unfold interleavedByte
  have : ∀ v : Byte, (List.range 8).foldl (fun v c => v ||| (((byteAt d (12 * c + g) >>> (7 - k)) &&& 1) <<< (7 - c))) v = (List.range 8).foldl (fun (v : Byte) c => v ||| (if (byteAt d (12 * c + g)).getLsbD (7 - k) then (1 : Byte) <<< (7 - c) else 0)) v := by
    intro v
    apply List.foldl_ext
    intro a c hc
    rw [bit_term _ _ _ (List.mem_range.mp hc)]
  rw [this, foldl_or_bit _ _ _ _ (by omega)]
  simp only [BitVec.ofNat_eq_ofNat, BitVec.getLsbD_zero, Bool.false_or]
  have hr : List.range 8 = [0,1,2,3,4,5,6,7] := rfl
  rw [hr]
  interval_cases c <;> simp

/-- The bit move of the deinterleaver (R238). -/
theorem deinterleavedByte_bit (o : Bytes) (c g k : Nat) (_hc : c < 8) (hk : k < 8) : (deinterleavedByte o c g).getLsbD (7 - k) = (byteAt o (8 * g + k)).getLsbD (7 - c) := by
  unfold deinterleavedByte
  have : ∀ v : Byte, (List.range 8).foldl (fun v k => v ||| (((byteAt o (8 * g + k) >>> (7 - c)) &&& 1) <<< (7 - k))) v = (List.range 8).foldl (fun (v : Byte) k => v ||| (if (byteAt o (8 * g + k)).getLsbD (7 - c) then (1 : Byte) <<< (7 - k) else 0)) v := by
    intro v
    apply List.foldl_ext
    intro a c hc
    rw [bit_term _ _ _ (List.mem_range.mp hc)]
  rw [this, foldl_or_bit _ _ _ _ (by omega)]
  simp only [BitVec.ofNat_eq_ofNat, BitVec.getLsbD_zero, Bool.false_or]
  have hr : List.range 8 = [0,1,2,3,4,5,6,7] := rfl
  rw [hr]
  interval_cases k <;> simp

/-- A byte of a sequence of rows. -/
theorem byteAt_flatMap (m n : Nat) (f : Nat → Nat → Byte) (i j : Nat) (hi : i < m) (hj : j < n) :
    byteAt ((List.range m).flatMap fun i => (List.range n).map fun j => f i j) (n * i + j) = f i j := by
  induction m with
  | zero => omega
  | succ m ih =>
    rw [List.range_succ, List.flatMap_append, byteAt_append]
    have hl : ((List.range m).flatMap fun i => (List.range n).map fun j => f i j).length = n * m := by
      simp [List.length_flatMap]; ring
    rw [hl]
    by_cases c : i < m
    · have : n * i + j < n * m := by nlinarith
      rw [if_pos this]; exact ih c
    · have : i = m := by omega
      subst this
      rw [if_neg (by omega)]
      simp [byteAt, hj]

/-- A byte of an interleaved frame (R239). -/
theorem byteAt_interleave (d : Bytes) (g k : Nat) (hg : g < 12) (hk : k < 8) : byteAt (interleaveFrame d) (8 * g + k) = interleavedByte d g k :=
  byteAt_flatMap 12 8 (fun g k => interleavedByte d g k) g k hg hk

/-- A byte of a deinterleaved frame (R239). -/
theorem byteAt_deinterleave (d : Bytes) (c g : Nat) (hg : g < 12) (hc : c < 8) : byteAt (deinterleaveFrame d) (12 * c + g) = deinterleavedByte d c g :=
  byteAt_flatMap 8 12 (fun c g => deinterleavedByte d c g) c g hc hg

end Sys2Proof.Machine
end

