-- ==== Sys2Proof/Laws/PerInstr.lean ====
section
/-! SUPPORT. Statements made for all instructions, one lemma per constructor of Instr. -/

namespace Sys2Proof.Laws.EncodeMatch

open Sys2Proof

/-- The encoder against the opcode map R94: the block that has the ECC decoder has the row with the command's `OPC`, that
row builds the command from its word, and the word has the row's pattern under its mask. -/
def Statement (i : Instr) : Prop :=
  ∃ r, findRow true i.opc = some r ∧ r.build (encode i) = i ∧ encode i &&& r.mask = r.pattern

theorem nop : Statement .nop := ⟨_, rfl, rfl, rfl⟩

theorem edc : Statement .edc := ⟨_, rfl, rfl, rfl⟩

theorem rprefix (tt : TrackType) : Statement (.rprefix tt) := by
  cases tt <;> exact ⟨_, rfl, rfl, rfl⟩

theorem recc (tt : TrackType) : Statement (.recc tt) := by
  cases tt <;> exact ⟨_, rfl, rfl, rfl⟩

theorem eccsyn (tt : TrackType) : Statement (.eccsyn tt) := by
  cases tt <;> exact ⟨_, rfl, rfl, rfl⟩

theorem eccfix (tt : TrackType) : Statement (.eccfix tt) := by
  cases tt <;> exact ⟨_, rfl, rfl, rfl⟩

theorem cdscr : Statement .cdscr := ⟨_, rfl, rfl, rfl⟩

theorem dvdtest : Statement .dvdtest := ⟨_, rfl, rfl, rfl⟩

theorem dvdseed : Statement .dvdseed := ⟨_, rfl, rfl, rfl⟩

theorem dvdscr : Statement .dvdscr := ⟨_, rfl, rfl, rfl⟩

theorem dvdscrb : Statement .dvdscrb := ⟨_, rfl, rfl, rfl⟩

theorem dvdrst : Statement .dvdrst := ⟨_, rfl, rfl, rfl⟩

theorem qbin2bcd : Statement .qbin2bcd := ⟨_, rfl, rfl, rfl⟩

theorem qbcd2bin : Statement .qbcd2bin := ⟨_, rfl, rfl, rfl⟩

theorem q2raw : Statement .q2raw := ⟨_, rfl, rfl, rfl⟩

theorem intlv : Statement .intlv := ⟨_, rfl, rfl, rfl⟩

theorem deintlv : Statement .deintlv := ⟨_, rfl, rfl, rfl⟩

theorem qparse (qf : QFlags) : Statement (.qparse qf) := by
  obtain ⟨a, b, c, d⟩ := qf
  cases a <;> cases b <;> cases c <;> cases d <;> exact ⟨_, rfl, rfl, rfl⟩

end Sys2Proof.Laws.EncodeMatch
end

