-- ==== Sys2Proof/Tests/Slice0.lean ====
section
/-! SUPPORT. The model's own tests. Their expected values come from spec/95_test_vectors.md (the vector is named in the
docstring) or are worked out by hand from the rule a docstring names. After them, one state for every hypothesis of the
statements in Certificates/Slice0/Obligations.lean, under the statement's name. -/

namespace Sys2Proof.Tests

-- One test at a time: many at once would each take a thread, and the threads' stacks add up.
set_option Elab.async false

open Sys2Proof Sys2Proof.Machine

/-! ### Helpers -/

/-- The block after reset with bytes at address 0, `SRC` and `LEN` naming them, and `DST` 0x8000. -/
def holding (bs : Bytes) : State :=
  { State.reset with mem := Memory.writeBytes [] 0 bs, len := BitVec.ofNat 32 bs.length, dst := 0x8000 }

/-- A state with one event of the host before it. -/
def State.facing (s : State) (e : HostEvent) : State := { s with host := [e] }

/-- The state a step answers, or the state itself where it answers none. -/
def after (s : State) : State :=
  match step s with
  | .next t => t
  | _ => s

/-- The state after the host's write of a command word. -/
def afterWord (s : State) (w : Word) : State := after { s with host := [wr cmdOffset w] }

/-- `STATUS`, `OLEN`, `RES0` and the first bytes at `DST` after a command word. -/
def shows (s : State) (w : Word) (n : Nat) : Word × Word × Word × Bytes :=
  let t := afterWord s w
  (t.status, t.olen, t.res0, t.mem.readBytes t.dst.toNat n)

def zeros (n : Nat) : Bytes := List.replicate n 0

@[simp] theorem length_zeros (n : Nat) : (zeros n).length = n := List.length_replicate

@[simp] theorem byteAt_zeros (n i : Nat) : byteAt (zeros n) i = 0 := by
  rw [zeros, byteAt_replicate]
  split_ifs <;> rfl

/-! ### WellFormed refuses ill-formed terms -/

theorem test_memSize_low : { Config.standard with memSize := 4703 }.wellFormed = false := by decide

theorem test_memSize_high : { Config.standard with memSize := 2 ^ 31 + 1 }.wellFormed = false := by decide

theorem test_memSize_bounds : { Config.standard with memSize := 4704 }.wellFormed = true ∧
    { Config.standard with memSize := 2 ^ 31 }.wellFormed = true := by decide

theorem test_scramble_length : { Config.standard with scramble := .other [0] }.wellFormed = false := by decide

theorem test_scramble_head : { Config.standard with scramble := .other (1 :: zeros 2351) }.wellFormed = false := by
  decide +kernel

theorem test_seeds_length : { Config.standard with ecmaSeeds := .other (List.replicate 15 0) }.wellFormed = false := by
  decide

theorem test_isrc_length : { Config.standard with isrc := .other (zeros 63) }.wellFormed = false := by decide

theorem test_eccDec_absent : (Instr.eccsyn .mode1).wellFormed false = false ∧
    (Instr.eccfix .mode1).wellFormed false = false := by decide

/-! ### Decoding, each word written out from the opcode map R94 -/

theorem test_decode_nop : decode true 0b0000000000000000_0000_0_000_00000000#32 = .ok .nop := by decide
theorem test_decode_edc : decode true 0b0000000000000000_0000_0_000_00010000#32 = .ok .edc := by decide
theorem test_decode_rprefix : decode true 0b0000000000000000_0000_0_100_00010001#32 = .ok (.rprefix .mode2Formless) := by
  decide
theorem test_decode_recc : decode true 0b0000000000000000_0000_0_010_00010010#32 = .ok (.recc .mode2Form1) := by decide
theorem test_decode_eccsyn : decode true 0b0000000000000000_0000_0_101_00010011#32 = .ok (.eccsyn .tt5) := by decide
theorem test_decode_eccfix : decode true 0b0000000000000000_0000_0_001_00010100#32 = .ok (.eccfix .mode1) := by decide
theorem test_decode_cdscr : decode true 0b0000000000000000_0000_0_000_00100000#32 = .ok .cdscr := by decide
theorem test_decode_dvdtest : decode true 0b0000000000000000_0000_0_000_00110000#32 = .ok .dvdtest := by decide
theorem test_decode_dvdseed : decode true 0b0000000000000000_0000_0_000_00110001#32 = .ok .dvdseed := by decide
theorem test_decode_dvdscr : decode true 0b0000000000000000_0000_0_000_00110010#32 = .ok .dvdscr := by decide
theorem test_decode_dvdscrb : decode true 0b0000000000000000_0000_0_000_00110011#32 = .ok .dvdscrb := by decide
theorem test_decode_dvdrst : decode true 0b0000000000000000_0000_0_000_00110100#32 = .ok .dvdrst := by decide
theorem test_decode_qbin2bcd : decode true 0b0000000000000000_0000_0_000_01000000#32 = .ok .qbin2bcd := by decide
theorem test_decode_qbcd2bin : decode true 0b0000000000000000_0000_0_000_01000001#32 = .ok .qbcd2bin := by decide
theorem test_decode_q2raw : decode true 0b0000000000000000_0000_0_000_01000010#32 = .ok .q2raw := by decide
theorem test_decode_intlv : decode true 0b0000000000000000_0000_0_000_01000011#32 = .ok .intlv := by decide
theorem test_decode_deintlv : decode true 0b0000000000000000_0000_0_000_01000100#32 = .ok .deintlv := by decide
theorem test_decode_qparse : decode true 0b0000000000000000_0010_0_000_01000101#32 =
    .ok (.qparse { bcd := false, corruptedPause := true, pause := false, rwEmpty := false }) := by decide

/-- Vectors X2 to X9 and X11. -/
theorem test_decode_errors : decode true 0x00000100 = .error .rsvd ∧ decode true 0x00000001 = .error .illop ∧
    decode true 0xFFFFFFFF = .error .illop ∧ decode true 0x00000812 = .error .rsvd ∧
    decode true 0x00010012 = .error .rsvd ∧ decode true 0x00001012 = .error .rsvd ∧
    decode true 0x00000145 = .error .rsvd ∧ decode true 0x80000020 = .error .rsvd ∧
    decode false 0x00000113 = .error .illop := by decide

/-- R97: a command line of the assembler. -/
theorem test_asm : (Instr.qparse ⟨true, false, true, false⟩).asm = "QPARSE BCD,PAUSE" ∧
    (Instr.recc .mode2Formless).asm = "RECC M2FL" := by decide

/-! ### One step of each command -/

/-- Vector X1. -/
theorem test_nop : (afterWord State.reset 0).status = 0x00000003 := by decide +kernel

/-- Vector X2. -/
theorem test_reserved_bit : (afterWord State.reset 0x100).status = 0x00000204 ∧
    (afterWord State.reset 0x100).errlog = 0x00000004 := by decide +kernel

/-- Vector E1. -/
theorem test_edc : shows (holding [0x31, 0x32, 0x33, 0x34, 0x35, 0x36, 0x37, 0x38, 0x39]) 0x10 0 =
    (0x10000003, 0, 0x6EC2EDC4, []) := by decide +kernel

/-- Vector E9. -/
theorem test_edc_seed : shows { holding (zeros 4) with edcseed := 0xFFFFFFFF } 0x10 0 =
    (0x10000003, 0, 0xAF010001, []) := by decide +kernel

/-- Vector G2. -/
theorem test_rprefix : ((rprefixResult .mode1 449849 (zeros 2352)).out.drop 11).take 6 =
    [0x00, 0x99, 0x59, 0x74, 0x01, 0x00] := by decide +kernel

/-- Vector G10. -/
theorem test_rprefix_subheader :
    ((rprefixResult .mode2Form1 16 (zeros 16 ++ [0xAA, 0xBB, 0xCC, 0xDD, 1, 2, 8, 0] ++ zeros 2328)).out.drop 12).take 12 =
    [0x00, 0x02, 0x16, 0x02, 1, 2, 8, 0, 1, 2, 8, 0] := by decide +kernel

/-- Vectors G7 and G9, by hand for their lengths. -/
theorem test_recc_length : shows (holding (zeros 3)) 0x12 3 = (0x12000011, 3, 0, zeros 3) := by decide +kernel

/-- The golden sector of section 4: both parity bytes of P codewords 1 and 3, whose only non-zero data bytes are the
header bytes 0x00D and 0x00F. -/
theorem test_recc_parity : codewordParity [0x00, 0x02, 0x00, 0x01] 86 24 2 86 1 = (0xF7, 0xF5) ∧
    codewordParity [0x00, 0x02, 0x00, 0x01] 86 24 2 86 3 = (0xF5, 0xF4) := by decide +kernel

/-- The same codeword 1 has zero syndromes, and the function vector of section 5 with `c_2 = 0x5A` has not. -/
theorem test_eccsyn_syndromes : syndromes ([0x02] ++ zeros 23 ++ [0xF7, 0xF5]) = (0, 0) ∧
    syndromes ([0, 0, 0x5A] ++ zeros 23) = (0x5A, 0xB5) := by decide +kernel

/-- The geometry of section 5: `ppos(85)` and `qpos(51)`. -/
theorem test_eccsyn_geometry : (ppos 85).drop 23 = [2063, 2149, 2235] ∧ (qpos 51).take 3 = [2151, 3, 91] ∧
    (qpos 51).drop 42 = [1375, 2287, 2339] := by decide +kernel

/-- The function vectors of section 5. -/
theorem test_eccfix_locate : locate 0x5A 0xB5 26 = some 2 ∧ locate 0x05 0x5E 26 = some 5 ∧
    locate 0x01 (gexp 26) 26 = none ∧ locate 0x01 (gexp 44) 45 = some 0 := by decide +kernel

/-- R177: a correction in one of the four locked bytes is given up. -/
theorem test_eccfix_lock : fixCodeword true ⟨[7, 0, 0, 0, 0], 0, 0⟩ [0, 1, 2, 3, 4] = ⟨[7, 0, 0, 0, 0], 0, 1⟩ ∧
    fixCodeword false ⟨[7, 0, 0, 0, 0], 0, 0⟩ [0, 1, 2, 3, 4] = ⟨[0, 0, 0, 0, 0], 1, 0⟩ := by decide +kernel

/-- Vector K1. -/
theorem test_cdscr_table : (scrambleStream 16 1) =
    [0x01, 0x80, 0x00, 0x60, 0x00, 0x28, 0x00, 0x1E, 0x80, 0x08, 0x60, 0x06, 0xA8, 0x02, 0xFE, 0x81] := by
  decide +kernel

/-- Vector K7. -/
theorem test_cdscr_length : shows (holding (zeros 11)) 0x20 11 = (0x20000011, 11, 0, zeros 11) := by decide +kernel

/-- The LFSR vectors of section 7. -/
theorem test_dvd_lfsr : lfsrTick 0x4400 = (0x0800, true) ∧ lfsrTick 0x0400 = (0x0801, false) ∧
    lfsrByte 0x5500 = (0x000A, 0xAA) ∧ lfsrByte 0x7F80 = (0x000F, 0xFF) := by decide +kernel

/-- The keystream of seed 0x1234 in section 7. -/
theorem test_dvd_keystream : (keystream 0x1234).take 6 = [0x24, 0x68, 0xC5, 0xC9, 0x32, 0xB4] := by decide +kernel

/-- The `DVD_EDC` vector of section 7. -/
theorem test_dvd_edc : dvdEdcStandard [0x31, 0x32, 0x33, 0x34, 0x35, 0x36, 0x37, 0x38, 0x39] = 0xB27CE117 := by
  decide +kernel

/-- Vector V9, by hand for the length. -/
theorem test_dvdtest_length : shows (holding (zeros 5)) 0x30 0 = (0x30000011, 0, 0, []) := by decide +kernel

/-- Vector V9, by hand for the length: no byte is copied. -/
theorem test_dvdseed_length : shows (holding (zeros 5)) 0x31 1 = (0x31000011, 0, 0, [0xA5]) := by decide +kernel

/-- Vector V9, by hand for the length: the bytes are copied. -/
theorem test_dvdscr_length : shows (holding (zeros 5)) 0x32 6 = (0x32000011, 5, 0, zeros 5 ++ [0xA5]) := by decide +kernel

/-- Vector V12. -/
theorem test_dvdscrb_empty : shows (holding []) 0x33 1 = (0x33000001, 0, 0, [0xA5]) := by decide +kernel

/-- Vector V11, by hand for the length. -/
theorem test_dvdscrb_length : shows { holding (zeros 5) with xfer := 1 } 0x33 5 = (0x33000011, 5, 0, zeros 5) := by
  decide +kernel

/-- Vector V14. -/
theorem test_dvdrst : (afterWord { holding [] with dvd := ⟨some 0x1234, [0x0080, 0x1234]⟩ } 0x34).dvd = ⟨none, []⟩ ∧
    (afterWord (holding []) 0x34).status = 0x34000003 := by decide +kernel

/-- Vector B2. -/
theorem test_qbin2bcd : shows (holding [0x41, 0x01, 0x01, 0x00, 0x02, 0x3B, 0x00, 0x00, 0x04, 0x3B, 0x7F, 0x46]) 0x40 12 =
    (0x40000002, 12, 0, [0x41, 0x01, 0x01, 0x00, 0x02, 0x59, 0x00, 0x00, 0x04, 0x59, 0x7F, 0x46]) := by decide +kernel

/-- Vector B4. -/
theorem test_qbin2bcd_range :
    shows (holding [0x41, 0x01, 0x01, 0x00, 0x02, 0x64, 0x00, 0x00, 0x04, 0x3B, 0x7F, 0x46]) 0x40 12 =
    (0x40000051, 12, 0, [0x41, 0x01, 0x01, 0x00, 0x02, 0x64, 0x00, 0x00, 0x04, 0x3B, 0x7F, 0x46]) := by decide +kernel

/-- Vector B1. -/
theorem test_qbcd2bin : shows (holding [0x41, 0x01, 0x01, 0x00, 0x02, 0x59, 0x00, 0x00, 0x04, 0x59, 0x7F, 0x46]) 0x41 12 =
    (0x41000002, 12, 0, [0x41, 0x01, 0x01, 0x00, 0x02, 0x3B, 0x00, 0x00, 0x04, 0x3B, 0x7F, 0x46]) := by decide +kernel

/-- Vector B6. -/
theorem test_qbcd2bin_range : shows (holding (0x00 :: 0x9A :: zeros 10)) 0x41 2 = (0x41000051, 12, 0, [0x00, 0x9A]) := by
  decide +kernel

/-- Vector R1, the first two groups of its first frame. -/
theorem test_q2raw : shows (holding
      [0x41, 0x01, 0x01, 0x00, 0x02, 0x59, 0x00, 0x00, 0x04, 0x59, 0x7F, 0x46, 0x00, 0x00, 0x00, 0x80]) 0x42 16 =
    (0x42000002, 96, 1, [0x80, 0xC0, 0x80, 0x80, 0x80, 0x80, 0x80, 0xC0, 0x80, 0x80, 0x80, 0x80, 0x80, 0x80, 0x80, 0xC0]) := by
  decide +kernel

/-- Vector R3. -/
theorem test_q2raw_length : shows (holding (zeros 17)) 0x42 0 = (0x42000011, 17, 0, []) := by decide +kernel

/-- Vector I5, the first group. -/
theorem test_intlv : interleaveFrame ((List.range 96).map fun k => BitVec.ofNat 8 (k / 12)) =
    ((List.replicate 12 ([0x00, 0x00, 0x00, 0x00, 0x00, 0x0F, 0x33, 0x55] : Bytes)).flatten) := by decide +kernel

/-- Vector I11. -/
theorem test_intlv_empty : shows (holding []) 0x43 1 = (0x43000002, 0, 0, [0xA5]) := by decide +kernel

/-- Vector I8. -/
theorem test_deintlv : shows (holding (List.replicate 96 0x40)) 0x44 96 =
    (0x44000002, 96, 1, zeros 12 ++ List.replicate 12 0xFF ++ zeros 72) := by decide +kernel

/-- Vector I10. -/
theorem test_deintlv_length : (shows (holding (zeros 95)) 0x44 0) = (0x44000011, 95, 0, []) := by decide +kernel

/-- Vector Q1. -/
theorem test_qparse : (afterWord
      { holding [0x41, 0x01, 0x01, 0x00, 0x02, 0x59, 0x00, 0x00, 0x04, 0x59, 0x7F, 0x46] with lba := 209 } 0x1045).q =
    ⟨0x0020141D, 0x0000043B, 0x02000101, 0x0400003B, 0x0001FF3B, 0, 0, 0⟩ := by decide +kernel

/-- Vector Q14. -/
theorem test_qparse_isrc : (afterWord
      { holding [0x03, 0x96, 0x38, 0x93, 0x04, 0x76, 0x07, 0x83, 0x90, 0x41, 0x41, 0x79] with lba := 2000 } 0x1045).q =
    ⟨0x0122103D, 0x00001C32, 0x045D2660, 0x5A53074C, 0x0001FF29, 0x55535243, 0x31373630, 0x37383339⟩ := by decide +kernel

/-- R282, R283, R29: a byte stored and read back, `SEED` keeps 15 bits, `LASTSEED` of a set hint 0x1234. -/
theorem test_port : (after (State.facing (after (State.facing State.reset (wrb 5 0xC3))) (rdb 5))).rdata = 0xC3 ∧
    (after (State.facing State.reset (wr 0x2C 0xFFFFFFFF))).seed = 0x7FFF ∧
    (after (State.facing { State.reset with dvd := ⟨some 0x1234, [0x1234]⟩ } (rd 0x44))).rdata = 0x9234 := by
  decide +kernel

/-- R61, R308: a misaligned write changes `ERRLOG` bit 5 alone. -/
theorem test_busaddr : (after (State.facing State.reset (.write 32 0x1A 7))).errlog = 0x20 ∧
    (after (State.facing State.reset (.write 32 0x1A 7))).src = 0 := by decide +kernel

/-! ### Witnesses: a state and operands for the hypotheses of each statement -/

theorem holding_len {bs : Bytes} (h : bs.length ≤ 0x8000) : (holding bs).len.toNat = bs.length := by
  simp only [holding, BitVec.toNat_ofNat]
  exact Nat.mod_eq_of_lt (by omega)

theorem holding_input {bs : Bytes} (h : bs.length ≤ 0x8000) : (holding bs).input = bs := by
  have hl := holding_len h
  simp only [State.input, hl]
  exact Memory.readBytes_writeBytes [] 0 bs

/-- The ranges of every command fit in a block that holds at most 0x8000 bytes. -/
theorem holding_fits {bs : Bytes} {n : Nat} (h : bs.length ≤ 0x8000) (hn : n ≤ 0x8000) : RangesFit (holding bs) n := by
  have hl := holding_len h
  have hs : (holding bs).src.toNat = 0 := rfl
  have hd : (holding bs).dst.toNat = 0x8000 := rfl
  have hm : (holding bs).cfg.memSize = 65536 := rfl
  simp only [RangesFit, hl, hs, hd, hm]
  omega

/-- The output of a command, as the input of a next one. -/
def chained (t : State) : State := { t with src := t.dst, dst := 0 }

/-- Two commands one after the other: the second finds the first one's output, in ranges that fit. -/
theorem chain (i : Instr) {bs : Bytes} (h : bs.length ≤ 0x8000) : ∃ t, exec i (holding bs) = .next t ∧
    ∀ n, n ≤ 0x8000 → RangesFit (chained t) n := by
  obtain ⟨t, ht⟩ := exec_next i (holding bs)
  refine ⟨t, ht, fun n hn => ?_⟩
  have ho := exec_operands ht
  have hl := holding_len h
  have h1 : (chained t).src.toNat = 0x8000 := by rw [chained, ho.dst]; rfl
  have h2 : (chained t).len.toNat = bs.length := by rw [← hl]; exact congrArg BitVec.toNat ho.len
  have h3 : (chained t).cfg.memSize = 65536 := congrArg Config.memSize ho.cfg
  have h4 : (chained t).dst.toNat = 0 := rfl
  simp only [RangesFit, h1, h2, h3, h4]
  omega

theorem witness_DecodeOfEncode : (Instr.eccfix .tt7).wellFormed true = true ∧ Instr.nop.wellFormed false = true ∧
    (Instr.qparse ⟨true, true, true, true⟩).wellFormed false = true := by decide

theorem witness_EncodeOfDecode : decode false 0x0000F045 = .ok (.qparse ⟨true, true, true, true⟩) ∧
    decode true 0x00000713 = .ok (.eccsyn .tt7) := by decide

theorem witness_WordIsDecodedInOrder : (State.facing State.reset (wr cmdOffset 0x46)).host = [wr cmdOffset 0x46] ∧
    (0x00000046 : Word).extractLsb' 0 8 = 0x46 ∧
    (0x00000013 : Word).extractLsb' 0 8 = 0x13 ∧ { Config.standard with hasEccDec := false }.hasEccDec = false ∧
    (0x00010000 : Word).extractLsb' 16 16 ≠ 0 ∧ (0x00000800 : Word).getLsbD 11 = true ∧
    (0x00000710 : Word).extractLsb' 8 3 ≠ 0 ∧ (0x0000F010 : Word).extractLsb' 12 4 ≠ 0 ∧
    (0x0000F045 : Word).extractLsb' 16 16 = 0 ∧ (0x0000F045 : Word).getLsbD 11 = false ∧
    (0x0000F045 : Word).extractLsb' 8 3 = 0 := by decide

theorem witness_StepRunsTheCommand : decode State.reset.cfg.hasEccDec 0x10 = .ok .edc ∧
    (∃ t, step (State.facing State.reset (wr cmdOffset 0x10)) = .next t) ∧
    (State.facing State.reset (rd cmdOffset)).host = [rd cmdOffset] := ⟨by decide, ⟨_, rfl⟩, rfl⟩

theorem witness_RegisterRead : (State.facing State.reset (rd 0xFC)).host = [rd 0xFC] ∧ (0xFC ≤ 0xFF ∧ 0xFC % 4 = 0) ∧
    (State.facing State.reset (rd 0xFE)).host = [rd 0xFE] ∧ ¬ (0xFE ≤ 0xFF ∧ 0xFE % 4 = 0) ∧
    (State.facing State.reset (rd 0x100)).host = [rd 0x100] ∧ ¬ (0x100 ≤ 0xFF ∧ 0x100 % 4 = 0) := by decide

theorem witness_RegisterWrite : (∀ off ∈ [0x0C, 0x18, 0x1C, 0x20, 0x24, 0x28, 0x2C, 0x30, 0x4C, 0x00, 0xFC],
    (State.facing State.reset (wr off 0xFFFFFFFF)).host = [wr off 0xFFFFFFFF]) ∧
    (0xFC ≤ 0xFF ∧ 0xFC % 4 = 0 ∧ 0xFC ∉ [0x0C, 0x18, 0x1C, 0x20, 0x24, 0x28, 0x2C, 0x30, 0x4C]) := by decide

theorem witness_MemoryAccess : 65535 < State.reset.cfg.memSize ∧
    (State.facing State.reset (rdb 65535)).host = [rdb 65535] ∧
    (State.facing State.reset (wrb 0 0xA5)).host = [wrb 0 0xA5] := by decide

theorem witness_BusAddressError :
    ¬ (0x18 ≤ 0xFF ∧ 8 = 32 ∧ 0x18 % 4 = 0) ∧ ¬ (0x10000 ≤ 0x18 ∧ 0x18 < 0x10000 + State.reset.cfg.memSize ∧ 8 = 8) ∧
    ¬ (0x20000 ≤ 0xFF ∧ 8 = 32 ∧ 0x20000 % 4 = 0) ∧
    ¬ (0x10000 ≤ 0x20000 ∧ 0x20000 < 0x10000 + State.reset.cfg.memSize ∧ 8 = 8) ∧
    (State.facing State.reset (.write 8 0x18 1)).host = [.write 8 0x18 1] ∧
    (State.facing State.reset (.read 8 0x20000)).host = [.read 8 0x20000] := by decide

theorem witness_ResetValues : (0xFC ≤ 0xFF ∧ 0xFC % 4 = 0) ∧
    (State.facing State.reset (.reset [(3, 7)])).host = [.reset [(3, 7)]] := by decide

theorem witness_ResetMemoryIsArbitrary : (State.facing State.reset (.reset [(3, 7)])).cfg = State.reset.cfg ∧
    (State.facing State.reset (.reset [(3, 7)])).host = [.reset [(3, 7)]] := by decide

theorem witness_InvAtReset : { Config.standard with memSize := 4704 }.wellFormed = true ∧
    Memory.wf 4704 [(0, 1), (4703, 2)] = true := by decide

theorem witness_StepKeepsInv : Inv (State.facing (holding [1, 2]) (wr cmdOffset 0x10)) ∧
    ∃ t, step (State.facing (holding [1, 2]) (wr cmdOffset 0x10)) = .next t :=
  ⟨⟨by decide, by decide, by unfold StatusLegal; decide, by unfold ErrlogLegal; decide, by unfold QLegal; decide,
    List.nodup_nil, fun x hx => nomatch hx⟩, _, rfl⟩

theorem witness_StepAlwaysNext : State.reset.host = [] := rfl

theorem witness_ErrlogIsSticky :
    (∃ t, step (State.facing { State.reset with errlog := 2 } (.reset [])) = .next t) ∧
    (∃ t, step (State.facing { State.reset with errlog := 2 } (rd 1)) = .next t) ∧
    (∀ content rest, (State.facing { State.reset with errlog := 2 } (rd 1)).host ≠ .reset content :: rest) :=
  ⟨⟨_, rfl⟩, ⟨_, rfl⟩, fun _ _ h => by simp [State.facing, rd] at h⟩

theorem witness_CommandFrame : State.reset.cfg.memSizeOk = true ∧
    (∃ t, exec .edc (holding [1]) = .next t ∧ statusOutcome t.status = 3 ∧ ∀ qf, Instr.edc ≠ .qparse qf) ∧
    (∃ t, exec .edc { holding [1] with src := 65536 } = .next t ∧ statusOutcome t.status = 4) :=
  ⟨by decide, ⟨_, rfl, by decide +kernel, by simp⟩, ⟨_, rfl, by decide +kernel⟩⟩

theorem witness_ResultsComeFromInputAlone : (holding [1]).cfg.memSizeOk = true ∧
    ∀ a, (holding [1]).src.toNat ≤ a → a < (holding [1]).src.toNat + (holding [1]).len.toNat →
      Memory.read [(0, 1), (1, 2)] a = (holding [1]).mem.read a := by
  refine ⟨by decide, fun a _ h => ?_⟩
  have : a < 1 := h
  obtain rfl : a = 0 := by omega
  decide

theorem witness_UnreadRegistersHaveNoEffect : (∃ t, exec .edc (holding [1]) = .next t) ∧
    ∃ t, exec .dvdrst (holding [1]) = .next t := ⟨⟨_, rfl⟩, ⟨_, rfl⟩⟩

/-- R305 at its bound: an input that ends at the last byte, and one byte more. -/
theorem witness_SourceRangeCheck :
    ¬ State.reset.cfg.memSize < ({ holding [1] with src := 65535 } : State).src.toNat + (holding [1]).len.toNat ∧
    State.reset.cfg.memSize < ({ holding [1] with src := 65536 } : State).src.toNat + (holding [1]).len.toNat := by decide

/-- R306 at its bound: an output that ends at the last byte, and one byte more. -/
theorem witness_DestinationRangeCheck : 16 % 16 = 0 ∧ 17 % 16 ≠ 0 ∧
    0 < outmax .cdscr (holding [1]).len.toNat ∧
    ¬ State.reset.cfg.memSize < ({ holding [1] with dst := 65535 } : State).dst.toNat + outmax .cdscr 1 ∧
    State.reset.cfg.memSize < ({ holding [1] with dst := 65536 } : State).dst.toNat + outmax .cdscr 1 := by decide

theorem witness_NopCommand : opcField State.reset.cmd = 0 := by decide

theorem witness_EdcCommand : RangesFit (holding [1]) 0 ∧ RangesFit { holding [] with src := 65536 } 0 := by
  constructor <;> unfold RangesFit <;> decide

/-- The three lengths at which the sector commands part ways. -/
theorem witness_sector_lengths : RangesFit (holding (zeros 2351)) 2351 ∧ (holding (zeros 2351)).len.toNat < 2352 ∧
    RangesFit (holding (zeros 2352)) 2352 ∧ 2352 ≤ (holding (zeros 2352)).len.toNat ∧
    RangesFit (holding (zeros 2448)) 2448 ∧ 2352 ≤ (holding (zeros 2448)).len.toNat := by
  refine ⟨holding_fits ?_ ?_, ?_, holding_fits ?_ ?_, ?_, holding_fits ?_ ?_, ?_⟩ <;>
    first | (rw [holding_len] <;> simp) | simp

/-- The times at the two ends of the range of R145 and next to them. -/
theorem witness_RprefixCommand : (RangesFit (holding (zeros 2352)) (holding (zeros 2352)).len.toNat ∧
      2352 ≤ (holding (zeros 2352)).len.toNat) ∧
    (0xFFFFFF6A : Word).toInt + 150 = 0 ∧ (449849 : Word).toInt + 150 = 449999 ∧
    (0xFFFFFF69 : Word).toInt + 150 < 0 ∧ 449999 < (449850 : Word).toInt + 150 := by
  refine ⟨⟨?_, ?_⟩, by decide, by decide, by decide, by decide⟩
  · rw [holding_len (by simp)]; exact holding_fits (by simp) (by simp)
  · rw [holding_len (by simp)]; simp

theorem witness_ReccCommand : RangesFit (holding (zeros 2352)) (holding (zeros 2352)).len.toNat ∧
    2352 ≤ (holding (zeros 2352)).len.toNat ∧ (holding (zeros 2351)).len.toNat < 2352 ∧
    RangesFit (holding (zeros 2351)) (holding (zeros 2351)).len.toNat := by
  rw [holding_len (by simp), holding_len (by simp)]
  exact ⟨holding_fits (by simp) (by simp), by simp, by simp, holding_fits (by simp) (by simp)⟩

theorem witness_EccsynCommand : RangesFit (holding (zeros 2352)) 276 ∧ 2352 ≤ (holding (zeros 2352)).len.toNat ∧
    RangesFit (holding (zeros 2351)) 276 ∧ (holding (zeros 2351)).len.toNat < 2352 := by
  rw [holding_len (by simp), holding_len (by simp)]
  exact ⟨holding_fits (by simp) (by simp), by simp, holding_fits (by simp) (by simp), by simp⟩

/-! A sector whose bytes are given by a function, and the correction pass over it. -/

def sector (f : Nat → Byte) : Bytes := (List.range 2352).map f

@[simp] theorem length_sector (f : Nat → Byte) : (sector f).length = 2352 := by simp [sector]

theorem byteAt_sector (f : Nat → Byte) (k : Nat) (h : k < 2352) : byteAt (sector f) k = f k := by
  simp [sector, byteAt, h]

theorem allPositions_lt : ∀ pos ∈ allPositions, ∀ k ∈ pos, k < 2340 := by
  intro pos hp k hk
  simp only [allPositions, List.mem_append, List.mem_map, List.mem_range] at hp
  rcases hp with ⟨j, hj, rfl⟩ | ⟨j, hj, rfl⟩
  · exact Nat.lt_trans (ppos_lt j hj k hk) (by omega)
  · exact qpos_lt j hj k hk

/-- The codewords but the last, and the last: `qpos(51)`. Only the last one has the positions 2287 and 2339. -/
theorem allPositions_split : allPositions = allPositions.take 137 ++ [qpos 51] ∧
    ∀ pos ∈ allPositions.take 137, ∀ k ∈ pos, k ≠ 2287 ∧ k ≠ 2339 := by decide +kernel

/-- A pass leaves clean codewords as they are. -/
theorem foldl_clean (lock : Bool) (l : List (List Nat)) (st : FixState)
    (h : ∀ pos ∈ l, syndromes (symbols st.region pos) = (0, 0)) : l.foldl (fixCodeword lock) st = st := by
  induction l with
  | nil => rfl
  | cons pos l ih =>
    have h1 : fixCodeword lock st pos = st := by simp [fixCodeword, classify, h pos (by simp)]
    rw [List.foldl_cons, h1]
    exact ih fun p hp => h p (by simp [hp])

theorem syndromes_zeros (pos : List Nat) : syndromes (pos.map fun _ => (0 : Byte)) = (0, 0) := by
  unfold syndromes
  induction pos with
  | nil => rfl
  | cons k pos ih =>
    have h0 : ((0 : Byte) ^^^ 0, gfF 0 ^^^ 0) = ((0 : Byte), (0 : Byte)) := by decide
    change List.foldl _ ((0 : Byte) ^^^ 0, gfF 0 ^^^ 0) (pos.map _) = _
    rw [h0]
    exact ih

theorem syndromes_of_zeros (n : Nat) : syndromes (zeros n) = (0, 0) := by
  rw [show zeros n = (List.range n).map fun _ => 0 by simp [zeros]]
  exact syndromes_zeros _

/-- The region of a sector with a byte each at the last two positions of the last codeword. -/
def lastTwo (a b : Byte) : Nat → Byte := fun k => if k = 2287 then a else if k = 2339 then b else 0

theorem region_lastTwo (tt : TrackType) (a b : Byte) (k : Nat) (h : k < 2340) :
    byteAt (eccRegion tt (sector fun o => lastTwo a b (o - 0x00C))) k = lastTwo a b k := by
  rw [byteAt_eccRegion _ _ (by simp) _ h, byteAt_sector _ _ (by omega), Nat.add_sub_cancel_left]
  split_ifs with hk
  · simp only [lastTwo]; rw [if_neg (by omega), if_neg (by omega)]
  · rfl

/-- The pass over that sector is the last codeword's. -/
theorem fixPass_lastTwo (tt : TrackType) (lock : Bool) (a b : Byte) :
    fixPass lock (eccRegion tt (sector fun o => lastTwo a b (o - 0x00C))) =
      fixCodeword lock ⟨eccRegion tt (sector fun o => lastTwo a b (o - 0x00C)), 0, 0⟩ (qpos 51) := by
  obtain ⟨h1, h2⟩ := allPositions_split
  unfold fixPass
  rw [h1, List.foldl_append, foldl_clean _ (allPositions.take 137)]
  · rfl
  · intro pos hp
    have hm : ∀ k ∈ pos, k < 2340 := allPositions_lt pos (List.mem_of_mem_take hp)
    have hz : symbols (eccRegion tt (sector fun o => lastTwo a b (o - 0x00C))) pos = pos.map fun _ => 0 := by
      rw [symbols_congr _ _ pos 2340 hm (region_lastTwo tt a b)]
      apply List.map_congr_left
      intro k hk
      obtain ⟨h3, h4⟩ := h2 pos hp k hk
      simp [lastTwo, h3, h4]
    rw [hz]
    exact syndromes_zeros pos

theorem symbols_lastTwo (tt : TrackType) (a b : Byte) :
    symbols (eccRegion tt (sector fun o => lastTwo a b (o - 0x00C))) (qpos 51) = (qpos 51).map (lastTwo a b) :=
  symbols_congr _ _ _ 2340 (qpos_lt 51 (by omega)) (region_lastTwo tt a b)

/-- The three ends of `ECCFIX`: a clean sector, one bad codeword, one correction. -/
theorem witness_EccfixCommand (tt : TrackType) (lock : Bool) :
    RangesFit (holding (sector fun o => lastTwo 1 1 (o - 0x00C))) 2352 ∧
    2352 ≤ (holding (sector fun o => lastTwo 1 1 (o - 0x00C))).len.toNat ∧
    ((fixPass lock (eccRegion tt (sector fun o => lastTwo 0 0 (o - 0x00C)))).fixed = 0 ∧
      (fixPass lock (eccRegion tt (sector fun o => lastTwo 0 0 (o - 0x00C)))).bad = 0) ∧
    ((fixPass lock (eccRegion tt (sector fun o => lastTwo 1 1 (o - 0x00C)))).fixed = 0 ∧
      (fixPass lock (eccRegion tt (sector fun o => lastTwo 1 1 (o - 0x00C)))).bad ≠ 0) ∧
    (fixPass lock (eccRegion tt (sector fun o => lastTwo 0 1 (o - 0x00C)))).fixed ≠ 0 := by
  have h0 : classify (syndromes ((qpos 51).map (lastTwo 0 0))) 45 = .clean := by decide +kernel
  have h1 : classify (syndromes ((qpos 51).map (lastTwo 1 1))) 45 = .uncorrectable := by decide +kernel
  have h2 : classify (syndromes ((qpos 51).map (lastTwo 0 1))) 45 = .correctable 44 1 := by decide +kernel
  have hp : (qpos 51).getD 44 0 = 2339 := by decide +kernel
  have hl : (qpos 51).length = 45 := rfl
  refine ⟨holding_fits (by simp) (by simp), by rw [holding_len (by simp)]; simp, ?_, ?_, ?_⟩
  · simp only [fixPass_lastTwo, fixCodeword, symbols_lastTwo, hl, h0, and_self]
  · simp only [fixPass_lastTwo, fixCodeword, symbols_lastTwo, hl, h1, true_and]
    omega
  · simp only [fixPass_lastTwo, fixCodeword, symbols_lastTwo, hl, h2, hp]
    rw [if_neg (by omega)]
    simp only
    omega

/-- A sector with a sync mark, and one without. -/
theorem witness_CdscrCommand : RangesFit (holding (sync ++ zeros 2340)) 2352 ∧
    (holding (sync ++ zeros 2340)).len.toNat = 2352 ∧ (holding (sync ++ zeros 2340)).input.take 12 = sync ∧
    (holding (zeros 2352)).len.toNat = 2352 ∧ (holding (zeros 2352)).input.take 12 ≠ sync := by
  refine ⟨holding_fits (by simp) (by simp), ?_, ?_, ?_, ?_⟩
  · rw [holding_len (by simp)]; simp
  · rw [holding_input (by simp)]; rfl
  · rw [holding_len (by simp)]; simp
  · rw [holding_input (by simp)]; decide

/-! The DVD descrambler: a sector seed 0 verifies, and one that no seed does. -/

theorem keystreamFrom_zero (n : Nat) : keystreamFrom n 0 = zeros n := by
  have h0 : lfsrByte 0 = (0, 0) := by decide
  induction n with
  | zero => rfl
  | succ n ih => rw [keystreamFrom, h0, ih]; rfl

theorem dvdEdcStandard_zeros (n : Nat) : dvdEdcStandard (zeros n) = 0 := by
  have h0 : times 8 dvdEdcStep ((0 : Word) ^^^ ((0 : Byte).setWidth 32 <<< 24)) = 0 := by decide
  unfold dvdEdcStandard
  induction n with
  | zero => rfl
  | succ n ih => rw [zeros, List.replicate_succ, List.foldl_cons, h0]; exact ih

theorem dvdEdcField_zeros : dvdEdcField (zeros 2064) = 0 := by simp only [dvdEdcField, byteAt_zeros]; decide

theorem take_zeros : (zeros 2064).take 2060 = zeros 2060 :=
  bytes_ext (by simp) fun i hi => by
    have hi' : i < 2060 := by simp at hi; omega
    rw [byteAt_take, if_pos hi']; simp

theorem dvdApply_zeros : dvdApply (zeros 2064) (keystream 0) = zeros 2064 :=
  bytes_ext (by simp) fun i hi => by
    rw [byteAt_dvdApply _ _ (by simp) _ (by simpa using hi), keystream, keystreamFrom_zero]
    simp

theorem verify_zeros : verify Config.standard (zeros 2064) 0 = true := by
  unfold verify
  rw [dvdApply_zeros, take_zeros, dvdEdcField_zeros, show dvdEdc Config.standard (zeros 2060) = 0 from dvdEdcStandard_zeros 2060]
  rfl

/-- There are more values of the EDC field than seeds. -/
theorem exists_noSeed (c : Config) : ∃ sec : Bytes, sec.length = 2064 ∧ ∀ x : Seed, verify c sec x = false := by
  let f : Seed → Word := fun x => dvdEdc c ((dvdApply (zeros 2064) (keystream x)).take 2060)
  obtain ⟨w, hw⟩ : ∃ w : Word, ∀ x, f x ≠ w := by
    by_contra h
    simp only [not_exists, not_forall, not_not] at h
    have hs : Finset.range (2 ^ 32) ⊆ (Finset.range 32768).image fun k => (f (BitVec.ofNat 15 k)).toNat := by
      intro k hk
      obtain ⟨x, hx⟩ := h (BitVec.ofNat 32 k)
      refine Finset.mem_image.mpr ⟨x.toNat, Finset.mem_range.mpr x.isLt, ?_⟩
      rw [BitVec.ofNat_toNat, BitVec.setWidth_eq, hx, BitVec.toNat_ofNat]
      exact Nat.mod_eq_of_lt (Finset.mem_range.mp hk)
    have := (Finset.card_le_card hs).trans Finset.card_image_le
    rw [Finset.card_range, Finset.card_range] at this
    omega
  let tail : Bytes := [w.extractLsb' 24 8, w.extractLsb' 16 8, w.extractLsb' 8 8, w.extractLsb' 0 8]
  refine ⟨zeros 2060 ++ tail, by simp [tail], fun x => ?_⟩
  have h1 : (dvdApply (zeros 2060 ++ tail) (keystream x)).take 2060 =
      (dvdApply (zeros 2064) (keystream x)).take 2060 := by
    refine bytes_ext (by simp [tail]) fun i hi => ?_
    have hi' : i < 2060 := by simp at hi; omega
    rw [byteAt_take, byteAt_take, if_pos hi', if_pos hi', byteAt_dvdApply _ _ (by simp) _ (by simp [tail]; omega),
      byteAt_dvdApply _ _ (by simp) _ (by simp; omega), byteAt_append]
    simp [hi']
  have h2 : dvdEdcField (zeros 2060 ++ tail) = w := by
    simp only [dvdEdcField, tail, byteAt, u32be]
    apply BitVec.eq_of_getLsbD_eq
    intro i hi
    simp only [BitVec.getLsbD_append]
    interval_cases i <;> simp
  have := hw x
  simp only [f] at this
  simp [verify, h1, h2, this]

/-- A block that holds a sector and whose hint is seed 0. -/
def hinted (bs : Bytes) : State := { holding bs with dvd := ⟨some 0, [0]⟩ }

theorem hinted_len {bs : Bytes} (h : bs.length ≤ 0x8000) : (hinted bs).len.toNat = bs.length := holding_len h

theorem hinted_input {bs : Bytes} (h : bs.length ≤ 0x8000) : (hinted bs).input = bs := holding_input h

theorem hinted_fits {bs : Bytes} {n : Nat} (h : bs.length ≤ 0x8000) (hn : n ≤ 0x8000) : RangesFit (hinted bs) n :=
  holding_fits h hn

theorem hinted_found : RangesFit (hinted (zeros 2064)) 2064 ∧ RangesFit (hinted (zeros 2064)) 2048 ∧
    (hinted (zeros 2064)).len.toNat = 2064 ∧ (hinted (zeros 2064)).input = zeros 2064 ∧
    search (hinted (zeros 2064)).cfg (hinted (zeros 2064)).dvd (hinted (zeros 2064)).input = .found 0 1 .hint := by
  have hi : (hinted (zeros 2064)).input = zeros 2064 := hinted_input (by simp)
  refine ⟨hinted_fits (by simp) (by simp), hinted_fits (by simp) (by simp), ?_, hi, ?_⟩
  · rw [hinted_len (by simp)]; simp
  · rw [hi]
    exact search_hint _ _ _ _ rfl verify_zeros

theorem missed : ∃ bs : Bytes, bs.length = 2064 ∧ RangesFit (hinted bs) 2064 ∧ RangesFit (hinted bs) 2048 ∧
    (hinted bs).len.toNat = 2064 ∧ verify Config.standard bs 0 = false ∧
    ∃ n, search Config.standard ⟨some 0, [0]⟩ bs = .notFound n := by
  obtain ⟨bs, hl, hv⟩ := exists_noSeed Config.standard
  exact ⟨bs, hl, hinted_fits (by omega) (by omega), hinted_fits (by omega) (by omega),
    (hinted_len (by omega)).trans hl, hv 0, _, tryCandidates_notFound _ _ _ _ fun p _ => hv p.2⟩

/-- The two sides of `verify` as numbers, over the bytes of a sector (R206). -/
def accepts (c : Config) (sec : Bytes) (x : Seed) : Prop :=
  (dvdEdc c ((List.range 2060).map fun k =>
    if 12 ≤ k then byteAt sec k ^^^ byteAt (keystream x) (k - 12) else byteAt sec k)).toNat =
  (byteAt sec 2060).toNat * 2 ^ 24 + (byteAt sec 2061).toNat * 2 ^ 16 + (byteAt sec 2062).toNat * 2 ^ 8 +
    (byteAt sec 2063).toNat

theorem accepts_of_verify {c : Config} {sec : Bytes} {x : Seed} (h : sec.length = 2064) :
    verify c sec x = true ↔ accepts c sec x := by
  rw [verify, decide_eq_true_iff, take_dvdApply sec x h, accepts, ← u32be_toNat]
  exact BitVec.toNat_inj.symm

theorem witness_DvdtestCommand : (RangesFit (holding (zeros 2063)) 0 ∧ (holding (zeros 2063)).len.toNat ≠ 2064) ∧
    (RangesFit (hinted (zeros 2064)) 0 ∧ (hinted (zeros 2064)).len.toNat = 2064 ∧
      accepts (hinted (zeros 2064)).cfg (hinted (zeros 2064)).input (hinted (zeros 2064)).seed) ∧
    ∃ bs : Bytes, RangesFit (hinted bs) 0 ∧ (hinted bs).len.toNat = 2064 ∧
      ¬ accepts (hinted bs).cfg (hinted bs).input (hinted bs).seed := by
  refine ⟨⟨holding_fits (by simp) (by simp), by rw [holding_len (by simp)]; simp⟩,
    ⟨hinted_fits (by simp) (by simp), hinted_found.2.2.1, ?_⟩, ?_⟩
  · rw [hinted_input (by simp)]; exact (accepts_of_verify (by simp)).mp verify_zeros
  · obtain ⟨bs, hl, _, _, h3, h4, _⟩ := missed
    refine ⟨bs, hinted_fits (by omega) (by omega), h3, fun h => ?_⟩
    rw [hinted_input (by omega)] at h
    exact absurd (((accepts_of_verify hl).mpr h).symm.trans h4) (by decide)

theorem witness_DvdseedCommand : (RangesFit (holding (zeros 2065)) 2048 ∧ (holding (zeros 2065)).len.toNat ≠ 2064) ∧
    (RangesFit (hinted (zeros 2064)) 2048 ∧ (hinted (zeros 2064)).len.toNat = 2064 ∧
      search (hinted (zeros 2064)).cfg (hinted (zeros 2064)).dvd (hinted (zeros 2064)).input = .found 0 1 .hint) ∧
    ∃ bs n, RangesFit (hinted bs) 2048 ∧ (hinted bs).len.toNat = 2064 ∧
      search (hinted bs).cfg (hinted bs).dvd (hinted bs).input = .notFound n := by
  refine ⟨⟨holding_fits (by simp) (by simp), by rw [holding_len (by simp)]; simp⟩,
    ⟨hinted_found.2.1, hinted_found.2.2.1, hinted_found.2.2.2.2⟩, ?_⟩
  obtain ⟨bs, hl, _, h2, h3, _, n, h4⟩ := missed
  exact ⟨bs, n, h2, h3, by rw [hinted_input (by omega)]; exact h4⟩

theorem witness_DvdscrCommand : (RangesFit (hinted (zeros 2064)) (hinted (zeros 2064)).len.toNat ∧
      (hinted (zeros 2064)).len.toNat = 2064 ∧
      search (hinted (zeros 2064)).cfg (hinted (zeros 2064)).dvd (hinted (zeros 2064)).input = .found 0 1 .hint) ∧
    ∃ bs n, RangesFit (hinted bs) (hinted bs).len.toNat ∧ (hinted bs).len.toNat = 2064 ∧
      search (hinted bs).cfg (hinted bs).dvd (hinted bs).input = .notFound n := by
  constructor
  · obtain ⟨h1, _, h2, _, h3⟩ := hinted_found
    exact ⟨by rw [h2]; exact h1, h2, h3⟩
  · obtain ⟨bs, hl, h1, _, h3, _, n, h4⟩ := missed
    exact ⟨bs, n, by rw [h3]; exact h1, h3, by rw [hinted_input (by omega)]; exact h4⟩

theorem slice_all {b : Bytes} (h : b.length = 2064) : slice b (2064 * 0) (2064 * (0 + 1)) = b := by
  simp [slice, List.take_of_length_le (le_of_eq h)]

/-- The same block with `XFER` 1. -/
def oneChunk (bs : Bytes) : State := { hinted bs with xfer := 1 }

theorem oneChunk_spec {bs : Bytes} (h : bs.length = 2064) : RangesFit (oneChunk bs) (oneChunk bs).len.toNat ∧
    (oneChunk bs).len.toNat = 2064 * (oneChunk bs).xfer.toNat ∧ 0 < (oneChunk bs).xfer.toNat ∧
    slice (oneChunk bs).input (2064 * 0) (2064 * (0 + 1)) = bs := by
  have hl : (oneChunk bs).len.toNat = 2064 := (hinted_len (by omega)).trans h
  have hi : (oneChunk bs).input = bs := hinted_input (by omega)
  refine ⟨by rw [hl]; exact hinted_fits (by omega) (by omega), hl, Nat.zero_lt_one, by rw [hi]; exact slice_all h⟩

/-- A batch of one chunk that has a seed, of one that has none, of no chunk, and one whose length is wrong. -/
theorem witness_DvdscrbCommand :
    (∃ s : State, RangesFit s s.len.toNat ∧ s.len.toNat = 2064 * s.xfer.toNat ∧ 0 < s.xfer.toNat ∧
      search s.cfg s.dvd (slice s.input (2064 * 0) (2064 * (0 + 1))) = .found 0 1 .hint) ∧
    (∃ (s : State) (n : Nat), RangesFit s s.len.toNat ∧ s.len.toNat = 2064 * s.xfer.toNat ∧ 0 < s.xfer.toNat ∧
      search s.cfg s.dvd (slice s.input (2064 * 0) (2064 * (0 + 1))) = .notFound n) ∧
    (RangesFit (holding []) 0 ∧ (holding []).len.toNat = 2064 * (holding []).xfer.toNat) ∧
    (RangesFit (holding [1]) 1 ∧ (holding [1]).len.toNat ≠ 2064 * (holding [1]).xfer.toNat) := by
  refine ⟨?_, ?_, ⟨holding_fits (by simp) (by simp), rfl⟩, ⟨holding_fits (by simp) (by simp), by decide⟩⟩
  · obtain ⟨h1, h2, h3, h4⟩ := oneChunk_spec (bs := zeros 2064) (by simp)
    exact ⟨_, h1, h2, h3, by rw [h4]; exact search_hint _ _ _ _ rfl verify_zeros⟩
  · obtain ⟨bs, hl, _, _, _, _, n, h5⟩ := missed
    obtain ⟨h1, h2, h3, h4⟩ := oneChunk_spec hl
    exact ⟨_, n, h1, h2, h3, by rw [h4]; exact h5⟩

theorem witness_Qbin2bcdCommand : (RangesFit (holding (zeros 11)) 11 ∧ (holding (zeros 11)).len.toNat ≠ 12) ∧
    (RangesFit (holding (zeros 12)) 12 ∧ (holding (zeros 12)).len.toNat = 12) ∧
    (∃ k, 1 ≤ k ∧ k ≤ 9 ∧ 99 < (byteAt (holding (zeros 9 ++ [100, 0, 0])).input k).toNat) ∧
    ¬ ∃ k, 1 ≤ k ∧ k ≤ 9 ∧ 99 < (byteAt (holding (100 :: zeros 8 ++ [99, 100, 100])).input k).toNat := by
  refine ⟨⟨holding_fits (by simp) (by simp), by decide⟩, ⟨holding_fits (by simp) (by simp), by decide⟩,
    ⟨9, by omega, by omega, by decide +kernel⟩, ?_⟩
  rintro ⟨k, h1, h2, h⟩
  revert h
  interval_cases k <;> decide +kernel

theorem witness_Qbcd2binCommand : (RangesFit (holding (zeros 13)) 13 ∧ (holding (zeros 13)).len.toNat ≠ 12) ∧
    (RangesFit (holding (zeros 12)) 12 ∧ (holding (zeros 12)).len.toNat = 12) ∧
    (∃ k, 1 ≤ k ∧ k ≤ 9 ∧ (9 < (hi4 (byteAt (holding (zeros 9 ++ [0xA0, 0, 0])).input k)).toNat ∨
      9 < (lo4 (byteAt (holding (zeros 9 ++ [0xA0, 0, 0])).input k)).toNat)) ∧
    ¬ ∃ k, 1 ≤ k ∧ k ≤ 9 ∧ (9 < (hi4 (byteAt (holding (zeros 9 ++ [0x99, 0xAA, 0xAA])).input k)).toNat ∨
      9 < (lo4 (byteAt (holding (zeros 9 ++ [0x99, 0xAA, 0xAA])).input k)).toNat) := by
  refine ⟨⟨holding_fits (by simp) (by simp), by decide⟩, ⟨holding_fits (by simp) (by simp), by decide⟩,
    ⟨9, by omega, by omega, by decide +kernel⟩, ?_⟩
  rintro ⟨k, h1, h2, h⟩
  revert h
  interval_cases k <;> decide +kernel

theorem witness_Q2rawCommand : (RangesFit (holding (zeros 17)) 17 ∧ (holding (zeros 17)).len.toNat % 16 ≠ 0) ∧
    (RangesFit (holding (zeros 32)) 192 ∧ (holding (zeros 32)).len.toNat % 16 = 0 ∧
      1 < (holding (zeros 32)).len.toNat / 16) := by
  refine ⟨⟨holding_fits (by simp) (by simp), by decide⟩, holding_fits (by simp) (by simp), by decide, by decide⟩

theorem witness_IntlvCommand : (RangesFit (holding (zeros 95)) 95 ∧ (holding (zeros 95)).len.toNat % 96 ≠ 0) ∧
    (RangesFit (holding (zeros 192)) 192 ∧ (holding (zeros 192)).len.toNat % 96 = 0 ∧
      1 < (holding (zeros 192)).len.toNat / 96) := by
  refine ⟨⟨holding_fits (by simp) (by simp), ?_⟩, holding_fits (by simp) (by simp), ?_, ?_⟩ <;>
    rw [holding_len (by simp)] <;> simp

theorem witness_DeintlvCommand : (RangesFit (holding (zeros 97)) 97 ∧ (holding (zeros 97)).len.toNat % 96 ≠ 0) ∧
    (RangesFit (holding []) 0 ∧ (holding []).len.toNat % 96 = 0) := by
  refine ⟨⟨holding_fits (by simp) (by simp), ?_⟩, holding_fits (by simp) (by simp), by decide⟩
  rw [holding_len (by simp)]; simp

theorem witness_QparseCommand : (RangesFit (holding (zeros 11)) 0 ∧ (holding (zeros 11)).len.toNat ≠ 12) ∧
    (RangesFit (holding (zeros 12)) 0 ∧ (holding (zeros 12)).len.toNat = 12) := by
  refine ⟨⟨holding_fits (by simp) (by simp), by decide⟩, holding_fits (by simp) (by simp), by decide⟩

theorem witness_QRecordFields : (decide (0 ≤ (-150 : Int) + 150) && decide ((-150 : Int) + 150 ≤ 449999)) = true ∧
    (decide (0 ≤ (449849 : Int) + 150) && decide ((449849 : Int) + 150 ≤ 449999)) = true ∧
    (decide (0 ≤ (-151 : Int) + 150) && decide ((-151 : Int) + 150 ≤ 449999)) = false ∧
    (decide (0 ≤ (449850 : Int) + 150) && decide ((449850 : Int) + 150 ≤ 449999)) = false := by decide

theorem witness_QNumericViews : ((hi4 0x99).toNat ≤ 9 ∧ (lo4 0x99).toNat ≤ 9) ∧
    9 < (hi4 0xA0).toNat ∧ 9 < (lo4 0x0A).toNat ∧ (99 : Byte).toNat ≤ 99 ∧ 99 < (100 : Byte).toNat := by decide

theorem witness_QRecordClass : (lo4 (byteAt [0x41, 0x00, 0xA0] 0)).toNat = 1 ∧
    (lo4 (byteAt [0x44, 0x00, 0x99] 0)).toNat = 4 ∧ (lo4 (byteAt [0x05, 0x00, 0x40] 0)).toNat = 5 ∧
    (lo4 (byteAt [0x06, 0x00, 0x01] 0)).toNat ≠ 1 ∧ (lo4 (byteAt [0x06, 0x00, 0x01] 0)).toNat ≠ 4 ∧
    (lo4 (byteAt [0x06, 0x00, 0x01] 0)).toNat ≠ 5 ∧ (-1 : Int) < 0 ∧ (0 : Int) ≤ 0 := by decide

theorem witness_QRecordText : qClass 0 true [0x02] = .pgMcn ∧ qClass 0 true [0x03] = .pgIsrc ∧
    qClass 0 true [0x01] = .pgPosition := by decide

theorem witness_GfIsAField : (0xFF : Byte) ≠ 0 := by decide

theorem witness_BcdAndMsf : (hi4 0x99).toNat ≤ 9 ∧ (lo4 0x99).toNat ≤ 9 := by decide

theorem witness_EdcLaws : ([1, 2] : Bytes).length = ([3, 4] : Bytes).length := by decide

theorem witness_OneWrongSymbolIsLocated : ((zeros 255).length ≤ 255 ∧ 254 < (zeros 255).length ∧ (1 : Byte) ≠ 0) ∧
    syndromes (zeros 255) = (0, 0) ∧ syndromes (zeros 1) = (0, 0) :=
  ⟨by simp, syndromes_of_zeros _, syndromes_of_zeros _⟩

/-- The three verdicts, and a located symbol at the last locked position and at the first that is not. -/
theorem witness_VerdictOfSyndromes : 45 ≤ 45 ∧ classify (syndromes ([0, 1].map (byteAt [0, 0]))) 2 = .clean ∧
    classify (syndromes ([0, 1].map (byteAt [1, 1]))) 2 = .uncorrectable ∧
    classify (syndromes ([3, 4].map (byteAt [0, 0, 0, 1, 0]))) 2 = .correctable 0 1 ∧ ([3, 4] : List Nat)[0]? = some 3 ∧
    classify (syndromes ([3, 4].map (byteAt [0, 0, 0, 0, 1]))) 2 = .correctable 1 1 ∧ ([3, 4] : List Nat)[1]? = some 4 := by
  decide +kernel

/-- R177: the lock gives up the header byte 3 and repairs byte 4; without it byte 3 is repaired. -/
theorem test_fixCodeword_lock :
    fixCodeword true ⟨[0, 0, 0, 1, 0], 0, 0⟩ [3, 4] = ⟨[0, 0, 0, 1, 0], 0, 1⟩ ∧
    fixCodeword true ⟨[0, 0, 0, 0, 1], 0, 0⟩ [3, 4] = ⟨[0, 0, 0, 0, 0], 1, 0⟩ ∧
    fixCodeword false ⟨[0, 0, 0, 1, 0], 0, 0⟩ [3, 4] = ⟨[0, 0, 0, 0, 0], 1, 0⟩ := by
  decide +kernel

theorem witness_ReccMakesCleanCodewords (tt : TrackType) : ∃ s t : State, 2352 ≤ s.len.toNat ∧ RangesFit s s.len.toNat ∧
    exec (.recc tt) s = .next t ∧ (chained t).cfg = t.cfg ∧ (chained t).mem = t.mem ∧ (chained t).src = t.dst ∧
    (chained t).len = t.len ∧ RangesFit (chained t) 276 := by
  obtain ⟨t, ht, hf⟩ := chain (.recc tt) (bs := zeros 2352) (by simp)
  have hl : (holding (zeros 2352)).len.toNat = 2352 := by rw [holding_len (by simp)]; simp
  exact ⟨_, t, by omega, by rw [hl]; exact holding_fits (by simp) (by simp), ht, rfl, rfl, rfl, rfl, hf _ (by simp)⟩

theorem witness_ReccIsIdempotent : edcRange .mode2Form2 = some (0x010, 0x92C) ∧ ∃ s t : State, 2352 ≤ s.len.toNat ∧
    RangesFit s s.len.toNat ∧ exec (.recc .mode2Form2) s = .next t ∧ (chained t).cfg = t.cfg ∧
    (chained t).mem = t.mem ∧ (chained t).src = t.dst ∧ (chained t).len = t.len ∧
    RangesFit (chained t) (chained t).len.toNat := by
  obtain ⟨t, ht, hf⟩ := chain (.recc .mode2Form2) (bs := zeros 2352) (by simp)
  have hl : (holding (zeros 2352)).len.toNat = 2352 := by rw [holding_len (by simp)]; simp
  refine ⟨rfl, _, t, by omega, by rw [hl]; exact holding_fits (by simp) (by simp), ht, rfl, rfl, rfl, rfl, hf _ ?_⟩
  have := congrArg BitVec.toNat (exec_operands ht).len
  rw [show (chained t).len = t.len from rfl]; omega

/-- The first and the last byte of the region, in a sector of zeros. -/
theorem witness_EccfixRepairsOneByte (tt : TrackType) (k : Nat) (hk : k = 4 ∨ k = 2339) :
    ∃ (s : State) (g : Bytes), RangesFit s s.len.toNat ∧ 2352 ≤ s.len.toNat ∧ g.length = s.len.toNat ∧
      (∀ pos ∈ allPositions, syndromes (symbols (eccRegion tt g) pos) = (0, 0)) ∧
      (if tt = .mode2Form1 then 4 else 0) ≤ k ∧ k < 2340 ∧ (1 : Byte) ≠ 0 ∧
      s.input = g.set (0x00C + k) (byteAt g (0x00C + k) ^^^ 1) := by
  have hl : ((zeros 2352).set (0x00C + k) (byteAt (zeros 2352) (0x00C + k) ^^^ 1)).length = 2352 := by simp
  refine ⟨holding ((zeros 2352).set (0x00C + k) (byteAt (zeros 2352) (0x00C + k) ^^^ 1)), zeros 2352, ?_, ?_, ?_, ?_,
    by split_ifs <;> omega, by omega, by decide, holding_input (by omega)⟩
  · rw [holding_len (by omega), hl]; exact holding_fits (by omega) (by omega)
  · rw [holding_len (by omega), hl]
  · rw [holding_len (by omega), hl]; simp
  · intro pos hp
    rw [symbols_congr _ (fun _ => 0) pos 2340 (allPositions_lt pos hp)]
    · exact syndromes_zeros pos
    · intro j hj
      rw [byteAt_eccRegion _ _ (by simp) _ hj]; simp

theorem witness_CdscrIsSelfInverse : ∃ s t : State, s.cfg.scrambleOk = true ∧ 2352 ≤ s.len.toNat ∧
    RangesFit s s.len.toNat ∧ s.input.take 12 = sync ∧ exec .cdscr s = .next t ∧ (chained t).cfg = t.cfg ∧
    (chained t).mem = t.mem ∧ (chained t).src = t.dst ∧ (chained t).len = t.len ∧
    RangesFit (chained t) (chained t).len.toNat := by
  obtain ⟨t, ht, hf⟩ := chain .cdscr (bs := sync ++ zeros 2340) (by simp)
  have hl : (holding (sync ++ zeros 2340)).len.toNat = 2352 := by rw [holding_len (by simp)]; simp
  refine ⟨_, t, rfl, by omega, by rw [hl]; exact holding_fits (by simp) (by simp), ?_, ht, rfl, rfl, rfl, rfl, hf _ ?_⟩
  · rw [holding_input (by simp)]; rfl
  · have := congrArg BitVec.toNat (exec_operands ht).len
    rw [show (chained t).len = t.len from rfl]; omega

theorem witness_KeystreamLaws : (zeros 2064).length = 2064 ∧ keystream 0 = keystream 0 ∧ 2047 < 2048 := by simp

theorem witness_SearchIsFirstVerifying : Config.standard.ecmaSeedsOk = true ∧
    (zeros 2064).length = 2064 ∧
    search Config.standard ⟨some 0, [0]⟩ (zeros 2064) = .found 0 1 .hint ∧
    (∃ sec n, search Config.standard ⟨some 0, [0]⟩ sec = .notFound n) ∧
    ∃ x : Seed, verify Config.standard (zeros 2064) x = true := by
  refine ⟨rfl, by simp, search_hint _ _ _ _ rfl verify_zeros, ?_, 0, verify_zeros⟩
  obtain ⟨bs, _, _, _, _, _, n, h4⟩ := missed
  exact ⟨bs, n, h4⟩

theorem witness_CandidateSequence : Config.standard.cacheOrder = .standard := rfl

/-- A state with another state's instance is otherwise the same. -/
theorem again {s : State} (t : State) {n : Nat} (h : RangesFit s n) : ∃ u : State, u.cfg = s.cfg ∧ u.dvd = t.dvd ∧
    u.len = s.len ∧ u.input = s.input ∧ RangesFit u n := ⟨{ s with dvd := t.dvd }, rfl, rfl, rfl, rfl, h⟩

/-- What the two seed commands leave where a seed is found. -/
theorem seed_commands {s : State} {x : Seed} {n : Nat} {g : Stage} (hl : s.len.toNat = 2064)
    (hr : search s.cfg s.dvd s.input = .found x n g) :
    (RangesFit s 2064 → ∃ t, exec .dvdscr s = .next t ∧ t.res0 = x.setWidth 32) ∧
    (RangesFit s 2048 → ∃ t, exec .dvdseed s = .next t ∧ statusOutcome t.status = 3) := by
  have h : ¬ s.input.length ≠ dvdSectorSize := by simp [hl, dvdSectorSize]
  constructor
  · intro hf
    obtain ⟨t, ht, _, hb⟩ := exec_form .dvdscr s 2064 hl (by simp) (by simp)
    refine ⟨t, ht, ?_⟩
    rw [hb hf]
    simp only [State.apply, effect, if_neg h, hr, seedEffect, State.finish_res0]
  · intro hf
    obtain ⟨t, ht, _, hb⟩ := exec_form .dvdseed s 2048 rfl (by simp) (by simp)
    refine ⟨t, ht, ?_⟩
    rw [hb hf]
    simp only [State.apply, effect, if_neg h, hr, seedEffect, State.finish_status]
    exact (statusWord_fields _ _ _ _).1

theorem witness_DvdscrUndoesScrambling : ∃ (s : State) (plain : Bytes) (x : Seed), RangesFit s s.len.toNat ∧
    s.len.toNat = 2064 ∧ plain.length = 2064 ∧ dvdEdc s.cfg (plain.take 2060) = dvdEdcField plain ∧
    s.input = dvdApply plain (keystream x) ∧ ∃ t, exec .dvdscr s = .next t ∧ t.res0 = x.setWidth 32 := by
  obtain ⟨h1, _, h2, h3, h4⟩ := hinted_found
  refine ⟨hinted (zeros 2064), zeros 2064, 0, by rw [h2]; exact h1, h2, by simp, ?_, by rw [dvdApply_zeros, h3],
    (seed_commands h2 h4).1 h1⟩
  rw [take_zeros, dvdEdcField_zeros]
  exact dvdEdcStandard_zeros 2060

theorem witness_DvdseedAgainUsesTheHint : ∃ s t : State, RangesFit s 2048 ∧ s.len.toNat = 2064 ∧
    exec .dvdseed s = .next t ∧ statusOutcome t.status = 3 ∧
    ∃ u : State, u.cfg = s.cfg ∧ u.dvd = t.dvd ∧ u.len = s.len ∧ u.input = s.input ∧ RangesFit u 2048 := by
  obtain ⟨_, h1, h2, _, h4⟩ := hinted_found
  obtain ⟨t, ht, hs⟩ := (seed_commands h2 h4).2 h1
  exact ⟨_, t, h1, h2, ht, hs, again t h1⟩

/-- Values 99 and digit pairs 99 in all nine places, and the commands after them. -/
theorem witness_BcdRoundTrip :
    (∃ t, exec .qbin2bcd (holding (0 :: List.replicate 9 99 ++ [0, 0])) = .next t ∧ RangesFit (chained t) 12 ∧
      (chained t).cfg = t.cfg ∧ (chained t).mem = t.mem ∧ (chained t).src = t.dst ∧ (chained t).len = t.len) ∧
    (∃ t, exec .qbcd2bin (holding (0 :: List.replicate 9 0x99 ++ [0, 0])) = .next t ∧ RangesFit (chained t) 12 ∧
      (chained t).cfg = t.cfg ∧ (chained t).mem = t.mem ∧ (chained t).src = t.dst ∧ (chained t).len = t.len) ∧
    (holding (0 :: List.replicate 9 99 ++ [0, 0])).len.toNat = 12 ∧
    RangesFit (holding (0 :: List.replicate 9 99 ++ [0, 0])) 12 ∧
    (∀ k, 1 ≤ k → k ≤ 9 → (byteAt (holding (0 :: List.replicate 9 99 ++ [0, 0])).input k).toNat ≤ 99) ∧
    ∀ k, 1 ≤ k → k ≤ 9 → (hi4 (byteAt (holding (0 :: List.replicate 9 0x99 ++ [0, 0])).input k)).toNat ≤ 9 ∧
      (lo4 (byteAt (holding (0 :: List.replicate 9 0x99 ++ [0, 0])).input k)).toNat ≤ 9 := by
  obtain ⟨t, ht, hf⟩ := chain .qbin2bcd (bs := 0 :: List.replicate 9 99 ++ [0, 0]) (by simp)
  obtain ⟨u, hu, hg⟩ := chain .qbcd2bin (bs := 0 :: List.replicate 9 0x99 ++ [0, 0]) (by simp)
  refine ⟨⟨t, ht, hf _ (by simp), rfl, rfl, rfl, rfl⟩, ⟨u, hu, hg _ (by simp), rfl, rfl, rfl, rfl⟩, by decide,
    holding_fits (by simp) (by simp), ?_, ?_⟩
  · intro k h1 h2
    interval_cases k <;> decide +kernel
  · intro k h1 h2
    interval_cases k <;> decide +kernel

theorem witness_InterleaverRoundTrip (i : Instr) : ∃ t, (holding (zeros 96)).len.toNat % 96 = 0 ∧
    RangesFit (holding (zeros 96)) (holding (zeros 96)).len.toNat ∧ exec i (holding (zeros 96)) = .next t ∧
    (chained t).cfg = t.cfg ∧ (chained t).mem = t.mem ∧ (chained t).src = t.dst ∧ (chained t).len = t.len ∧
    RangesFit (chained t) (chained t).len.toNat := by
  obtain ⟨t, ht, hf⟩ := chain i (bs := zeros 96) (by simp)
  have hl : (holding (zeros 96)).len.toNat = 96 := by rw [holding_len (by simp)]; simp
  refine ⟨t, by omega, by rw [hl]; exact holding_fits (by simp) (by simp), ht, rfl, rfl, rfl, rfl, hf _ ?_⟩
  have := congrArg BitVec.toNat (exec_operands ht).len
  rw [show (chained t).len = t.len from rfl]; omega

end Sys2Proof.Tests
end

section
/-! SUPPORT. The host port (spec 10_state.md R28, R30, 20_memory.md R61): what one step makes of a register access and
of a command word. -/

namespace Sys2Proof.Machine

/-- A step with an event to come performs that event (R70). -/
theorem step_of_host_cons {s : State} {e : HostEvent} {rest : List HostEvent} (h : s.host = e :: rest) :
    step s = { s with host := rest }.hostEvent e := by
  simp only [step, State.advance, h]

/-- A 32-bit access at an aligned offset of the map reaches the register there (R61). -/
theorem busTarget_of_register (memSize : Nat) {off : Nat} (hoff : off ≤ 0xFF) (halign : off % 4 = 0) :
    busTarget memSize 32 off = .register off := by
  rw [busTarget, if_pos hoff, if_pos ⟨rfl, halign⟩]

/-- A read of a register changes only what the host holds (R281). -/
theorem step_rd_register {s : State} {off : Nat} {rest : List HostEvent} (hhost : s.host = rd off :: rest)
    (hoff : off ≤ 0xFF) (halign : off % 4 = 0) :
    step s = .next { s with host := rest, rdata := s.readReg off } := by
  rw [step_of_host_cons hhost]
  simp only [rd, State.hostEvent, State.busRead, busTarget_of_register _ hoff halign]
  rfl

/-- A write to a register stores the word there, and runs it where the register is `CMD` (R28, R282). -/
theorem step_wr_register {s : State} {off : Nat} {v : Word} {rest : List HostEvent} (hhost : s.host = wr off v :: rest)
    (hoff : off ≤ 0xFF) (halign : off % 4 = 0) :
    step s = if off = cmdOffset then { s with host := rest, cmd := v }.runCommand v
      else .next ({ s with host := rest }.writeReg off v) := by
  rw [step_of_host_cons hhost]
  simp only [wr, State.hostEvent, State.busWrite, busTarget_of_register _ hoff halign]

/-- A write to `CMD` runs the word in the state whose `CMD` already holds it (R28). -/
theorem step_wr_cmd {s : State} {w : Word} {rest : List HostEvent} (hhost : s.host = wr cmdOffset w :: rest) :
    step s = { s with host := rest, cmd := w }.runCommand w := by
  rw [step_wr_register hhost (by decide) (by decide), if_pos rfl]

/-- A word that decodes runs as the command it decodes to (R95). -/
theorem State.runCommand_of_decode_ok {s : State} {w : Word} {i : Instr} (h : decode s.cfg.hasEccDec w = .ok i) :
    s.runCommand w = exec i s := by
  simp only [State.runCommand, h]

/-- A word whose `OPC` is no command of the block raises `ILLOP` and does nothing else (R95, R301). -/
theorem State.runCommand_of_decode_illop {s : State} {w : Word} (h : decode s.cfg.hasEccDec w = .error .illop) :
    s.runCommand w = .next (s.raise .illop) := by
  simp only [State.runCommand, h]

/-- A word with a reserved bit set raises `RSVD` and does nothing else (R95, R301). -/
theorem State.runCommand_of_decode_rsvd {s : State} {w : Word} (h : decode s.cfg.hasEccDec w = .error .rsvd) :
    s.runCommand w = .next (s.raise .rsvd) := by
  simp only [State.runCommand, h]

/-- A command error keeps the operand registers (R303). -/
theorem State.raise_operandsKept (s : State) (e : CmdError) : OperandsKept s (s.raise e) :=
  ⟨rfl, rfl, rfl, rfl, rfl, rfl, rfl, rfl, rfl, rfl, rfl, rfl⟩

/-- Whatever the word, running it keeps the operand registers, `CMD` and the events still to come. -/
theorem State.runCommand_operandsKept {s t : State} {w : Word} (h : s.runCommand w = .next t) : OperandsKept s t := by
  match hd : decode s.cfg.hasEccDec w with
  | .ok i =>
    rw [State.runCommand_of_decode_ok hd] at h
    exact exec_operands h
  | .error .illop =>
    rw [State.runCommand_of_decode_illop hd] at h
    cases h
    exact s.raise_operandsKept .illop
  | .error .rsvd =>
    rw [State.runCommand_of_decode_rsvd hd] at h
    cases h
    exact s.raise_operandsKept .rsvd

/-! ### The statement -/

/-- Settles O5: decoding picks the command, no end of a command writes `CMD`, and `CMD` is a register of the map. -/
theorem stepRunsTheCommand : Obligations.StepRunsTheCommand := by
  unfold Obligations.StepRunsTheCommand
  refine ⟨?runs, ?holdsWord, ?readsBack, ?atReset⟩
  case runs =>
    intro s w rest i hhost hdecode
    rw [step_wr_cmd hhost]
    exact State.runCommand_of_decode_ok hdecode
  case holdsWord =>
    intro s t w rest hhost hstep
    rw [step_wr_cmd hhost] at hstep
    have hkept := State.runCommand_operandsKept hstep
    exact ⟨hkept.cmd, hkept.host⟩
  case readsBack =>
    intro s rest hhost
    exact step_rd_register hhost (by decide) (by decide)
  case atReset => rfl

end Sys2Proof.Machine
end

section
/-! SUPPORT. The decoder (spec 30_encoding.md R90 to R95): the fields a word consists of, what the opcode map says of
each of its rows, and from both which of the three answers `decode` gives. -/

namespace Sys2Proof

/-! ### The fields of a word -/

/-- A track type has the `TT` value it was read from (R92). -/
@[simp] theorem TrackType.toBits_ofBits (b : BitVec 3) : (TrackType.ofBits b).toBits = b := by
  revert b
  decide

/-- The four flags have the `QF` value they were read from (R93). -/
@[simp] theorem QFlags.toBits_ofBits (b : BitVec 4) : (QFlags.ofBits b).toBits = b := by
  revert b
  decide

/-- The bits above `QF`, 31:16, which no command uses (R90). -/
def highField (w : Word) : BitVec 16 := w.extractLsb' 16 16

/-- Words are equal when their fields and the bits between these are (R90). -/
theorem word_ext_iff {v w : Word} : v = w ↔ opcField v = opcField w ∧ ttField v = ttField w ∧
    v.getLsbD 11 = w.getLsbD 11 ∧ qfField v = qfField w ∧ highField v = highField w := by
  refine ⟨fun h => by simp [h], fun ⟨hopc, htt, hgap, hqf, hhigh⟩ => ?_⟩
  have field {start len : Nat} (h : v.extractLsb' start len = w.extractLsb' start len) (j : Nat) (hj : j < len) :
      v.getLsbD (start + j) = w.getLsbD (start + j) := by
    have hbit := congrArg (·.getLsbD j) h
    simpa [BitVec.getLsbD_extractLsb', hj] using hbit
  apply BitVec.eq_of_getLsbD_eq
  intro i hi
  obtain h | h | h | h | h : i < 8 ∨ (8 ≤ i ∧ i < 11) ∨ i = 11 ∨ (12 ≤ i ∧ i < 16) ∨ 16 ≤ i := by omega
  · simpa using field hopc i h
  · simpa [Nat.add_sub_cancel' h.1] using field htt (i - 8) (by omega)
  · rw [h, hgap]
  · simpa [Nat.add_sub_cancel' h.1] using field hqf (i - 12) (by omega)
  · simpa [Nat.add_sub_cancel' h] using field hhigh (i - 16) (by omega)

theorem opcField_and (v w : Word) : opcField (v &&& w) = opcField v &&& opcField w := BitVec.extractLsb'_and

theorem ttField_and (v w : Word) : ttField (v &&& w) = ttField v &&& ttField w := BitVec.extractLsb'_and

theorem qfField_and (v w : Word) : qfField (v &&& w) = qfField v &&& qfField w := BitVec.extractLsb'_and

theorem highField_and (v w : Word) : highField (v &&& w) = highField v &&& highField w := BitVec.extractLsb'_and

/-- A field under a mask that leaves it out or keeps it. -/
theorem masked_eq_zero_iff {n : Nat} (x : BitVec n) (p : Prop) [Decidable p] :
    x &&& (if p then 0 else BitVec.allOnes n) = 0 ↔ (¬ p → x = 0) := by
  split_ifs with hp <;> simp [hp]

/-! ### The rows of the opcode map -/

/-- The operation codes of the commands, in the order of R94. -/
def commandOpcs : List (BitVec 8) :=
  [0x00, 0x10, 0x11, 0x12, 0x13, 0x14, 0x20, 0x30, 0x31, 0x32, 0x33, 0x34, 0x40, 0x41, 0x42, 0x43, 0x44, 0x45]

/-- The operation codes of the commands that have a `TT` field (R94). -/
def ttOpcs : List (BitVec 8) := [0x11, 0x12, 0x13, 0x14]

theorem opcodeRows_opc : opcodeRows.map Row.opc = commandOpcs := rfl

/-- `ECCSYN` and `ECCFIX` alone need the ECC decoder (R94). -/
theorem row_needsEccDec_iff : ∀ r ∈ opcodeRows, r.needsEccDec = true ↔ r.opc = 0x13 ∨ r.opc = 0x14 := by decide

/-- The pattern of a row is its `OPC` (R94). -/
theorem row_pattern_fields : ∀ r ∈ opcodeRows, opcField r.pattern = r.opc ∧ ttField r.pattern = 0 ∧
    r.pattern.getLsbD 11 = false ∧ qfField r.pattern = 0 ∧ highField r.pattern = 0 := by decide

/-- The mask of a row leaves out the fields its command has (R94). -/
theorem row_mask_fields : ∀ r ∈ opcodeRows, opcField r.mask = BitVec.allOnes 8 ∧
    ttField r.mask = (if r.opc ∈ ttOpcs then 0 else BitVec.allOnes 3) ∧ r.mask.getLsbD 11 = true ∧
    qfField r.mask = (if r.opc = 0x45 then 0 else BitVec.allOnes 4) ∧ highField r.mask = BitVec.allOnes 16 := by decide

/-- A row builds a command with its `OPC` that carries the fields the row has (R94). -/
theorem row_build_fields (w : Word) : ∀ r ∈ opcodeRows, (r.build w).opc = r.opc ∧
    (r.build w).ttBits = (if r.opc ∈ ttOpcs then ttField w else 0) ∧
    (r.build w).qfBits = (if r.opc = 0x45 then qfField w else 0) := by
  simp [opcodeRows, ttOpcs, Instr.opc, Instr.ttBits, Instr.qfBits]

/-- R95 step 2: a bit outside the fields of the row with the word's `OPC` is set. -/
def ReservedBitSet (w : Word) : Prop :=
  highField w ≠ 0 ∨ w.getLsbD 11 = true ∨ (opcField w ∉ ttOpcs ∧ ttField w ≠ 0) ∨ (opcField w ≠ 0x45 ∧ qfField w ≠ 0)

/-- A word has the pattern of the row with its `OPC` exactly when no bit outside the row's fields is set (R94). -/
theorem row_matches_iff {r : Row} {w : Word} (hr : r ∈ opcodeRows) (hopc : r.opc = opcField w) :
    w &&& r.mask = r.pattern ↔ ¬ ReservedBitSet w := by
  obtain ⟨popc, ptt, pgap, pqf, phigh⟩ := row_pattern_fields r hr
  obtain ⟨mopc, mtt, mgap, mqf, mhigh⟩ := row_mask_fields r hr
  rw [hopc] at popc mtt mqf
  have hfields : w &&& r.mask = r.pattern ↔ (opcField w ∉ ttOpcs → ttField w = 0) ∧ w.getLsbD 11 = false ∧
      (opcField w ≠ 0x45 → qfField w = 0) ∧ highField w = 0 := by
    rw [word_ext_iff, opcField_and, ttField_and, BitVec.getLsbD_and, qfField_and, highField_and, popc, ptt, pgap, pqf,
      phigh, mopc, mtt, mgap, mqf, mhigh, masked_eq_zero_iff, masked_eq_zero_iff]
    simp only [BitVec.and_allOnes, Bool.and_true, true_and, ne_eq]
  rw [hfields, ReservedBitSet, ← Bool.not_eq_true]
  tauto

/-! ### The row of a word -/

/-- R95 step 1: no command of the block has the `OPC`. -/
def NoCommand (hasEccDec : Bool) (opc : BitVec 8) : Prop :=
  opc ∉ commandOpcs ∨ ((opc = 0x13 ∨ opc = 0x14) ∧ hasEccDec = false)

/-- The row that is found is one of the map, has the `OPC` and exists in the block. -/
theorem findRow_some {hasEccDec : Bool} {opc : BitVec 8} {r : Row} (h : findRow hasEccDec opc = some r) :
    r ∈ opcodeRows ∧ r.opc = opc ∧ (r.needsEccDec = true → hasEccDec = true) := by
  have hfound := List.find?_some h
  simp only [Bool.and_eq_true, beq_iff_eq, Bool.or_eq_true, Bool.not_eq_true'] at hfound
  obtain ⟨hopc, hexists⟩ := hfound
  exact ⟨List.mem_of_find?_eq_some h, hopc, fun hneeds => hexists.resolve_right (by simp [hneeds])⟩

/-- No row is found for exactly the operation codes of no command. -/
theorem findRow_eq_none_iff (hasEccDec : Bool) (opc : BitVec 8) :
    findRow hasEccDec opc = none ↔ NoCommand hasEccDec opc := by
  constructor
  · intro hnone
    by_cases hmem : opc ∈ commandOpcs
    · rw [← opcodeRows_opc, List.mem_map] at hmem
      obtain ⟨r, hr, rfl⟩ := hmem
      have hrefused := List.find?_eq_none.mp hnone r hr
      have hneeds : hasEccDec = false ∧ r.needsEccDec = true := by simpa using hrefused
      exact .inr ⟨(row_needsEccDec_iff r hr).mp hneeds.2, hneeds.1⟩
    · exact .inl hmem
  · intro hno
    by_contra hsome
    obtain ⟨r, hfind⟩ := Option.ne_none_iff_exists'.mp hsome
    obtain ⟨hr, rfl, hexists⟩ := findRow_some hfind
    rcases hno with hmem | ⟨hecc, hfalse⟩
    · exact hmem (opcodeRows_opc ▸ List.mem_map_of_mem hr)
    · have htrue := hexists ((row_needsEccDec_iff r hr).mpr hecc)
      exact absurd (htrue.symm.trans hfalse) (by decide)

/-! ### The three answers of the decoder -/

/-- R95 step 1. -/
theorem decode_eq_illop {hasEccDec : Bool} {w : Word} (h : NoCommand hasEccDec (opcField w)) :
    decode hasEccDec w = .error .illop := by
  simp only [decode, (findRow_eq_none_iff hasEccDec (opcField w)).mpr h]

/-- R95 steps 2 and 3: an `OPC` of the block has a row, which decides by its pattern. -/
theorem decode_of_row {hasEccDec : Bool} {w : Word} (h : ¬ NoCommand hasEccDec (opcField w)) :
    ∃ r ∈ opcodeRows, r.opc = opcField w ∧
      decode hasEccDec w = if w &&& r.mask = r.pattern then .ok (r.build w) else .error .rsvd := by
  rw [← findRow_eq_none_iff] at h
  obtain ⟨r, hfind⟩ := Option.ne_none_iff_exists'.mp h
  obtain ⟨hr, hopc, -⟩ := findRow_some hfind
  exact ⟨r, hr, hopc, by simp only [decode, hfind]⟩

/-- R95 step 2. -/
theorem decode_eq_rsvd {hasEccDec : Bool} {w : Word} (h : ¬ NoCommand hasEccDec (opcField w)) (hw : ReservedBitSet w) :
    decode hasEccDec w = .error .rsvd := by
  obtain ⟨r, hr, hopc, hdecode⟩ := decode_of_row h
  rw [hdecode, if_neg (fun hmatch => (row_matches_iff hr hopc).mp hmatch hw)]

/-- R95 step 3: the command has the word's `OPC` and, a field its row lacks being 0, the word's fields. -/
theorem decode_eq_ok {hasEccDec : Bool} {w : Word} (h : ¬ NoCommand hasEccDec (opcField w)) (hw : ¬ ReservedBitSet w) :
    ∃ i : Instr, decode hasEccDec w = .ok i ∧ i.opc = opcField w ∧ i.ttBits = ttField w ∧ i.qfBits = qfField w := by
  obtain ⟨r, hr, hopc, hdecode⟩ := decode_of_row h
  obtain ⟨bopc, btt, bqf⟩ := row_build_fields w r hr
  rw [if_pos ((row_matches_iff hr hopc).mpr hw)] at hdecode
  simp only [ReservedBitSet, not_or, not_and, not_not] at hw
  obtain ⟨-, -, htt, hqf⟩ := hw
  rw [hopc] at bopc btt bqf
  refine ⟨r.build w, hdecode, bopc, ?_, ?_⟩
  · rw [btt]
    split_ifs with hmem
    · rfl
    · exact (htt hmem).symm
  · rw [bqf]
    split_ifs with hmem
    · rfl
    · exact (hqf hmem).symm

end Sys2Proof

namespace Sys2Proof.Machine

/-- Settles O4: a write to `CMD` runs the word, and the word is decoded by the steps of R95. -/
theorem wordIsDecodedInOrder : Obligations.WordIsDecodedInOrder := by
  unfold Obligations.WordIsDecodedInOrder
  intro s w rest hhost s0 opc illegal reserved
  have hstep : step s = s0.runCommand w := step_wr_cmd hhost
  refine ⟨fun hillegal => ?illop, fun hlegal hreserved => ?rsvd, fun hlegal hfree => ?command⟩
  case illop =>
    rw [hstep, State.runCommand_of_decode_illop (s := s0) (decode_eq_illop hillegal), State.raise_eq]
    rfl
  case rsvd =>
    rw [hstep, State.runCommand_of_decode_rsvd (s := s0) (decode_eq_rsvd hlegal hreserved), State.raise_eq]
    rfl
  case command =>
    obtain ⟨i, hdecode, hopc, htt, hqf⟩ := decode_eq_ok hlegal hfree
    exact ⟨i, hopc, htt, hqf, hstep.trans (State.runCommand_of_decode_ok hdecode)⟩

end Sys2Proof.Machine
end

section
/-! SUPPORT. Packed decimals and disc times (spec 40_tables.md R128, R129): the nibbles of a byte as numbers, the two
digits `to_bcd` packs, and the time an `Msf` spells. -/

namespace Sys2Proof.Machine

/-! ### The nibbles of a byte (R11) -/

theorem hi4_toNat (b : Byte) : (hi4 b).toNat = b.toNat / 16 := by
  rw [hi4, BitVec.extractLsb'_toNat, Nat.shiftRight_eq_div_pow]
  exact Nat.mod_eq_of_lt (by omega)

theorem lo4_toNat (b : Byte) : (lo4 b).toNat = b.toNat % 16 := by
  rw [lo4, BitVec.extractLsb'_toNat, Nat.shiftRight_zero]

/-- A byte is determined by its nibbles. -/
theorem toNat_eq_nibbles (b : Byte) : b.toNat = (hi4 b).toNat * 16 + (lo4 b).toNat := by
  rw [hi4_toNat, lo4_toNat]
  omega

/-! ### Packed decimals (R128) -/

/-- The nibbles that R128 combines do not overlap, so that combining them adds them up. -/
theorem digits_or_eq_add (v : Nat) : ((v / 10) <<< 4) ||| (v % 10) = (v / 10) * 16 + v % 10 := by
  have hunits : v % 10 < 2 ^ 4 := by omega
  rw [← Nat.shiftLeft_add_eq_or_of_lt hunits, Nat.shiftLeft_eq]

/-- No bit of the two digits is lost in the byte. -/
theorem toBcd_toNat {v : Nat} (hv : v ≤ 99) : (toBcd v).toNat = ((v / 10) <<< 4) ||| (v % 10) := by
  rw [toBcd, BitVec.toNat_ofNat, digits_or_eq_add]
  exact Nat.mod_eq_of_lt (by omega)

theorem hi4_toBcd {v : Nat} (hv : v ≤ 99) : (hi4 (toBcd v)).toNat = v / 10 := by
  rw [hi4_toNat, toBcd_toNat hv, digits_or_eq_add]
  omega

theorem lo4_toBcd {v : Nat} (hv : v ≤ 99) : (lo4 (toBcd v)).toNat = v % 10 := by
  rw [lo4_toNat, toBcd_toNat hv, digits_or_eq_add]
  omega

/-- The tens and the units of `v` spell `v`. -/
theorem fromBcd_toBcd {v : Nat} (hv : v ≤ 99) : fromBcd (toBcd v) = v := by
  rw [fromBcd, hi4_toBcd hv, lo4_toBcd hv]
  omega

theorem fromBcd_le {b : Byte} (hhi : (hi4 b).toNat ≤ 9) (hlo : (lo4 b).toNat ≤ 9) : fromBcd b ≤ 99 := by
  rw [fromBcd]
  omega

/-- The nibbles of `b` are the tens and the units of the value they spell. -/
theorem toBcd_fromBcd {b : Byte} (hhi : (hi4 b).toNat ≤ 9) (hlo : (lo4 b).toNat ≤ 9) : toBcd (fromBcd b) = b := by
  have htens : fromBcd b / 10 = (hi4 b).toNat := by rw [fromBcd]; omega
  have hunits : fromBcd b % 10 = (lo4 b).toNat := by rw [fromBcd]; omega
  apply BitVec.eq_of_toNat_eq
  rw [toBcd_toNat (fromBcd_le hhi hlo), digits_or_eq_add, htens, hunits, ← toNat_eq_nibbles]

/-! ### Disc times (R129) -/

/-- No time up to 449999 has more than 99 minutes. -/
theorem msf_minute_le {t : Nat} (ht : t ≤ 449999) : (msf t).minute ≤ 99 := by
  simp only [msf]
  omega

theorem msf_second_le (t : Nat) : (msf t).second ≤ 59 := by
  simp only [msf]
  omega

theorem msf_frame_le (t : Nat) : (msf t).frame ≤ 74 := by
  simp only [msf]
  omega

/-- Minute, second and frame spell the time they were read from. -/
theorem msf_spells_time (t : Nat) : t = ((msf t).minute * 60 + (msf t).second) * 75 + (msf t).frame := by
  simp only [msf]
  omega

/-! ### The statement -/

/-- Settles O45: `to_bcd` packs the two digits without overlap, so each nibble reads one back; the time is divided by
75 and then by 60. -/
theorem bcdAndMsf : Obligations.BcdAndMsf := by
  unfold Obligations.BcdAndMsf
  refine ⟨fun v hv => toBcd_toNat hv, ?digits, ?pairs, ?times⟩
  case digits =>
    intro v hv
    refine ⟨?_, ?_, fromBcd_toBcd hv⟩
    · rw [hi4_toBcd hv]
      omega
    · rw [lo4_toBcd hv]
      omega
  case pairs =>
    intro b hhi hlo
    exact ⟨rfl, fromBcd_le hhi hlo, toBcd_fromBcd hhi hlo⟩
  case times =>
    intro t ht
    exact ⟨rfl, rfl, rfl, msf_minute_le ht, msf_second_le t, msf_frame_le t, msf_spells_time t⟩

end Sys2Proof.Machine
end

section
/-! SUPPORT. `EDC` and `RPREFIX` (spec 41_edc_ecc_encode.md R141 to R145): how `RPREFIX` chooses among its ends, and what
each byte of its output is. -/

namespace Sys2Proof.Machine

/-- A command that reads an input and has a result alone for an effect: its range errors, or the end its result says. -/
theorem exec_result {i : Instr} {s : State} {r : Result} (heffect : effect i s s.input = ⟨r, s.q, s.dvd⟩)
    (hnop : i ≠ .nop) (hdvdrst : i ≠ .dvdrst) :
    ∃ t, exec i s = .next t ∧ RangeErrors s t (outmax i s.len.toNat) ∧
      (RangesFit s (outmax i s.len.toNat) → Ends s t r.tag r.reason r.out r.res0 r.res1 r.res2) := by
  obtain ⟨t, hexec, herrors, hends⟩ := exec_form i s _ rfl hnop hdvdrst
  refine ⟨t, hexec, herrors, fun hfit => ?_⟩
  rw [hends hfit]
  exact ends_of s _ r heffect

/-- Settles O22: the effect of `EDC` is its result. -/
theorem edcCommand : Obligations.EdcCommand := by
  unfold Obligations.EdcCommand
  intro s
  exact exec_result (i := .edc) rfl (by decide) (by decide)

/-! ### The tests of `RPREFIX` (R144) -/

theorem hasPrefix_iff (tt : TrackType) :
    hasPrefix tt = true ↔ tt = .mode1 ∨ tt = .mode2Form1 ∨ tt = .mode2Form2 ∨ tt = .mode2Formless := by
  cases tt <;> decide

theorem timeOk_iff (t : Int) : timeOk t = true ↔ 0 ≤ t ∧ t ≤ 449999 := by
  rw [timeOk, Bool.and_eq_true, decide_eq_true_iff, decide_eq_true_iff]

section
variable {tt : TrackType} {lba : Int} {src : Bytes}

theorem rprefixResult_of_short (hlen : src.length < sectorSize) : rprefixResult tt lba src = passCopy .length src :=
  if_pos hlen

theorem rprefixResult_of_unlisted (hlen : sectorSize ≤ src.length) (htt : ¬ hasPrefix tt = true) :
    rprefixResult tt lba src = passCopy .ttype src := by
  simp [rprefixResult, not_lt.mpr hlen, htt]

theorem rprefixResult_of_time_out (hlen : sectorSize ≤ src.length) (htt : hasPrefix tt = true)
    (htime : ¬ timeOk (lbaTime lba) = true) : rprefixResult tt lba src = passCopy .range src := by
  simp [rprefixResult, not_lt.mpr hlen, htt, htime]

theorem rprefixResult_of_time_in (hlen : sectorSize ≤ src.length) (htt : hasPrefix tt = true)
    (htime : timeOk (lbaTime lba) = true) :
    rprefixResult tt lba src = { tag := .transformed, out := withPrefix tt (lbaTime lba).toNat src } := by
  simp [rprefixResult, not_lt.mpr hlen, htt, htime]

end

/-! ### The bytes `RPREFIX` writes (R143, R144) -/

/-- Inside the range of an assignment stand the assigned bytes. -/
theorem byteAt_splice_inside {b v : Bytes} {lo i : Nat} (hfit : lo + v.length ≤ b.length) (hlo : lo ≤ i)
    (hhi : i < lo + v.length) : byteAt (splice b lo v) i = byteAt v (i - lo) := by
  rw [byteAt_splice _ _ _ _ hfit, if_pos ⟨hlo, hhi⟩]

/-- Outside the range of an assignment the bytes are as before. -/
theorem byteAt_splice_outside {b v : Bytes} {lo i : Nat} (hfit : lo + v.length ≤ b.length)
    (hout : i < lo ∨ lo + v.length ≤ i) : byteAt (splice b lo v) i = byteAt b i := by
  rw [byteAt_splice _ _ _ _ hfit, if_neg (by omega)]

/-- The sector with `SYNC` and the time, which all four modes have. -/
def withTime (t : Nat) (src : Bytes) : Bytes := splice (splice src 0 sync) 12 (headerTime t)

/-- Mode 1 has a mode byte besides; Mode 2 also the first subheader copy, taken from the second. -/
theorem withPrefix_eq (tt : TrackType) (t : Nat) (src : Bytes) : withPrefix tt t src =
    if tt = .mode1 then splice (withTime t src) 15 [0x01]
    else splice (splice (withTime t src) 15 [0x02]) 0x10 (slice src 0x14 0x18) := rfl

section
variable {src : Bytes} (hlen : 2352 ≤ src.length) (t : Nat)
include hlen

theorem length_withTime : (withTime t src).length = src.length := by
  have hsync : (splice src 0 sync).length = src.length := length_splice _ _ _ (by simp; omega)
  rw [withTime, length_splice _ _ _ (by simp [hsync]; omega), hsync]

theorem byteAt_withTime (k : Nat) : byteAt (withTime t src) k =
    if k < 12 then byteAt sync k else if k < 15 then byteAt (headerTime t) (k - 12) else byteAt src k := by
  have hsync : (splice src 0 sync).length = src.length := length_splice _ _ _ (by simp; omega)
  have hfit : 12 + (headerTime t).length ≤ (splice src 0 sync).length := by simp [hsync]; omega
  have hfit0 : 0 + sync.length ≤ src.length := by simp; omega
  rw [withTime]
  obtain hk | hk | hk : k < 12 ∨ (12 ≤ k ∧ k < 15) ∨ 15 ≤ k := by omega
  · rw [if_pos hk, byteAt_splice_outside hfit (.inl hk), byteAt_splice_inside hfit0 k.zero_le (by simpa using hk),
      Nat.sub_zero]
  · rw [if_neg (by omega), if_pos hk.2, byteAt_splice_inside hfit hk.1 hk.2]
  · rw [if_neg (by omega), if_neg (by omega), byteAt_splice_outside hfit (.inr hk),
      byteAt_splice_outside hfit0 (.inr (by simp; omega))]

/-- What `RPREFIX` writes after the time: the mode byte and, for Mode 2, the subheader copy. -/
theorem byteAt_withPrefix_mode (tt : TrackType) (k : Nat) : byteAt (withPrefix tt t src) k =
    if k = 15 then (if tt = .mode1 then 0x01 else 0x02)
    else if 16 ≤ k ∧ k < 20 ∧ tt ≠ .mode1 then byteAt src (k + 4)
    else byteAt (withTime t src) k := by
  have hmode (m : Byte) : byteAt (splice (withTime t src) 15 [m]) k =
      if k = 15 then m else byteAt (withTime t src) k := by
    have hfit : 15 + [m].length ≤ (withTime t src).length := by
      rw [length_withTime hlen, List.length_singleton]; omega
    obtain rfl | hk := eq_or_ne k 15
    · rw [byteAt_splice_inside hfit le_rfl (Nat.lt_succ_self _)]
      rfl
    · rw [if_neg hk, byteAt_splice_outside hfit (by rw [List.length_singleton]; omega)]
  rw [withPrefix_eq]
  by_cases htt : tt = .mode1
  · simp [htt, hmode]
  · have hsub : (slice src 0x14 0x18).length = 4 := by rw [length_slice]; omega
    have hfit : 0x10 + (slice src 0x14 0x18).length ≤ (splice (withTime t src) 15 [0x02]).length := by
      rw [length_splice] <;> rw [length_withTime hlen] <;> simp only [hsub, List.length_singleton] <;> omega
    rw [if_neg htt, if_neg htt]
    by_cases hk : 16 ≤ k ∧ k < 20
    · rw [if_neg (by omega), if_pos ⟨hk.1, hk.2, htt⟩, byteAt_splice_inside hfit hk.1 (by omega), byteAt_slice,
        if_pos (by omega)]
      congr 1
      omega
    · rw [byteAt_splice_outside hfit (by omega), hmode, if_neg (c := 16 ≤ k ∧ _) (by tauto)]

/-- Every byte of the output of `RPREFIX` (R144). -/
theorem byteAt_withPrefix (tt : TrackType) (k : Nat) : byteAt (withPrefix tt t src) k =
    if k < 12 then byteAt sync k
    else if k = 12 then toBcd (t / 4500)
    else if k = 13 then toBcd (t / 75 % 60)
    else if k = 14 then toBcd (t % 75)
    else if k = 15 then (if tt = .mode1 then 0x01 else 0x02)
    else if k < 20 ∧ tt ≠ .mode1 then byteAt src (k + 4)
    else byteAt src k := by
  rw [byteAt_withPrefix_mode hlen, byteAt_withTime hlen]
  obtain hk | rfl | rfl | rfl | rfl | hk : k < 12 ∨ k = 12 ∨ k = 13 ∨ k = 14 ∨ k = 15 ∨ 16 ≤ k := by omega
  · rw [if_neg (by omega), if_neg (by omega), if_pos hk, if_pos hk]
  · rfl
  · rfl
  · rfl
  · rfl
  · simp [hk, show ¬ k < 12 by omega, show ¬ k < 15 by omega, show k ≠ 12 by omega, show k ≠ 13 by omega,
      show k ≠ 14 by omega, show k ≠ 15 by omega]

end

/-- Settles O23: the result of `RPREFIX` is chosen by the tests of R144, and the bytes of the last one are those of
`withPrefix`. -/
theorem rprefixCommand : Obligations.RprefixCommand := by
  unfold Obligations.RprefixCommand
  intro tt s
  obtain ⟨t, hexec, herrors, hends⟩ := exec_result (i := .rprefix tt) (s := s) rfl (by simp) (by simp)
  refine ⟨t, hexec, herrors, fun hfit => ?_⟩
  replace hends := hends hfit
  rw [← s.length_input, ← hasPrefix_iff]
  refine ⟨fun hlen => ?short, fun hlen htt => ?unlisted, fun hlen htt htime => ?timeOut,
    fun hlen htt hlow hhigh => ?timeIn⟩
  case short => rwa [rprefixResult_of_short hlen] at hends
  case unlisted => rwa [rprefixResult_of_unlisted hlen htt] at hends
  case timeOut =>
    have hout : ¬ timeOk (lbaTime s.lbaInt) = true := by rw [timeOk_iff, lbaTime, State.lbaInt]; omega
    rwa [rprefixResult_of_time_out hlen htt hout] at hends
  case timeIn =>
    have hin : timeOk (lbaTime s.lbaInt) = true := (timeOk_iff _).mpr ⟨hlow, hhigh⟩
    rw [rprefixResult_of_time_in hlen htt hin] at hends
    exact ⟨_, hends, length_withPrefix _ _ _ hlen, fun k _ => byteAt_withPrefix hlen _ tt k⟩

end Sys2Proof.Machine
end

section
/-! SUPPORT. `RECC` (spec 41_edc_ecc_encode.md R146 to R150): the parity it writes is the parity of the sector it leaves,
because each pass reads only bytes below the ones it writes. -/

namespace Sys2Proof.Machine

/-! ### The tests of `RECC` (R150) -/

theorem edcRange_eq_none {tt : TrackType} (h1 : tt ≠ .mode1) (h2 : tt ≠ .mode2Form1) (h3 : tt ≠ .mode2Form2) :
    edcRange tt = none := by
  cases tt with
  | mode1 => exact absurd rfl h1
  | mode2Form1 => exact absurd rfl h2
  | mode2Form2 => exact absurd rfl h3
  | _ => rfl

section
variable {tt : TrackType} {src : Bytes}

theorem reccResult_of_short (hlen : src.length < sectorSize) : reccResult tt src = passCopy .length src :=
  if_pos hlen

theorem reccResult_of_no_edc (hlen : sectorSize ≤ src.length) (htt : edcRange tt = none) :
    reccResult tt src = passCopy .ttype src := by
  simp only [reccResult, if_neg (not_lt.mpr hlen), htt]

/-- For a mode with an EDC range the result has an output of the input's length and the EDC in `RES0`. -/
theorem reccResult_of_edc {lo hi : Nat} (hlen : sectorSize ≤ src.length) (htt : edcRange tt = some (lo, hi)) :
    ∃ out, out = withParity tt (withEdc tt hi (edcCd 0 (slice src lo hi)) src) ∧
      reccResult tt src = { tag := .transformed, out := out, res0 := edcCd 0 (slice src lo hi) } ∧
      out.length = src.length := by
  refine ⟨(reccResult tt src).out, ?_, ?_, length_reccResult tt src⟩ <;>
    simp only [reccResult, if_neg (not_lt.mpr hlen), htt]

end

/-! ### The parity as a function of the finished sector (R147, R149) -/

/-- The bytes from the header up to sector byte `hi`, the four header bytes zero when `zeroAddress`: what a parity pass
that writes from `hi` on reads of a finished sector. -/
def codedBytes (zeroAddress : Bool) (out : Bytes) (hi : Nat) : Bytes :=
  match zeroAddress with
  | false => slice out 0x00C hi
  | true => List.replicate 4 0 ++ slice out 0x010 hi

theorem byteAt_codedBytes (zeroAddress : Bool) (out : Bytes) {hi i : Nat} (h : i + 0x00C < hi) :
    byteAt (codedBytes zeroAddress out hi) i = if zeroAddress = true ∧ i < 4 then 0 else byteAt out (0x00C + i) := by
  cases zeroAddress with
  | false => simp only [codedBytes, byteAt_slice, if_pos (show i < hi - 0x00C by omega), Bool.false_eq_true, false_and,
      if_false]
  | true =>
    rw [codedBytes, byteAt_append, List.length_replicate, byteAt_replicate]
    by_cases hi4 : i < 4
    · simp only [hi4, if_true, and_self]
    · rw [if_neg hi4, if_neg (by omega), byteAt_slice, if_pos (by omega)]
      congr 1
      omega

section
variable {sec : Bytes} (hlen : 2352 ≤ sec.length) (z : Bool)
include hlen

theorem byteAt_eccWrite_below {k : Nat} (hk : k < 0x81C) : byteAt (eccWrite sec z) k = byteAt sec k := by
  rw [byteAt_eccWrite _ _ hlen, if_neg (by omega), if_neg (by omega)]

/-- Below the P parity the finished sector has the bytes that the P pass reads. -/
theorem pParity_of_eccWrite :
    pParity (parityRegion sec z) = pParity (codedBytes z (eccWrite sec z) 0x81C) := by
  refine pParity_congr _ _ fun i hi => ?_
  rw [byteAt_parityRegion _ _ hlen _ (by omega), byteAt_codedBytes _ _ (by omega),
    byteAt_eccWrite_below hlen _ (by omega)]

/-- Below the Q parity the finished sector has the bytes that the Q pass reads, the P parity among them. -/
theorem qParity_of_eccWrite :
    qParity (splice (parityRegion sec z) 2064 (pParity (parityRegion sec z))) =
      qParity (codedBytes z (eccWrite sec z) 0x8C8) := by
  have hfit : 2064 + (pParity (parityRegion sec z)).length ≤ (parityRegion sec z).length := by
    rw [length_pParity, length_parityRegion _ _ hlen]
  refine qParity_congr _ _ fun i hi => ?_
  rw [byteAt_codedBytes _ _ (by omega)]
  by_cases hp : i < 2064
  · rw [byteAt_splice_outside hfit (.inl hp), byteAt_parityRegion _ _ hlen _ hi, byteAt_eccWrite_below hlen _ (by omega)]
  · have hwritten : byteAt (eccWrite sec z) (0x00C + i) = byteAt (pParity (parityRegion sec z)) (i - 2064) := by
      rw [byteAt_eccWrite _ _ hlen, if_pos (by omega), show 0x00C + i - 0x81C = i - 2064 by omega]
    rw [byteAt_splice_inside hfit (by omega) (by rw [length_pParity]; omega), if_neg (by omega), hwritten]

/-- Every byte of a sector with its parity, the parity in terms of the sector itself (R149). -/
theorem byteAt_eccWrite_self (k : Nat) : byteAt (eccWrite sec z) k =
    if 0x81C ≤ k ∧ k < 0x8C8 then byteAt (pParity (codedBytes z (eccWrite sec z) 0x81C)) (k - 0x81C)
    else if 0x8C8 ≤ k ∧ k < 0x930 then byteAt (qParity (codedBytes z (eccWrite sec z) 0x8C8)) (k - 0x8C8)
    else byteAt sec k := by
  rw [← pParity_of_eccWrite hlen, ← qParity_of_eccWrite hlen]
  exact byteAt_eccWrite sec z hlen k

end

/-! ### The bytes of the three modes (R150) -/

section
variable {src : Bytes} (hlen : 2352 ≤ src.length) (e : Word) (k : Nat)
include hlen

/-- Every byte of a Mode1 sector with its EDC and its parity: the fields of R140 do not overlap. -/
theorem byteAt_recc_mode1 {out : Bytes} (hout : out = eccWrite (withEdc .mode1 0x810 e src) false) : byteAt out k =
    if 0x810 ≤ k ∧ k < 0x814 then byteAt (u32le e) (k - 0x810)
    else if 0x814 ≤ k ∧ k < 0x81C then 0
    else if 0x81C ≤ k ∧ k < 0x8C8 then byteAt (pParity (codedBytes false out 0x81C)) (k - 0x81C)
    else if 0x8C8 ≤ k ∧ k < 0x930 then byteAt (qParity (codedBytes false out 0x8C8)) (k - 0x8C8)
    else byteAt src k := by
  have hsec : 2352 ≤ (withEdc .mode1 0x810 e src).length := by rwa [length_withEdc _ _ _ _ hlen (by omega)]
  have hparity := byteAt_eccWrite_self hsec false k
  have hedc := byteAt_withEdc .mode1 0x810 e src hlen (by omega) k
  rw [← hout] at hparity
  grind

/-- Every byte of a Mode2Form1 sector with its EDC and its parity. -/
theorem byteAt_recc_mode2Form1 {out : Bytes} (hout : out = eccWrite (withEdc .mode2Form1 0x818 e src) true) :
    byteAt out k =
      if 0x818 ≤ k ∧ k < 0x81C then byteAt (u32le e) (k - 0x818)
      else if 0x81C ≤ k ∧ k < 0x8C8 then byteAt (pParity (codedBytes true out 0x81C)) (k - 0x81C)
      else if 0x8C8 ≤ k ∧ k < 0x930 then byteAt (qParity (codedBytes true out 0x8C8)) (k - 0x8C8)
      else byteAt src k := by
  have hsec : 2352 ≤ (withEdc .mode2Form1 0x818 e src).length := by rwa [length_withEdc _ _ _ _ hlen (by omega)]
  have hparity := byteAt_eccWrite_self hsec true k
  have hedc := byteAt_withEdc .mode2Form1 0x818 e src hlen (by omega) k
  rw [← hout] at hparity
  grind

/-- Every byte of a Mode2Form2 sector with its EDC. -/
theorem byteAt_recc_mode2Form2 {out : Bytes} (hout : out = withEdc .mode2Form2 0x92C e src) : byteAt out k =
    if 0x92C ≤ k ∧ k < 0x930 then byteAt (u32le e) (k - 0x92C) else byteAt src k := by
  rw [hout, byteAt_withEdc _ _ _ _ hlen (by omega), if_neg (by simp)]

end

/-- Settles O24: the result of `RECC` is chosen by the tests of R150, and the three modes with an EDC range have the bytes
of their layouts. -/
theorem reccCommand : Obligations.ReccCommand := by
  unfold Obligations.ReccCommand
  intro tt s
  obtain ⟨t, hexec, herrors, hends⟩ := exec_result (i := .recc tt) (s := s) rfl (by simp) (by simp)
  refine ⟨t, hexec, herrors, fun hfit => ?_⟩
  replace hends := hends hfit
  rw [← s.length_input]
  refine ⟨fun hlen => ?short, fun hlen h1 h2 h3 => ?noEdc, fun hlen htt => ?mode1, fun hlen htt => ?mode2Form1,
    fun hlen htt => ?mode2Form2⟩
  case short => rwa [reccResult_of_short hlen] at hends
  case noEdc => rwa [reccResult_of_no_edc hlen (edcRange_eq_none h1 h2 h3)] at hends
  case mode1 =>
    subst htt
    obtain ⟨out, hout, hresult, hlength⟩ := reccResult_of_edc hlen (tt := .mode1) rfl
    rw [hresult] at hends
    exact ⟨out, hends, hlength, fun k _ => byteAt_recc_mode1 hlen _ k hout⟩
  case mode2Form1 =>
    subst htt
    obtain ⟨out, hout, hresult, hlength⟩ := reccResult_of_edc hlen (tt := .mode2Form1) rfl
    rw [hresult] at hends
    exact ⟨out, hends, hlength, fun k _ => byteAt_recc_mode2Form1 hlen _ k hout⟩
  case mode2Form2 =>
    subst htt
    obtain ⟨out, hout, hresult, hlength⟩ := reccResult_of_edc hlen (tt := .mode2Form2) rfl
    rw [hresult] at hends
    exact ⟨out, hends, hlength, fun k _ => byteAt_recc_mode2Form2 hlen _ k hout⟩

end Sys2Proof.Machine
end

section
/-! SUPPORT. The P/Q ECC decoder (spec 42_ecc_decode.md R170 to R180): how `ECCSYN` and `ECCFIX` choose among their ends,
the syndrome pairs of the codewords over the bytes of the region, and the bytes a corrected region is written back to. -/

namespace Sys2Proof.Machine

/-! ### The tests of `ECCSYN` and `ECCFIX` (R176, R180) -/

theorem hasEcc_iff (tt : TrackType) : hasEcc tt = true ↔ tt = .mode1 ∨ tt = .mode2Form1 := by
  cases tt <;> decide

theorem hasEcc_eq_false {tt : TrackType} (h1 : tt ≠ .mode1) (h2 : tt ≠ .mode2Form1) : hasEcc tt = false := by
  rw [Bool.eq_false_iff, ne_eq, hasEcc_iff, not_or]
  exact ⟨h1, h2⟩

section
variable {tt : TrackType} {src : Bytes}

theorem eccsynResult_of_short (hlen : src.length < sectorSize) : eccsynResult tt src = passBare .length :=
  if_pos hlen

theorem eccsynResult_of_unlisted (hlen : sectorSize ≤ src.length) (htt : hasEcc tt = false) :
    eccsynResult tt src = passBare .ttype := by
  rw [eccsynResult, if_neg (not_lt.mpr hlen), if_pos htt]

theorem eccsynResult_of_listed (hlen : sectorSize ≤ src.length) (htt : hasEcc tt = true) :
    eccsynResult tt src =
      { tag := .computed, out := syndromeBytes (eccRegion tt src),
        res0 := BitVec.ofNat 32 (countDirty (eccRegion tt src) ((List.range 86).map ppos)),
        res1 := BitVec.ofNat 32 (countDirty (eccRegion tt src) ((List.range 52).map qpos)) } := by
  rw [eccsynResult, if_neg (not_lt.mpr hlen), if_neg (by simp [htt])]

theorem eccfixResult_of_short (hlen : src.length < sectorSize) : eccfixResult tt src = passCopy .length src :=
  if_pos hlen

theorem eccfixResult_of_unlisted (hlen : sectorSize ≤ src.length) (htt : hasEcc tt = false) :
    eccfixResult tt src = passCopy .ttype src := by
  rw [eccfixResult, if_neg (not_lt.mpr hlen), if_pos htt]

/-- The correction pass `ECCFIX` makes over its input (R180). -/
def sectorPass (tt : TrackType) (src : Bytes) : FixState := fixPass (decide (tt = .mode2Form1)) (eccRegion tt src)

section
variable (hlen : sectorSize ≤ src.length) (htt : hasEcc tt = true)
include hlen htt

/-- Past the two tests the result of `ECCFIX` is chosen by the two counts of the pass. -/
theorem eccfixResult_of_listed : eccfixResult tt src =
    if (sectorPass tt src).fixed = 0 ∧ (sectorPass tt src).bad = 0 then passCopy .clean src
    else if (sectorPass tt src).fixed = 0 then
      { passCopy .uncorr src with res1 := BitVec.ofNat 32 (sectorPass tt src).bad }
    else
      { tag := .transformed, out := withRegion tt src (sectorPass tt src).region,
        res0 := BitVec.ofNat 32 (sectorPass tt src).fixed, res1 := BitVec.ofNat 32 (sectorPass tt src).bad } := by
  rw [eccfixResult, if_neg (not_lt.mpr hlen), if_neg (by simp [htt])]
  rfl

theorem eccfixResult_of_clean (hfixed : (sectorPass tt src).fixed = 0) (hbad : (sectorPass tt src).bad = 0) :
    eccfixResult tt src = passCopy .clean src := by
  rw [eccfixResult_of_listed hlen htt, if_pos ⟨hfixed, hbad⟩]

theorem eccfixResult_of_uncorr (hfixed : (sectorPass tt src).fixed = 0) (hbad : (sectorPass tt src).bad ≠ 0) :
    eccfixResult tt src = { passCopy .uncorr src with res1 := BitVec.ofNat 32 (sectorPass tt src).bad } := by
  rw [eccfixResult_of_listed hlen htt, if_neg fun h => hbad h.2, if_pos hfixed]

theorem eccfixResult_of_fixed (hfixed : (sectorPass tt src).fixed ≠ 0) : eccfixResult tt src =
    { tag := .transformed, out := withRegion tt src (sectorPass tt src).region,
      res0 := BitVec.ofNat 32 (sectorPass tt src).fixed, res1 := BitVec.ofNat 32 (sectorPass tt src).bad } := by
  rw [eccfixResult_of_listed hlen htt, if_neg fun h => hfixed h.1, if_neg hfixed]

end

end

/-! ### The syndrome pairs of a sector's codewords (R171, R172, R176) -/

theorem getElem?_allPositions_p {j : Nat} (hj : j < 86) : allPositions[j]? = some (ppos j) := by
  rw [allPositions, List.getElem?_append_left (by simpa using hj), List.getElem?_map, List.getElem?_range hj,
    Option.map_some]

theorem getElem?_allPositions_q {j : Nat} (hj : j < 52) : allPositions[86 + j]? = some (qpos j) := by
  rw [allPositions, List.getElem?_append_right (by simp), List.length_map, List.length_range, Nat.add_sub_cancel_left,
    List.getElem?_map, List.getElem?_range hj, Option.map_some]

/-- The codeword at place `j` of the pass order has its pair at bytes `2 j` and `2 j + 1` of the output. -/
theorem byteAt_syndromeBytes {region : Bytes} {j : Nat} {pos : List Nat} (hpos : allPositions[j]? = some pos) :
    byteAt (syndromeBytes region) (2 * j) = (syndromes (symbols region pos)).1 ∧
      byteAt (syndromeBytes region) (2 * j + 1) = (syndromes (symbols region pos)).2 := by
  obtain ⟨hj, rfl⟩ := List.getElem?_eq_some_iff.mp hpos
  exact byteAt_flatMap2 allPositions (fun pos => syndromes (symbols region pos)) j hj

theorem countDirty_map_range {region : Bytes} {pos : Nat → List Nat} {pair : Nat → Byte × Byte} {n : Nat}
    (hpair : ∀ j, j < n → syndromes (symbols region (pos j)) = pair j) :
    countDirty region ((List.range n).map pos) = (List.range n).countP fun j => decide (pair j ≠ (0, 0)) := by
  rw [countDirty, ← List.countP_eq_length_filter, List.countP_map]
  refine List.countP_congr fun j hj => ?_
  simp [hpair j (List.mem_range.mp hj)]

/-- The bytes of the region of R170 over the bytes of the sector: from the header on, a Mode2Form1 header as zero. -/
def regionByte (tt : TrackType) (src : Bytes) (k : Nat) : Byte :=
  if tt = .mode2Form1 ∧ k < 4 then 0 else byteAt src (0x00C + k)

section
variable {tt : TrackType} {src : Bytes} (hlen : 2352 ≤ src.length) {j : Nat}
include hlen

theorem symbols_eccRegion {pos : List Nat} (hpos : ∀ k ∈ pos, k < 2340) :
    symbols (eccRegion tt src) pos = pos.map (regionByte tt src) :=
  symbols_congr _ _ pos 2340 hpos (byteAt_eccRegion tt src hlen)

theorem symbols_eccRegion_ppos (hj : j < 86) :
    symbols (eccRegion tt src) (ppos j) = (ppos j).map (regionByte tt src) :=
  symbols_eccRegion hlen fun k hk => (ppos_lt j hj k hk).trans (by decide)

theorem symbols_eccRegion_qpos (hj : j < 52) :
    symbols (eccRegion tt src) (qpos j) = (qpos j).map (regionByte tt src) :=
  symbols_eccRegion hlen (qpos_lt j hj)

end

/-- Settles O25: the result of `ECCSYN` is chosen by the tests of R176, and the codewords of the computed end have the
bytes of the region for symbols. -/
theorem eccsynCommand : Obligations.EccsynCommand := by
  unfold Obligations.EccsynCommand
  intro tt s
  obtain ⟨t, hexec, herrors, hends⟩ := exec_result (i := .eccsyn tt) (s := s) rfl (by simp) (by simp)
  refine ⟨t, hexec, herrors, fun hfit => ?_⟩
  replace hends := hends hfit
  rw [← s.length_input]
  refine ⟨fun hlen => ?short, fun hlen h1 h2 => ?unlisted, fun hlen htt => ?listed⟩
  case short => rwa [eccsynResult_of_short hlen] at hends
  case unlisted => rwa [eccsynResult_of_unlisted hlen (hasEcc_eq_false h1 h2)] at hends
  case listed =>
    have hp (j : Nat) (hj : j < 86) := congrArg syndromes (symbols_eccRegion_ppos (tt := tt) hlen hj)
    have hq (j : Nat) (hj : j < 52) := congrArg syndromes (symbols_eccRegion_qpos (tt := tt) hlen hj)
    rw [eccsynResult_of_listed hlen ((hasEcc_iff tt).mpr htt), countDirty_map_range hp, countDirty_map_range hq] at hends
    refine ⟨_, hends, length_syndromeBytes _, fun j hj => ?p, fun j hj => ?q⟩
    case p =>
      have hpair := byteAt_syndromeBytes (region := eccRegion tt s.input) (getElem?_allPositions_p hj)
      rwa [hp j hj] at hpair
    case q =>
      have hpair := byteAt_syndromeBytes (region := eccRegion tt s.input) (getElem?_allPositions_q hj)
      rwa [hq j hj, Nat.mul_add] at hpair

/-! ### The bytes `ECCFIX` writes (R180) -/

section
variable {tt : TrackType} {src : Bytes} (hlen : 2352 ≤ src.length)
include hlen

theorem length_sectorPass_region : (sectorPass tt src).region.length = 2340 := by
  rw [sectorPass, fixPass, length_foldl_fixCodeword, length_eccRegion tt src hlen]

/-- The region stands in the sector from its header on; of a Mode2Form1 sector the header is kept. -/
theorem byteAt_withRegion {region : Bytes} (hregion : region.length = 2340) (k : Nat) :
    byteAt (withRegion tt src region) k =
      if 0x00C + (if tt = .mode2Form1 then 4 else 0) ≤ k ∧ k < 0x930 then byteAt region (k - 0x00C)
      else byteAt src k := by
  rw [withRegion]
  by_cases htt : tt = .mode2Form1
  · have hdrop : (region.drop 4).length = 2336 := by rw [List.length_drop, hregion]
    rw [if_pos htt, if_pos htt, byteAt_splice _ _ _ _ (by omega), hdrop]
    by_cases hk : 0x00C + 4 ≤ k ∧ k < 0x930
    · rw [if_pos hk, if_pos hk, byteAt_drop, show 4 + (k - (0x00C + 4)) = k - 0x00C by omega]
    · rw [if_neg hk, if_neg hk]
  · rw [if_neg htt, if_neg htt, byteAt_splice _ _ _ _ (by omega), hregion]

end

/-- Settles O26: the result of `ECCFIX` is chosen by the tests of R180 and by the counts of its pass over the codewords,
and the corrected region is written back over the sector. -/
theorem eccfixCommand : Obligations.EccfixCommand := by
  unfold Obligations.EccfixCommand
  intro tt s
  obtain ⟨t, hexec, herrors, hends⟩ := exec_result (i := .eccfix tt) (s := s) rfl (by simp) (by simp)
  refine ⟨t, hexec, herrors, fun hfit => ?_⟩
  replace hends := hends hfit
  rw [← s.length_input]
  refine ⟨fun hlen => ?short, fun hlen h1 h2 => ?unlisted, fun hlen htt => ?listed⟩
  case short => rwa [eccfixResult_of_short hlen] at hends
  case unlisted => rwa [eccfixResult_of_unlisted hlen (hasEcc_eq_false h1 h2)] at hends
  case listed =>
    replace htt := (hasEcc_iff tt).mpr htt
    have hregion : (sectorPass tt s.input).region.length = 2340 := length_sectorPass_region hlen
    refine ⟨fun hfixed hbad => ?clean, fun hfixed hbad => ?uncorr, fun hfixed => ?fixed⟩
    case clean => rwa [eccfixResult_of_clean hlen htt hfixed hbad] at hends
    case uncorr => rwa [eccfixResult_of_uncorr hlen htt hfixed hbad] at hends
    case fixed =>
      rw [eccfixResult_of_fixed hlen htt hfixed] at hends
      exact ⟨_, hends, length_withRegion _ _ _ hlen hregion, fun k _ => byteAt_withRegion hlen hregion k⟩

end Sys2Proof.Machine
end

section
/-! SUPPORT. The CD scrambler (spec 43_cd_scrambler.md R190 to R193): how `CDSCR` chooses among its ends, and the bytes of
a scrambled sector. -/

namespace Sys2Proof.Machine

/-! ### The tests of `CDSCR` (R193) -/

section
variable {table src : Bytes}

theorem cdscrResult_of_short (hlen : src.length < sectorSize) : cdscrResult table src = passCopy .length src :=
  if_pos hlen

section
variable (hlen : sectorSize ≤ src.length)
include hlen

theorem cdscrResult_of_nosync (hsync : src.take 12 ≠ sync) : cdscrResult table src = passCopy .nosync src := by
  rw [cdscrResult, if_neg (not_lt.mpr hlen), if_pos hsync]

theorem cdscrResult_of_sync (hsync : src.take 12 = sync) :
    cdscrResult table src = { tag := .transformed, out := cdScramble table src } := by
  rw [cdscrResult, if_neg (not_lt.mpr hlen), if_neg (not_not.mpr hsync)]

end

/-! ### The bytes `CDSCR` writes (R193) -/

/-- The sector is exclusive-ored with the table, whatever the table's length: a byte past its end counts as 0. -/
theorem byteAt_cdScramble {k : Nat} (hk : k < src.length) : byteAt (cdScramble table src) k =
    if k < 2352 then byteAt src k ^^^ byteAt table k else byteAt src k := by
  rw [cdScramble, byteAt_xorPrefix _ _ _ hk, byteAt_take, sectorSize]
  by_cases hsector : k < 2352
  · rw [if_pos hsector, if_pos hsector]
  · rw [if_neg hsector, if_neg hsector]
    exact BitVec.xor_zero

end

/-- Settles O27: the result of `CDSCR` is chosen by the tests of R193, and the bytes of the last one are those of the
scrambled sector. -/
theorem cdscrCommand : Obligations.CdscrCommand := by
  unfold Obligations.CdscrCommand
  intro s
  obtain ⟨t, hexec, herrors, hends⟩ := exec_result (i := .cdscr) (s := s) rfl (by decide) (by decide)
  refine ⟨t, hexec, herrors, fun hfit => ?_⟩
  replace hends := hends hfit
  rw [← s.length_input]
  refine ⟨fun hlen => ?short, fun hlen hsync => ?nosync, fun hlen hsync => ?sync⟩
  case short => rwa [cdscrResult_of_short hlen] at hends
  case nosync => rwa [cdscrResult_of_nosync hlen hsync] at hends
  case sync =>
    rw [cdscrResult_of_sync hlen hsync] at hends
    exact ⟨_, hends, length_cdScramble _ _, fun _ hk => byteAt_cdScramble hk⟩

end Sys2Proof.Machine
end

section
/-! SUPPORT. The DVD descrambler (spec 44_dvd_descrambler.md R206 to R219): when a sector verifies, the candidates of a
search, the effects of the five commands, and what a batch makes chunk by chunk. -/

namespace Sys2Proof.Machine

/-! ### Verification (R206) -/

/-- `verify` over the bytes of a sector, with the stored EDC as the number its last four bytes spell. -/
theorem verify_eq_true_iff {c : Config} {sec : Bytes} {x : Seed} (hlen : sec.length = 2064) :
    verify c sec x = true ↔
      (dvdEdc c ((List.range 2060).map fun k =>
        if 12 ≤ k then byteAt sec k ^^^ byteAt (keystream x) (k - 12) else byteAt sec k)).toNat =
      (byteAt sec 2060).toNat * 2 ^ 24 + (byteAt sec 2061).toNat * 2 ^ 16 + (byteAt sec 2062).toNat * 2 ^ 8 +
        (byteAt sec 2063).toNat := by
  rw [verify, decide_eq_true_iff, take_dvdApply sec x hlen, ← BitVec.toNat_inj, dvdEdcField, u32be_toNat]

/-! ### The candidate sequence (R208, R209) -/

theorem seedsFrom_eq_map (n k : Nat) : seedsFrom n k = (List.range' k n).map (BitVec.ofNat 15) := by
  induction n generalizing k with
  | zero => rfl
  | succ n ih => rw [seedsFrom, ih, List.range'_succ, List.map_cons]

theorem insertByRank_perm (rank : Seed → Nat) (x : Seed) (l : List Seed) : (insertByRank rank x l).Perm (x :: l) := by
  induction l with
  | nil => exact .refl _
  | cons y l ih =>
    rw [insertByRank]
    split
    · exact .refl _
    · exact (ih.cons y).trans (.swap x y l)

theorem orderByRank_perm (rank : Seed → Nat) (l : List Seed) : (orderByRank rank l).Perm l := by
  induction l with
  | nil => exact .refl _
  | cons x l ih => exact (insertByRank_perm rank x _).trans (ih.cons x)

theorem cacheOrder_of_standard {c : Config} (h : c.cacheOrder = .standard) (cache : List Seed) :
    cacheOrder c cache = cache := by
  rw [cacheOrder, h]

/-- The order of `CACHE` only rearranges it. -/
theorem cacheOrder_perm (c : Config) (cache : List Seed) : (cacheOrder c cache).Perm cache := by
  cases h : c.cacheOrder with
  | standard => rw [cacheOrder_of_standard h]
  | other n =>
    rw [cacheOrder, h]
    exact orderByRank_perm _ cache

/-- Settles O56: the four stages of the sequence, each mapped on its own. -/
theorem candidateSequence : Obligations.CandidateSequence := by
  unfold Obligations.CandidateSequence
  intro c d
  refine ⟨?seeds, ?stages, cacheOrder_perm c d.cache, fun h => cacheOrder_of_standard h d.cache⟩
  case seeds =>
    simp only [candidates, List.map_append, List.map_map, Function.comp_def, List.map_id', seedsFrom_eq_map,
      List.range_eq_range']
  case stages =>
    simp only [candidates, List.map_append, List.map_map, Function.comp_def, Stage.number, List.map_const',
      seedsFrom_eq_map, List.length_range']

/-! ### The effects of the commands -/

@[simp] theorem State.apply_q (s : State) (e : Effect) : (s.apply e).q = e.q := rfl

@[simp] theorem State.apply_dvd (s : State) (e : Effect) : (s.apply e).dvd = e.dvd := rfl

/-- A command that may change the hint and the cache but keeps the Q record ends as its result says. -/
theorem leaves_apply (s : State) (r : Result) (d : DvdInstance) :
    Leaves s (s.apply ⟨r, s.q, d⟩) r.tag r.reason r.out r.res0 r.res1 r.res2 :=
  s.finish_dvd_leaves d r

/-- Settles O32: the effect of `DVDRST` is an unset hint and an empty cache, and no range check precedes it. -/
theorem dvdrstCommand : Obligations.DvdrstCommand := by
  unfold Obligations.DvdrstCommand
  intro s
  obtain ⟨_, _, hexec⟩ := exec_eq .dvdrst s
  exact ⟨_, hexec (.inr (.inl rfl)) (.inl rfl), leaves_apply s { tag := .computed } .fresh, rfl, rfl, rfl⟩

section
variable {s : State} {src : Bytes}

theorem effect_dvdtest_of_length (hlen : src.length ≠ 2064) :
    effect .dvdtest s src = ⟨passBare .length, s.q, s.dvd⟩ := by
  rw [effect, dvdSectorSize, if_pos hlen]

theorem effect_dvdtest_of_sector (hlen : src.length = 2064) : effect .dvdtest s src =
    ⟨{ tag := .computed, res0 := if verify s.cfg src s.seed then 1 else 0 }, s.q, s.dvd⟩ := by
  rw [effect, dvdSectorSize, if_neg (not_not.mpr hlen)]

theorem effect_dvdseed_of_length (hlen : src.length ≠ 2064) :
    effect .dvdseed s src = ⟨passBare .length, s.q, s.dvd⟩ := by
  rw [effect, dvdSectorSize, if_pos hlen]

theorem effect_dvdseed_of_notFound {n : Nat} (hlen : src.length = 2064)
    (hsearch : search s.cfg s.dvd src = .notFound n) : effect .dvdseed s src =
    ⟨{ passBare .noseed with res1 := BitVec.ofNat 32 n }, s.q, s.dvd⟩ := by
  rw [effect, dvdSectorSize, if_neg (not_not.mpr hlen), hsearch, seedEffect]

theorem effect_dvdseed_of_found {x : Seed} {n : Nat} {g : Stage} (hlen : src.length = 2064)
    (hsearch : search s.cfg s.dvd src = .found x n g) : effect .dvdseed s src =
    ⟨{ tag := .computed, out := keystream x, res0 := x.setWidth 32, res1 := BitVec.ofNat 32 n,
       res2 := BitVec.ofNat 32 g.number }, s.q, s.dvd.record x⟩ := by
  rw [effect, dvdSectorSize, if_neg (not_not.mpr hlen), hsearch, seedEffect]

theorem effect_dvdscr_of_length (hlen : src.length ≠ 2064) :
    effect .dvdscr s src = ⟨passCopy .length src, s.q, s.dvd⟩ := by
  rw [effect, dvdSectorSize, if_pos hlen]

theorem effect_dvdscr_of_notFound {n : Nat} (hlen : src.length = 2064)
    (hsearch : search s.cfg s.dvd src = .notFound n) : effect .dvdscr s src =
    ⟨{ passCopy .noseed src with res1 := BitVec.ofNat 32 n }, s.q, s.dvd⟩ := by
  rw [effect, dvdSectorSize, if_neg (not_not.mpr hlen), hsearch, seedEffect]

theorem effect_dvdscr_of_found {x : Seed} {n : Nat} {g : Stage} (hlen : src.length = 2064)
    (hsearch : search s.cfg s.dvd src = .found x n g) : effect .dvdscr s src =
    ⟨{ tag := .transformed, out := dvdApply src (keystream x), res0 := x.setWidth 32, res1 := BitVec.ofNat 32 n,
       res2 := BitVec.ofNat 32 g.number }, s.q, s.dvd.record x⟩ := by
  rw [effect, dvdSectorSize, if_neg (not_not.mpr hlen), hsearch, seedEffect]

theorem effect_dvdscrb_of_length (hlen : src.length ≠ 2064 * s.xfer.toNat) :
    effect .dvdscrb s src = ⟨passCopy .length src, s.q, s.dvd⟩ := by
  rw [effect, dvdSectorSize, if_pos hlen]

theorem effect_dvdscrb_of_chunks (hlen : src.length = 2064 * s.xfer.toNat) : effect .dvdscrb s src =
    ⟨batchResult (dvdBatch s.cfg s.xfer.toNat src s.dvd), s.q, (dvdBatch s.cfg s.xfer.toNat src s.dvd).inst⟩ := by
  rw [effect, dvdSectorSize, if_neg (not_not.mpr hlen)]

end

/-! ### The commands on one sector -/

/-- Settles O28: the length decides first, then whether the sector verifies. -/
theorem dvdtestCommand : Obligations.DvdtestCommand := by
  unfold Obligations.DvdtestCommand
  intro s
  obtain ⟨t, hexec, herrors, hends⟩ := exec_form .dvdtest s 0 rfl (by decide) (by decide)
  refine ⟨t, hexec, herrors, fun hfit => ?_⟩
  rw [hends hfit, ← s.length_input]
  intro plain stored
  refine ⟨fun hlen => ?short, fun hlen haccept => ?accept, fun hlen hreject => ?reject⟩
  case short =>
    rw [effect_dvdtest_of_length hlen]
    exact ends_apply s _
  case accept =>
    have hverify : verify s.cfg s.input s.seed = true := (verify_eq_true_iff hlen).mpr haccept
    rw [effect_dvdtest_of_sector hlen, if_pos hverify]
    exact ends_apply s _
  case reject =>
    have hverify : ¬ verify s.cfg s.input s.seed = true := fun h => hreject ((verify_eq_true_iff hlen).mp h)
    rw [effect_dvdtest_of_sector hlen, if_neg hverify]
    exact ends_apply s _

/-- Settles O29: the length decides first, then what the search finds. -/
theorem dvdseedCommand : Obligations.DvdseedCommand := by
  unfold Obligations.DvdseedCommand
  intro s
  obtain ⟨t, hexec, herrors, hends⟩ := exec_form .dvdseed s 2048 rfl (by decide) (by decide)
  refine ⟨t, hexec, herrors, fun hfit => ?_⟩
  rw [hends hfit, ← s.length_input]
  refine ⟨fun hlen => ?short, fun n hlen hsearch => ?missed, fun x n g hlen hsearch => ?found⟩
  case short =>
    rw [effect_dvdseed_of_length hlen]
    exact ends_apply s _
  case missed =>
    rw [effect_dvdseed_of_notFound hlen hsearch]
    exact ends_apply s _
  case found =>
    rw [effect_dvdseed_of_found hlen hsearch, State.apply_q, State.apply_dvd]
    exact ⟨leaves_apply s _ _, rfl, rfl, rfl⟩

/-- Settles O30: the length decides first, then what the search finds; a found seed's keystream is applied. -/
theorem dvdscrCommand : Obligations.DvdscrCommand := by
  unfold Obligations.DvdscrCommand
  intro s
  obtain ⟨t, hexec, herrors, hends⟩ := exec_form .dvdscr s s.len.toNat rfl (by decide) (by decide)
  refine ⟨t, hexec, herrors, fun hfit => ?_⟩
  rw [hends hfit, ← s.length_input]
  refine ⟨fun hlen => ?short, fun n hlen hsearch => ?missed, fun x n g hlen hsearch => ?found⟩
  case short =>
    rw [effect_dvdscr_of_length hlen]
    exact ends_apply s _
  case missed =>
    rw [effect_dvdscr_of_notFound hlen hsearch]
    exact ends_apply s _
  case found =>
    rw [effect_dvdscr_of_found hlen hsearch, State.apply_q, State.apply_dvd]
    refine ⟨_, leaves_apply s _ _, (length_dvdApply _ _).trans hlen, fun k hk => ?_, rfl, rfl, rfl⟩
    exact byteAt_dvdApply _ _ (length_keystream x) k (by omega)

/-! ### A batch, chunk by chunk (R217) -/

/-- Chunk `k` of a batch. -/
def chunkAt (b : Bytes) (k : Nat) : Bytes := slice b (2064 * k) (2064 * (k + 1))

theorem chunkAt_zero (b : Bytes) : chunkAt b 0 = b.take dvdSectorSize := rfl

theorem chunkAt_drop (b : Bytes) (k : Nat) : chunkAt (b.drop dvdSectorSize) k = chunkAt b (k + 1) := by
  have hstart : 2064 + 2064 * k = 2064 * (k + 1) := by omega
  have hsize : 2064 * (k + 1) - 2064 * k = 2064 * (k + 1 + 1) - 2064 * (k + 1) := by omega
  rw [chunkAt, chunkAt, slice, slice, List.drop_drop, dvdSectorSize, hstart, hsize]

theorem length_chunkAt {b : Bytes} {k : Nat} (h : 2064 * (k + 1) ≤ b.length) : (chunkAt b k).length = 2064 := by
  rw [chunkAt, length_slice]
  omega

/-- Whether a search ended with a seed. -/
def SearchResult.isFound : SearchResult → Bool
  | .found _ _ _ => true
  | .notFound _ => false

/-- A batch with one chunk more at its end, searched with the hint and the cache the batch has left. -/
def Batch.push (c : Config) (chunk : Bytes) (m : Batch) : Batch :=
  match search c m.inst chunk with
  | .found x _ _ => ⟨m.out ++ dvdApply chunk (keystream x), m.inst.record x, m.done + 1, m.miss⟩
  | .notFound _ => ⟨m.out ++ chunk, m.inst, m.done, m.miss + 1⟩

section
variable {c : Config} {chunk : Bytes} {m : Batch}

theorem Batch.push_of_found {x : Seed} {n : Nat} {g : Stage} (h : search c m.inst chunk = .found x n g) :
    m.push c chunk = ⟨m.out ++ dvdApply chunk (keystream x), m.inst.record x, m.done + 1, m.miss⟩ := by
  rw [push, h]

theorem Batch.push_of_notFound {n : Nat} (h : search c m.inst chunk = .notFound n) :
    m.push c chunk = ⟨m.out ++ chunk, m.inst, m.done, m.miss + 1⟩ := by
  rw [push, h]

end

/-- What one chunk more does: a piece of its length at the end of the output, and one of the two counts raised. -/
theorem Batch.push_spec (c : Config) (chunk : Bytes) (m : Batch) :
    (∃ piece : Bytes, piece.length = chunk.length ∧ (m.push c chunk).out = m.out ++ piece) ∧
    (m.push c chunk).done = m.done + (if (search c m.inst chunk).isFound then 1 else 0) ∧
    (m.push c chunk).miss = m.miss + (if !(search c m.inst chunk).isFound then 1 else 0) := by
  cases h : search c m.inst chunk with
  | found x n g =>
    rw [push_of_found h]
    exact ⟨⟨_, length_dvdApply _ _, rfl⟩, rfl, rfl⟩
  | notFound n =>
    rw [push_of_notFound h]
    exact ⟨⟨_, rfl, rfl⟩, rfl, rfl⟩

/-- A batch with one chunk more at its beginning. -/
def Batch.prepend (piece : Bytes) (hits misses : Nat) (m : Batch) : Batch :=
  ⟨piece ++ m.out, m.inst, m.done + hits, m.miss + misses⟩

/-- A chunk at the beginning and one at the end can be added in either order. -/
theorem Batch.prepend_push (c : Config) (chunk piece : Bytes) (hits misses : Nat) (m : Batch) :
    (m.prepend piece hits misses).push c chunk = (m.push c chunk).prepend piece hits misses := by
  cases h : search c m.inst chunk with
  | found x n g =>
    rw [push_of_found h, push_of_found (m := m.prepend piece hits misses) h]
    simp only [prepend, List.append_assoc, Nat.add_right_comm]
  | notFound n =>
    rw [push_of_notFound h, push_of_notFound (m := m.prepend piece hits misses) h]
    simp only [prepend, List.append_assoc, Nat.add_right_comm]

theorem dvdBatch_of_first_found {c : Config} {b : Bytes} {d : DvdInstance} {x : Seed} {trials : Nat} {g : Stage}
    (h : search c d (b.take dvdSectorSize) = .found x trials g) (n : Nat) : dvdBatch c (n + 1) b d =
    (dvdBatch c n (b.drop dvdSectorSize) (d.record x)).prepend (dvdApply (b.take dvdSectorSize) (keystream x)) 1 0 := by
  rw [dvdBatch, h]
  rfl

theorem dvdBatch_of_first_notFound {c : Config} {b : Bytes} {d : DvdInstance} {trials : Nat}
    (h : search c d (b.take dvdSectorSize) = .notFound trials) (n : Nat) : dvdBatch c (n + 1) b d =
    (dvdBatch c n (b.drop dvdSectorSize) d).prepend (b.take dvdSectorSize) 0 1 := by
  rw [dvdBatch, h]
  rfl

/-- A batch of one chunk more is the batch before it with that chunk at its end. -/
theorem dvdBatch_succ (c : Config) (n : Nat) (b : Bytes) (d : DvdInstance) :
    dvdBatch c (n + 1) b d = (dvdBatch c n b d).push c (chunkAt b n) := by
  induction n generalizing b d with
  | zero =>
    rw [chunkAt_zero]
    cases h : search c d (b.take dvdSectorSize) with
    | found x trials g =>
      rw [dvdBatch_of_first_found h, Batch.push_of_found (m := dvdBatch c 0 b d) h]
      simp [dvdBatch, Batch.prepend]
    | notFound trials =>
      rw [dvdBatch_of_first_notFound h, Batch.push_of_notFound (m := dvdBatch c 0 b d) h]
      simp [dvdBatch, Batch.prepend]
  | succ n ih =>
    cases h : search c d (b.take dvdSectorSize) with
    | found x trials g =>
      rw [dvdBatch_of_first_found h, dvdBatch_of_first_found h, ih, chunkAt_drop, Batch.prepend_push]
    | notFound trials =>
      rw [dvdBatch_of_first_notFound h, dvdBatch_of_first_notFound h, ih, chunkAt_drop, Batch.prepend_push]

section
variable (c : Config) (b : Bytes) (d : DvdInstance)

/-- The hint and the cache the search of chunk `k` starts from. -/
def instAt (k : Nat) : DvdInstance := (dvdBatch c k b d).inst

/-- Whether the search of chunk `k` finds a seed. -/
def hitAt (k : Nat) : Bool := (search c (instAt c b d k) (chunkAt b k)).isFound

/-- The two counts of a batch count its chunks with a seed and those without. -/
theorem dvdBatch_counts (n : Nat) :
    (dvdBatch c n b d).done = (List.range n).countP (fun k => hitAt c b d k) ∧
    (dvdBatch c n b d).miss = (List.range n).countP (fun k => !hitAt c b d k) := by
  induction n with
  | zero => exact ⟨rfl, rfl⟩
  | succ n ih =>
    obtain ⟨hdone, hmiss⟩ := ih
    obtain ⟨-, hdone', hmiss'⟩ := Batch.push_spec c (chunkAt b n) (dvdBatch c n b d)
    rw [dvdBatch_succ, hdone', hmiss', hdone, hmiss, List.range_succ, List.countP_append, List.countP_append,
      List.countP_singleton, List.countP_singleton]
    exact ⟨rfl, rfl⟩

variable {c b d}

theorem length_out_dvdBatch {n : Nat} (hlen : 2064 * n ≤ b.length) : (dvdBatch c n b d).out.length = 2064 * n := by
  induction n with
  | zero => rfl
  | succ n ih =>
    obtain ⟨⟨piece, hpiece, hout⟩, -, -⟩ := Batch.push_spec c (chunkAt b n) (dvdBatch c n b d)
    rw [dvdBatch_succ, hout, List.length_append, ih (by omega), hpiece, length_chunkAt hlen]
    rfl

/-- Later chunks only add to the output. -/
theorem out_dvdBatch_append {k n : Nat} (h : k ≤ n) :
    ∃ later : Bytes, (dvdBatch c n b d).out = (dvdBatch c k b d).out ++ later := by
  induction n, h using Nat.le_induction with
  | base => exact ⟨[], (List.append_nil _).symm⟩
  | succ n _ ih =>
    obtain ⟨later, hlater⟩ := ih
    obtain ⟨⟨piece, -, hout⟩, -, -⟩ := Batch.push_spec c (chunkAt b n) (dvdBatch c n b d)
    exact ⟨later ++ piece, by rw [dvdBatch_succ, hout, hlater, List.append_assoc]⟩

/-- What chunk `k` adds to the output stands at its place in the whole batch's output. -/
theorem slice_out_dvdBatch {k n : Nat} {piece : Bytes} (hk : k < n) (hlen : 2064 * n ≤ b.length)
    (hpiece : piece.length = 2064) (hout : (dvdBatch c (k + 1) b d).out = (dvdBatch c k b d).out ++ piece) :
    slice (dvdBatch c n b d).out (2064 * k) (2064 * (k + 1)) = piece := by
  obtain ⟨later, hlater⟩ := out_dvdBatch_append (c := c) (b := b) (d := d) (show k + 1 ≤ n from hk)
  have hbefore : (dvdBatch c k b d).out.length = 2064 * k := length_out_dvdBatch (by omega)
  rw [slice, hlater, hout, List.append_assoc, List.drop_left' hbefore, List.take_left' (by omega)]

/-- A chunk whose search finds a seed. -/
theorem dvdBatch_of_found {k n : Nat} (hk : k < n) (hlen : 2064 * n ≤ b.length) {x : Seed} {trials : Nat} {g : Stage}
    (h : search c (instAt c b d k) (chunkAt b k) = .found x trials g) :
    hitAt c b d k = true ∧ instAt c b d (k + 1) = (instAt c b d k).record x ∧
    slice (dvdBatch c n b d).out (2064 * k) (2064 * (k + 1)) = dvdApply (chunkAt b k) (keystream x) := by
  have hpush := (dvdBatch_succ c k b d).trans (Batch.push_of_found h)
  have hpiece : (dvdApply (chunkAt b k) (keystream x)).length = 2064 := by
    rw [length_dvdApply, length_chunkAt (by omega)]
  exact ⟨by rw [hitAt, h, SearchResult.isFound], congrArg Batch.inst hpush,
    slice_out_dvdBatch hk hlen hpiece (congrArg Batch.out hpush)⟩

/-- A chunk whose search finds none. -/
theorem dvdBatch_of_notFound {k n : Nat} (hk : k < n) (hlen : 2064 * n ≤ b.length) {trials : Nat}
    (h : search c (instAt c b d k) (chunkAt b k) = .notFound trials) :
    hitAt c b d k = false ∧ instAt c b d (k + 1) = instAt c b d k ∧
    slice (dvdBatch c n b d).out (2064 * k) (2064 * (k + 1)) = chunkAt b k := by
  have hpush := (dvdBatch_succ c k b d).trans (Batch.push_of_notFound h)
  exact ⟨by rw [hitAt, h, SearchResult.isFound], by simp only [instAt, hpush],
    slice_out_dvdBatch hk hlen (length_chunkAt (by omega)) (congrArg Batch.out hpush)⟩

end

/-- Settles O31: after the first `k` chunks the hint, the cache and the output are those of the batch of
these `k` chunks. -/
theorem dvdscrbCommand : Obligations.DvdscrbCommand := by
  unfold Obligations.DvdscrbCommand
  intro s
  obtain ⟨t, hexec, herrors, hends⟩ := exec_form .dvdscrb s s.len.toNat rfl (by decide) (by decide)
  refine ⟨t, hexec, herrors, fun hfit => ?_⟩
  rw [hends hfit, ← s.length_input]
  refine ⟨fun hlen => ?short, fun hlen => ?chunks⟩
  case short =>
    rw [effect_dvdscrb_of_length hlen]
    exact ends_apply s _
  case chunks =>
    rw [effect_dvdscrb_of_chunks hlen]
    refine ⟨(dvdBatch s.cfg s.xfer.toNat s.input s.dvd).out, instAt s.cfg s.input s.dvd, hitAt s.cfg s.input s.dvd, ?_⟩
    intro chunk done miss
    obtain ⟨hdone, hmiss⟩ := dvdBatch_counts s.cfg s.input s.dvd s.xfer.toNat
    have hcounts : done + miss = s.xfer.toNat := by
      have h := List.length_eq_countP_add_countP (hitAt s.cfg s.input s.dvd) (l := List.range s.xfer.toNat)
      simpa [done, miss] using h.symm
    refine ⟨?leaves, rfl, rfl, rfl, length_dvdBatch _ _ _ _ hlen, hcounts, fun c hc => ⟨?found, ?missed⟩⟩
    case leaves =>
      simp only [done, miss, ← hdone, ← hmiss]
      exact leaves_apply s (batchResult (dvdBatch s.cfg s.xfer.toNat s.input s.dvd)) _
    case found =>
      intro x n g hsearch
      obtain ⟨hhit, hinst, hslice⟩ := dvdBatch_of_found hc hlen.ge hsearch
      obtain ⟨hlast, hcache, -⟩ := (instAt s.cfg s.input s.dvd c).record_spec x
      rw [hinst]
      exact ⟨hhit, hlast, hcache, hslice⟩
    case missed =>
      intro n hsearch
      exact dvdBatch_of_notFound hc hlen.ge hsearch

end Sys2Proof.Machine
end

section
/-! SUPPORT. The BCD conversion of a Q block (spec 45_subchannel.md R231 to R234): what `QBIN2BCD` and `QBCD2BIN` share,
their three ends and the bytes of a converted block, for any test and any conversion of a numeric byte. -/

namespace Sys2Proof.Machine

/-! ### The numeric bytes of a Q block (R232) -/

theorem byteAt_map {f : Byte → Byte} {b : Bytes} {i : Nat} (hi : i < b.length) :
    byteAt (b.map f) i = f (byteAt b i) := by
  simp [byteAt, hi]

theorem byteAt_qNumeric {src : Bytes} {i : Nat} (hi : i < 9) : byteAt (qNumeric src) i = byteAt src (1 + i) := by
  rw [qNumeric, byteAt_slice, if_pos hi]

theorem mem_iff_byteAt {b : Bytes} {v : Byte} : v ∈ b ↔ ∃ i, i < b.length ∧ byteAt b i = v := by
  rw [List.mem_iff_getElem]
  refine ⟨fun ⟨i, hi, hv⟩ => ⟨i, hi, ?_⟩, fun ⟨i, hi, hv⟩ => ⟨i, hi, ?_⟩⟩
  · simpa [byteAt, hi] using hv
  · simpa [byteAt, hi] using hv

section
variable {src : Bytes} (hlen : src.length = 12)
include hlen

theorem length_qNumeric : (qNumeric src).length = 9 := by
  rw [qNumeric, length_slice, hlen]
  rfl

/-- A test of the numeric bytes is a test of the bytes 1 to 9. -/
theorem any_qNumeric_iff (refused : Byte → Bool) :
    (qNumeric src).any refused = true ↔ ∃ k, 1 ≤ k ∧ k ≤ 9 ∧ refused (byteAt src k) = true := by
  simp only [List.any_eq_true, mem_iff_byteAt, length_qNumeric hlen]
  constructor
  · rintro ⟨v, ⟨i, hi, rfl⟩, hrefused⟩
    rw [byteAt_qNumeric hi] at hrefused
    exact ⟨1 + i, by omega, by omega, hrefused⟩
  · rintro ⟨k, hlo, hhi, hrefused⟩
    refine ⟨_, ⟨k - 1, by omega, rfl⟩, ?_⟩
    rwa [byteAt_qNumeric (by omega), Nat.add_sub_cancel' hlo]

end

/-! ### The conversion of a Q block -/

/-- The block with `f` applied to each of its numeric bytes. -/
def convertBlock (f : Byte → Byte) (src : Bytes) : Bytes := splice src 1 ((qNumeric src).map f)

section
variable {src : Bytes} (hlen : src.length = 12) (f : Byte → Byte)
include hlen

/-- The nine converted bytes fit where the numeric bytes stand. -/
theorem convertBlock_fits : 1 + ((qNumeric src).map f).length ≤ src.length := by
  rw [List.length_map, length_qNumeric hlen, hlen]
  decide

theorem length_convertBlock : (convertBlock f src).length = 12 := by
  rw [convertBlock, length_splice _ _ _ (convertBlock_fits hlen f), hlen]

theorem byteAt_convertBlock (k : Nat) :
    byteAt (convertBlock f src) k = if 1 ≤ k ∧ k ≤ 9 then f (byteAt src k) else byteAt src k := by
  have hnine : ((qNumeric src).map f).length = 9 := by rw [List.length_map, length_qNumeric hlen]
  rw [convertBlock]
  by_cases hk : 1 ≤ k ∧ k ≤ 9
  · rw [if_pos hk, byteAt_splice_inside (convertBlock_fits hlen f) hk.1 (by omega),
      byteAt_map (by rw [length_qNumeric hlen]; omega), byteAt_qNumeric (by omega), Nat.add_sub_cancel' hk.1]
  · rw [if_neg hk, byteAt_splice_outside (convertBlock_fits hlen f) (by omega)]

end

/-- What a conversion command leaves: all nine numeric bytes converted, or none where one is refused (R234). -/
def convertResult (refused : Byte → Bool) (f : Byte → Byte) (src : Bytes) : Result :=
  if src.length ≠ qBlockSize then passCopy .length src
  else if (qNumeric src).any refused then passCopy .range src
  else { tag := .transformed, out := convertBlock f src }

theorem qbin2bcdResult_eq (src : Bytes) :
    qbin2bcdResult src = convertResult (fun v => decide (99 < v.toNat)) (fun v => toBcd v.toNat) src := rfl

theorem qbcd2binResult_eq (src : Bytes) :
    qbcd2binResult src = convertResult (fun v => !bcdOk v) (fun v => BitVec.ofNat 8 (fromBcd v)) src := rfl

section
variable {refused : Byte → Bool} {f : Byte → Byte} {src : Bytes}

theorem convertResult_of_length (hlen : src.length ≠ 12) : convertResult refused f src = passCopy .length src :=
  if_pos hlen

theorem convertResult_of_refused (hlen : src.length = 12) (h : (qNumeric src).any refused = true) :
    convertResult refused f src = passCopy .range src := by
  rw [convertResult, qBlockSize, if_neg (not_not.mpr hlen), if_pos h]

theorem convertResult_of_accepted (hlen : src.length = 12) (h : ¬ (qNumeric src).any refused = true) :
    convertResult refused f src = { tag := .transformed, out := convertBlock f src } := by
  rw [convertResult, qBlockSize, if_neg (not_not.mpr hlen), if_neg h]

end

/-- The three ends of a conversion command, where `bad` says of a byte what its test refuses. -/
theorem ends_of_convertResult {s t : State} {r : Result} {refused : Byte → Bool} {bad : Byte → Prop} {f : Byte → Byte}
    (hbad : ∀ v, refused v = true ↔ bad v) (hr : r = convertResult refused f s.input)
    (hends : Ends s t r.tag r.reason r.out r.res0 r.res1 r.res2) :
    (s.len.toNat ≠ 12 → Ends s t .unchanged .length s.input 0 0 0) ∧
    (s.len.toNat = 12 → (∃ k, 1 ≤ k ∧ k ≤ 9 ∧ bad (byteAt s.input k)) → Ends s t .unchanged .range s.input 0 0 0) ∧
    (s.len.toNat = 12 → (¬ ∃ k, 1 ≤ k ∧ k ≤ 9 ∧ bad (byteAt s.input k)) →
      ∃ out : Bytes, Ends s t .transformed .none out 0 0 0 ∧ out.length = 12 ∧
        ∀ k, k < 12 → byteAt out k = if 1 ≤ k ∧ k ≤ 9 then f (byteAt s.input k) else byteAt s.input k) := by
  subst hr
  simp only [← hbad]
  rw [← s.length_input]
  refine ⟨fun hlen => ?length, fun hlen hrefused => ?range, fun hlen haccepted => ?transformed⟩
  case length => rwa [convertResult_of_length hlen] at hends
  case range => rwa [convertResult_of_refused hlen ((any_qNumeric_iff hlen refused).mpr hrefused)] at hends
  case transformed =>
    rw [convertResult_of_accepted hlen ((any_qNumeric_iff hlen refused).not.mpr haccepted)] at hends
    exact ⟨_, hends, length_convertBlock hlen f, fun k _ => byteAt_convertBlock hlen f k⟩

/-! ### The statements -/

/-- Settles O33: the result of `QBIN2BCD` is a conversion that refuses the values above 99. -/
theorem qbin2bcdCommand : Obligations.Qbin2bcdCommand := by
  unfold Obligations.Qbin2bcdCommand
  intro s
  obtain ⟨t, hexec, herrors, hends⟩ := exec_result (i := .qbin2bcd) (s := s) rfl (by decide) (by decide)
  refine ⟨t, hexec, herrors, fun hfit => ?_⟩
  exact ends_of_convertResult (bad := fun v => 99 < v.toNat) (fun _ => decide_eq_true_iff)
    (qbin2bcdResult_eq s.input) (hends hfit)

theorem not_bcdOk_iff (v : Byte) : (!bcdOk v) = true ↔ 9 < (hi4 v).toNat ∨ 9 < (lo4 v).toNat := by
  rw [bcdOk, Bool.not_and, Bool.or_eq_true, ← decide_not, ← decide_not, decide_eq_true_iff, decide_eq_true_iff, not_le,
    not_le]

/-- Settles O34: the result of `QBCD2BIN` is a conversion that refuses the bytes with a nibble above 9. -/
theorem qbcd2binCommand : Obligations.Qbcd2binCommand := by
  unfold Obligations.Qbcd2binCommand
  intro s
  obtain ⟨t, hexec, herrors, hends⟩ := exec_result (i := .qbcd2bin) (s := s) rfl (by decide) (by decide)
  refine ⟨t, hexec, herrors, fun hfit => ?_⟩
  exact ends_of_convertResult (bad := fun v => 9 < (hi4 v).toNat ∨ 9 < (lo4 v).toNat) not_bcdOk_iff
    (qbcd2binResult_eq s.input) (hends hfit)

end Sys2Proof.Machine
end

section
/-! SUPPORT. The subchannel frames (spec 45_subchannel.md R235 to R241): what `Q2RAW`, `INTLV` and `DEINTLV` share, their
two ends and the frames of their output, and where each bit of a frame comes from. -/

namespace Sys2Proof.Machine

/-! ### The bits of a frame (R238, R239) -/

section
variable {g c k : Nat} (hg : g < 12) (hc : c < 8) (hk : k < 8)
include hg hc hk

/-- Bit `7 - c` of byte `8 g + k` of an interleaved frame is bit `k` of group `g` of channel `c`. -/
theorem getLsbD_interleaveFrame (d : Bytes) :
    (byteAt (interleaveFrame d) (8 * g + k)).getLsbD (7 - c) = (byteAt d (12 * c + g)).getLsbD (7 - k) := by
  rw [byteAt_interleave d g k hg hk, interleavedByte_bit d g k c hc hk]

/-- Bit `k` of group `g` of channel `c` of a deinterleaved frame is bit `7 - c` of byte `8 g + k`. -/
theorem getLsbD_deinterleaveFrame (o : Bytes) :
    (byteAt (deinterleaveFrame o) (12 * c + g)).getLsbD (7 - k) = (byteAt o (8 * g + k)).getLsbD (7 - c) := by
  rw [byteAt_deinterleave o c g hg hc, deinterleavedByte_bit o c g k hc hk]

end

/-- The channels of a record's frame: P repeats the flag, Q is the record's block, the others are zero (R236). -/
theorem byteAt_recordFrame {rec : Bytes} (hlen : 12 ≤ rec.length) {c g : Nat} (hg : g < 12) :
    byteAt (recordFrame rec) (12 * c + g) =
      if c = 0 then (if (byteAt rec 15).getLsbD 7 then 0xFF else 0x00) else if c = 1 then byteAt rec g else 0 := by
  have hq : (rec.take 12).length = 12 := by rw [List.length_take, min_eq_left hlen]
  rw [recordFrame, byteAt_append, byteAt_append, List.length_append, List.length_replicate, hq, byteAt_replicate,
    byteAt_replicate, byteAt_take]
  obtain rfl | rfl | hc : c = 0 ∨ c = 1 ∨ 2 ≤ c := by omega
  · rw [if_pos (by omega), if_pos (by omega), if_pos (by omega), if_pos rfl]
  · rw [if_pos (by omega), if_neg (by omega), if_pos (by omega), if_neg (by omega), if_pos rfl,
      show 12 * 1 + g - 12 = g by omega]
  · rw [if_neg (by omega), ite_self, if_neg (by omega), if_neg (by omega)]

/-- The bits of a byte `Q2RAW` writes: P in bit 7, Q in bit 6, the others clear. -/
theorem getLsbD_rawFrame {rec : Bytes} (hlen : 12 ≤ rec.length) {g k : Nat} (hg : g < 12) (hk : k < 8) :
    (byteAt (interleaveFrame (recordFrame rec)) (8 * g + k)).getLsbD 7 = (byteAt rec 15).getLsbD 7 ∧
    (byteAt (interleaveFrame (recordFrame rec)) (8 * g + k)).getLsbD 6 = (byteAt rec g).getLsbD (7 - k) ∧
    ∀ b, b < 6 → (byteAt (interleaveFrame (recordFrame rec)) (8 * g + k)).getLsbD b = false := by
  have hbit (c : Nat) (hc : c < 8) := getLsbD_interleaveFrame hg hc hk (recordFrame rec)
  simp only [byteAt_recordFrame hlen hg] at hbit
  refine ⟨?p, ?q, fun b hb => ?others⟩
  case p =>
    rw [hbit 0 (by omega), if_pos rfl]
    cases (byteAt rec 15).getLsbD 7 with
    | false => exact BitVec.getLsbD_zero
    | true => exact BitVec.getLsbD_allOnes.trans (decide_eq_true (by omega))
  case q => exact hbit 1 (by omega)
  case others =>
    have h := hbit (7 - b) (by omega)
    rw [if_neg (by omega), if_neg (by omega), show 7 - (7 - b) = b by omega] at h
    exact h.trans BitVec.getLsbD_zero

/-! ### Frame by frame -/

/-- Piece `r` of a sequence of pieces of `size` bytes. -/
def pieceAt (size : Nat) (b : Bytes) (r : Nat) : Bytes := slice b (size * r) (size * (r + 1))

section
variable {size : Nat} {b : Bytes} {r : Nat}

theorem length_pieceAt (hr : r < b.length / size) : (pieceAt size b r).length = size := by
  have hend : size * (r + 1) ≤ b.length := (Nat.mul_le_mul_left size hr).trans (Nat.mul_div_le _ _)
  rw [Nat.mul_succ] at hend
  rw [pieceAt, length_slice, Nat.mul_succ]
  omega

theorem byteAt_pieceAt {i : Nat} (hi : i < size) : byteAt (pieceAt size b r) i = byteAt b (size * r + i) := by
  rw [pieceAt, byteAt_slice, Nat.mul_succ, if_pos (by omega)]

end

/-- What a command leaves that makes a frame of each piece of its input. -/
def piecesResult (size : Nat) (f : Bytes → Bytes) (src : Bytes) : Result :=
  if src.length % size ≠ 0 then passCopy .length src
  else { tag := .transformed, out := mapPieces size f (src.length / size) src,
         res0 := BitVec.ofNat 32 (src.length / size) }

theorem q2rawResult_eq (src : Bytes) :
    q2rawResult src = piecesResult 16 (fun rec => interleaveFrame (recordFrame rec)) src := rfl

theorem framesResult_eq (f : Bytes → Bytes) (src : Bytes) : framesResult f src = piecesResult 96 f src := rfl

/-- The output holds one frame for each piece of the input. -/
def FrameByFrame (size : Nat) (f : Bytes → Bytes) (src out : Bytes) : Prop :=
  out.length = 96 * (src.length / size) ∧
  ∀ r i, r < src.length / size → i < 96 → byteAt out (96 * r + i) = byteAt (f (pieceAt size src r)) i

theorem frameByFrame_mapPieces (size : Nat) {f : Bytes → Bytes} (hf : ∀ b, (f b).length = 96) (src : Bytes) :
    FrameByFrame size f src (mapPieces size f (src.length / size) src) :=
  ⟨length_mapPieces size 96 f hf _ src, fun r i hr hi => byteAt_mapPieces size 96 f hf (by decide) _ src r i hr hi⟩

/-- Frames made of whole frames are as long as their input. -/
theorem FrameByFrame.length_eq {s : State} {f : Bytes → Bytes} {out : Bytes} (h : FrameByFrame 96 f s.input out)
    (hlen : s.len.toNat % 96 = 0) : out.length = s.len.toNat := by
  obtain ⟨hout, -⟩ := h
  rw [hout, s.length_input, Nat.mul_div_cancel' (Nat.dvd_of_mod_eq_zero hlen)]

/-- A command that moves bits within a frame moves them within each frame of its input. -/
theorem FrameByFrame.getLsbD_eq {f : Bytes → Bytes} {src out : Bytes} (h : FrameByFrame 96 f src out)
    {r i j a b : Nat} (hr : r < src.length / 96) (hi : i < 96) (hj : j < 96)
    (hmove : ∀ d, (byteAt (f d) i).getLsbD a = (byteAt d j).getLsbD b) :
    (byteAt out (96 * r + i)).getLsbD a = (byteAt src (96 * r + j)).getLsbD b := by
  obtain ⟨-, hbyte⟩ := h
  rw [hbyte r i hr hi, hmove, byteAt_pieceAt hj]

/-- The two ends of a command that makes a frame of each piece of its input. -/
theorem ends_of_piecesResult {s t : State} {r : Result} {size : Nat} {f : Bytes → Bytes} (hf : ∀ b, (f b).length = 96)
    (hr : r = piecesResult size f s.input) (hends : Ends s t r.tag r.reason r.out r.res0 r.res1 r.res2) :
    (s.len.toNat % size ≠ 0 → Ends s t .unchanged .length s.input 0 0 0) ∧
    (s.len.toNat % size = 0 → ∃ out : Bytes,
      Ends s t .transformed .none out (BitVec.ofNat 32 (s.len.toNat / size)) 0 0 ∧ FrameByFrame size f s.input out) := by
  subst hr
  rw [← s.length_input]
  refine ⟨fun hlen => ?length, fun hlen => ?transformed⟩
  case length => rwa [piecesResult, if_pos hlen] at hends
  case transformed =>
    rw [piecesResult, if_neg (not_not.mpr hlen)] at hends
    exact ⟨_, hends, frameByFrame_mapPieces size hf s.input⟩

/-! ### The statements -/

/-- Settles O35: `Q2RAW` interleaves, for each record, the frame that has the record's flag for P and its block
for Q. -/
theorem q2rawCommand : Obligations.Q2rawCommand := by
  unfold Obligations.Q2rawCommand
  intro s
  obtain ⟨t, hexec, herrors, hends⟩ := exec_result (i := .q2raw) (s := s) rfl (by decide) (by decide)
  refine ⟨t, hexec, herrors, fun hfit => ?_⟩
  obtain ⟨hlength, htransformed⟩ := ends_of_piecesResult (fun _ => length_interleaveFrame _)
    (q2rawResult_eq s.input) (hends hfit)
  refine ⟨hlength, fun hlen => ?_⟩
  obtain ⟨out, hout, hsize, hbyte⟩ := htransformed hlen
  rw [s.length_input] at hsize hbyte
  refine ⟨out, hout, by omega, fun r g k hr hg hk => ?_⟩
  have hrec : (pieceAt 16 s.input r).length = 16 := length_pieceAt (by rwa [s.length_input])
  have hbits := getLsbD_rawFrame (rec := pieceAt 16 s.input r) (by omega) hg hk
  rwa [← hbyte r _ hr (by omega), ← Nat.add_assoc, byteAt_pieceAt (by decide), byteAt_pieceAt (by omega)] at hbits

/-- Settles O36: each frame of the output is an interleaved frame of the input. -/
theorem intlvCommand : Obligations.IntlvCommand := by
  unfold Obligations.IntlvCommand
  intro s
  obtain ⟨t, hexec, herrors, hends⟩ := exec_result (i := .intlv) (s := s) rfl (by decide) (by decide)
  refine ⟨t, hexec, herrors, fun hfit => ?_⟩
  obtain ⟨hlength, htransformed⟩ := ends_of_piecesResult length_interleaveFrame
    (framesResult_eq interleaveFrame s.input) (hends hfit)
  refine ⟨hlength, fun hlen => ?_⟩
  obtain ⟨out, hout, hframes⟩ := htransformed hlen
  refine ⟨out, hout, hframes.length_eq hlen, fun r g c k hr hg hc hk => ?_⟩
  rw [← s.length_input] at hr
  rw [Nat.add_assoc, Nat.add_assoc]
  exact hframes.getLsbD_eq hr (by omega) (by omega) (getLsbD_interleaveFrame hg hc hk)

/-- Settles O37: each frame of the output is a deinterleaved frame of the input. -/
theorem deintlvCommand : Obligations.DeintlvCommand := by
  unfold Obligations.DeintlvCommand
  intro s
  obtain ⟨t, hexec, herrors, hends⟩ := exec_result (i := .deintlv) (s := s) rfl (by decide) (by decide)
  refine ⟨t, hexec, herrors, fun hfit => ?_⟩
  obtain ⟨hlength, htransformed⟩ := ends_of_piecesResult length_deinterleaveFrame
    (framesResult_eq deinterleaveFrame s.input) (hends hfit)
  refine ⟨hlength, fun hlen => ?_⟩
  obtain ⟨out, hout, hframes⟩ := htransformed hlen
  refine ⟨out, hout, hframes.length_eq hlen, fun r g c k hr hg hc hk => ?_⟩
  rw [← s.length_input] at hr
  rw [Nat.add_assoc, Nat.add_assoc]
  exact hframes.getLsbD_eq hr (by omega) (by omega) (getLsbD_deinterleaveFrame hg hc hk)

end Sys2Proof.Machine
end

section
/-! SUPPORT. The Q-channel parser (spec 46_q_parser.md R255, R264): the two views of a byte and its validity bit, and the
effect of `QPARSE` by the length of the block. -/

namespace Sys2Proof.Machine

/-! ### The views of a byte (R255) -/

theorem bcdOk_of_digits {v : Byte} (hhi : (hi4 v).toNat ≤ 9) (hlo : (lo4 v).toNat ≤ 9) : bcdOk v = true := by
  rw [bcdOk, decide_eq_true hhi, decide_eq_true hlo, Bool.and_self]

theorem bcdOk_eq_false {v : Byte} (h : 9 < (hi4 v).toNat ∨ 9 < (lo4 v).toNat) : bcdOk v = false :=
  (Bool.not_eq_true' _).mp ((not_bcdOk_iff v).mpr h)

/-- The value of two digits is at most 99, so that the byte holds all of it. -/
theorem binView_of_digits {v : Byte} (hhi : (hi4 v).toNat ≤ 9) (hlo : (lo4 v).toNat ≤ 9) :
    (binView true v).toNat = fromBcd v := by
  have hbound : fromBcd v ≤ 99 := fromBcd_le hhi hlo
  rw [binView, bcdOk_of_digits hhi hlo, Bool.and_self, if_pos rfl, BitVec.toNat_ofNat]
  exact Nat.mod_eq_of_lt (by omega)

theorem binView_of_not_digits {v : Byte} (h : 9 < (hi4 v).toNat ∨ 9 < (lo4 v).toNat) : binView true v = v := by
  rw [binView, bcdOk_eq_false h, Bool.and_false, if_neg Bool.false_ne_true]

theorem bcdView_of_le {v : Byte} (h : v.toNat ≤ 99) : bcdView false v = toBcd v.toNat := by
  rw [bcdView, if_neg Bool.false_ne_true, if_pos h]

theorem bcdView_of_gt {v : Byte} (h : 99 < v.toNat) : bcdView false v = v := by
  rw [bcdView, if_neg Bool.false_ne_true, if_neg (not_le.mpr h)]

/-- The list of `numValid` starts at 0, the numeric bytes of a block at 1. -/
theorem numValid_iff (bcd : Bool) (b : Bytes) :
    numValid bcd b = true ↔ ∀ k, 1 ≤ k → k ≤ 9 → okv bcd b k = true := by
  rw [numValid, List.all_eq_true]
  constructor
  · intro hall k hlo hhi
    have hk := hall (k - 1) (List.mem_range.mpr (by omega))
    rwa [Nat.sub_add_cancel hlo] at hk
  · intro hall i hi
    have hbound : i < 9 := List.mem_range.mp hi
    exact hall (i + 1) (by omega) (by omega)

/-- Settles O40: the views of a byte are chosen by its nibbles in a BCD block, by its value in a binary one. -/
theorem qNumericViews : Obligations.QNumericViews := by
  unfold Obligations.QNumericViews
  refine ⟨numValid_iff, fun b k => ?_⟩
  intro v
  refine ⟨rfl, fun hhi hlo => ?digits, fun hbad => ?notDigits, rfl, rfl, fun hle => ?packed, bcdView_of_gt⟩
  case digits => exact ⟨binView_of_digits hhi hlo, bcdOk_of_digits hhi hlo⟩
  case notDigits => exact ⟨binView_of_not_digits hbad, bcdOk_eq_false hbad⟩
  case packed =>
    rw [bcdv, bcdView_of_le hle, toBcd_toNat hle, digits_or_eq_add]

/-! ### The command (R264) -/

section
variable {qf : QFlags} {s : State} {src : Bytes}

/-- On a wrong length the record is cleared (R311). -/
theorem effect_qparse_of_length (hlen : src.length ≠ 12) :
    effect (.qparse qf) s src = ⟨passBare .length, .zero, s.dvd⟩ := by
  rw [effect, if_pos hlen]

theorem effect_qparse_of_block (hlen : src.length = 12) : effect (.qparse qf) s src =
    ⟨{ tag := .computed, res0 := (qRecord s.cfg qf s.lbaInt src).q0 }, qRecord s.cfg qf s.lbaInt src, s.dvd⟩ := by
  rw [effect, if_neg (not_not.mpr hlen)]

end

/-- A command that replaces the Q record but keeps the hint and the cache ends as its result says. -/
theorem leaves_apply_q (s : State) (r : Result) (q : QRecord) :
    Leaves s (s.apply ⟨r, q, s.dvd⟩) r.tag r.reason r.out r.res0 r.res1 r.res2 :=
  s.finish_q_leaves q r

/-- Settles O38: the length decides between a cleared record and the record of the block; `RES0` is the `q0` of the
latter. -/
theorem qparseCommand : Obligations.QparseCommand := by
  unfold Obligations.QparseCommand
  intro qf s
  obtain ⟨t, hexec, herrors, hends⟩ := exec_form (.qparse qf) s 0 rfl (by simp) (by simp)
  refine ⟨t, hexec, herrors, fun hfit => ?_⟩
  rw [hends hfit, ← s.length_input]
  refine ⟨fun hlen => ?cleared, fun hlen => ?parsed⟩
  case cleared =>
    rw [effect_qparse_of_length hlen]
    exact ⟨leaves_apply_q s _ _, rfl, rfl⟩
  case parsed =>
    rw [effect_qparse_of_block hlen]
    exact ⟨leaves_apply_q s _ _, rfl, rfl⟩

end Sys2Proof.Machine
end

section
/-! SUPPORT. The system command and the host's accesses (spec 47_system.md R280 to R283): what an access reaches, the
register map as a table, what a register write stores, and what a byte access does to `MEM`. -/

namespace Sys2Proof.Machine

/-! ### `NOP` (R280) -/

/-- `NOP` has no range check: its one end is its effect, results 0 and an empty output. -/
theorem exec_nop (s : State) : exec .nop s = .next (s.apply (effect .nop s s.input)) := by
  obtain ⟨_, _, hexec⟩ := exec_eq .nop s
  exact hexec (.inl rfl) (.inl rfl)

/-- Settles O21: the effect of `NOP` is a bare result, whose `STATUS` is `COMPUTED` next to the `OPC` of `CMD`. -/
theorem nopCommand : Obligations.NopCommand := by
  unfold Obligations.NopCommand
  intro s
  have hends := ends_of s (effect .nop s s.input) { tag := .computed } rfl
  refine ⟨_, exec_nop s, hends, fun hopc => ?_⟩
  have hstatus := hends.status
  rw [StatusIs, hopc] at hstatus
  exact hstatus

/-! ### What an access reaches (R60, R61) -/

/-- An 8-bit access in the window reaches the byte there. -/
theorem busTarget_of_memory {memSize a : Nat} (ha : a < memSize) : busTarget memSize 8 (memWindow + a) = .memory a := by
  have habove : ¬ memWindow + a ≤ 0xFF := by simp only [memWindow]; omega
  rw [busTarget, if_neg habove, if_pos ⟨by omega, by omega⟩, if_pos rfl, Nat.add_sub_cancel_left]

/-- An access that is neither of the two well-formed ones reaches nothing. -/
theorem busTarget_of_illFormed {memSize bits off : Nat} (hreg : ¬ (off ≤ 0xFF ∧ bits = 32 ∧ off % 4 = 0))
    (hmem : ¬ (memWindow ≤ off ∧ off < memWindow + memSize ∧ bits = 8)) : busTarget memSize bits off = .nothing := by
  unfold busTarget
  split_ifs with hlow haligned hwindow hbyte
  · exact absurd ⟨hlow, haligned⟩ hreg
  · rfl
  · exact absurd ⟨hwindow.1, hwindow.2, hbyte⟩ hmem
  · rfl
  · rfl

/-! ### Byte accesses (R283) -/

section
variable {s : State} {rest : List HostEvent} {a : Nat}

theorem step_rdb (hhost : s.host = rdb a :: rest) (ha : a < s.cfg.memSize) :
    step s = .next { s with host := rest, rdata := (s.mem.read a).setWidth 32 } := by
  rw [step_of_host_cons hhost]
  simp only [rdb, State.hostEvent, State.busRead, busTarget_of_memory ha]

theorem step_wrb {x : Byte} (hhost : s.host = wrb a x :: rest) (ha : a < s.cfg.memSize) :
    step s = .next { s with host := rest, mem := s.mem.write a x } := by
  have hlow : (x.setWidth 32).setWidth 8 = x := by simp
  rw [step_of_host_cons hhost]
  simp only [wrb, State.hostEvent, State.busWrite, busTarget_of_memory ha, hlow]

end

/-- Settles O8: a byte access reaches its byte, and a read after a write of one byte differs from the memory before
only there. -/
theorem memoryAccess : Obligations.MemoryAccess := by
  unfold Obligations.MemoryAccess
  refine ⟨fun s a rest ha hhost => step_rdb hhost ha, fun s a x rest ha hhost => ?_⟩
  exact ⟨s.mem.write a x, step_wrb hhost ha, s.mem.read_write a x⟩

/-! ### The register map as a table (R29, R30, R281) -/

/-- Bit 15 above a seed. -/
theorem flagged_seed (x : Seed) : 0#16 ++ 1#1 ++ x = 0x8000#32 ||| x.setWidth 32 := by
  apply BitVec.eq_of_getLsbD_eq
  intro i hi
  simp only [BitVec.getLsbD_append, BitVec.getLsbD_or, BitVec.getLsbD_setWidth]
  interval_cases i <;> simp

theorem lastSeedView_eq (d : DvdInstance) :
    lastSeedView d = match d.last with | some x => 0x8000#32 ||| x.setWidth 32 | none => 0 := by
  unfold lastSeedView
  cases d.last with
  | none => rfl
  | some x => exact flagged_seed x

theorem cacheData_eq (c : Config) (d : DvdInstance) (idx : Word) :
    cacheData c d idx = if h : idx.toNat < (cacheOrder c d.cache).length then
      0x8000#32 ||| ((cacheOrder c d.cache)[idx.toNat]'h).setWidth 32 else 0 := by
  unfold cacheData
  split_ifs with h
  · rw [List.getElem?_eq_getElem h]
    exact flagged_seed _
  · rw [List.getElem?_eq_none (Nat.le_of_not_lt h)]

/-- The offsets of the map that are not reserved, each with the value a read of it returns. -/
def registerMap (s : State) : List (Nat × Word) :=
  [(0x00, 0x53434501), (0x04, if s.cfg.hasEccDec then 1 else 0), (0x08, BitVec.ofNat 32 s.cfg.memSize),
   (0x0C, s.cmd), (0x10, s.status), (0x14, s.errlog), (0x18, s.src), (0x1C, s.dst), (0x20, s.len), (0x24, s.lba),
   (0x28, s.edcseed), (0x2C, s.seed.setWidth 32), (0x30, s.xfer), (0x34, s.olen), (0x38, s.res0), (0x3C, s.res1),
   (0x40, s.res2), (0x44, lastSeedView s.dvd), (0x48, cacheCount s.dvd), (0x4C, s.cacheidx),
   (0x50, cacheData s.cfg s.dvd s.cacheidx), (0x80, s.q.q0), (0x84, s.q.q1), (0x88, s.q.q2), (0x8C, s.q.q3),
   (0x90, s.q.q4), (0x94, s.q.q5), (0x98, s.q.q6), (0x9C, s.q.q7)]

/-- The table holds the value of every register it lists. -/
theorem readReg_of_mem_registerMap (s : State) : ∀ p ∈ registerMap s, s.readReg p.1 = p.2 := by
  have hcolumn : (registerMap s).map (fun p => s.readReg p.1) = (registerMap s).map Prod.snd := rfl
  exact List.map_inj_left.mp hcolumn

/-- The offsets of the table (R30). -/
def registerOffsets : List Nat :=
  [0x00, 0x04, 0x08, 0x0C, 0x10, 0x14, 0x18, 0x1C, 0x20, 0x24, 0x28, 0x2C, 0x30, 0x34, 0x38, 0x3C, 0x40, 0x44, 0x48,
   0x4C, 0x50, 0x80, 0x84, 0x88, 0x8C, 0x90, 0x94, 0x98, 0x9C]

theorem map_fst_registerMap (s : State) : (registerMap s).map Prod.fst = registerOffsets := rfl

/-- An offset the table does not list is reserved. -/
theorem readReg_of_reserved (s : State) {off : Nat} (h : off ∉ registerOffsets) : s.readReg off = 0 := by
  unfold State.readReg
  split
  case h_30 => rfl
  all_goals exact absurd (by decide) h

/-- A register reads as the table says, and as 0 where the table lists nothing. -/
theorem readReg_eq_lookup (s : State) (off : Nat) : s.readReg off = ((registerMap s).lookup off).getD 0 := by
  match hlookup : (registerMap s).lookup off with
  | some v =>
    obtain ⟨before, after, hmap, -⟩ := List.lookup_eq_some_iff.mp hlookup
    have hmem : (off, v) ∈ registerMap s := by simp [hmap]
    exact readReg_of_mem_registerMap s _ hmem
  | none =>
    have hreserved := List.lookup_eq_none_iff.mp hlookup
    apply readReg_of_reserved
    rw [← map_fst_registerMap s, List.mem_map]
    rintro ⟨p, hp, rfl⟩
    exact bne_iff_ne.mp (hreserved p hp) rfl

/-! ### Register accesses (R281, R282) -/

/-- A read at an offset where no register can be is a bus address error, and returns 0 (R308). -/
theorem step_rd_badOffset {s : State} {off : Nat} {rest : List HostEvent} (hhost : s.host = rd off :: rest)
    (hoff : ¬ (off ≤ 0xFF ∧ off % 4 = 0)) :
    step s = .next { { s with host := rest }.busErrored with rdata := 0 } := by
  have htarget : busTarget s.cfg.memSize 32 off = .nothing :=
    busTarget_of_illFormed (fun ⟨hlow, _, halign⟩ => hoff ⟨hlow, halign⟩) (by omega)
  rw [step_of_host_cons hhost]
  simp only [rd, State.hostEvent, State.busRead, htarget, State.busError_eq]

/-- Settles O6: a register read returns what the table of the map says, and an access of a bad offset reaches nothing. -/
theorem registerRead : Obligations.RegisterRead := by
  unfold Obligations.RegisterRead
  intro s off rest hhost s0 map
  refine ⟨fun ⟨hoff, halign⟩ => ?_, step_rd_badOffset hhost⟩
  have hmap : map = registerMap s := by
    rw [registerMap, lastSeedView_eq, cacheData_eq]
    rfl
  rw [step_rd_register hhost hoff halign, readReg_eq_lookup, hmap]

/-- The offsets of the registers a host write stores to (R282). -/
def storedOffsets : List Nat := [0x18, 0x1C, 0x20, 0x24, 0x28, 0x2C, 0x30, 0x4C]

theorem writeReg_of_not_stored (s : State) {off : Nat} (v : Word) (h : off ∉ storedOffsets) : s.writeReg off v = s := by
  unfold State.writeReg
  split
  case h_9 => rfl
  all_goals exact absurd (by decide) h

/-- `SEED` keeps the low 15 bits (R22). -/
theorem kept_seed_bits (v : Word) : (v.setWidth 15).setWidth 32 = v &&& 0x7FFF#32 := by
  apply BitVec.eq_of_getLsbD_eq
  intro i hi
  simp only [BitVec.getLsbD_setWidth, BitVec.getLsbD_and]
  interval_cases i <;> simp

section
variable {s : State} {off : Nat} {v : Word} {rest : List HostEvent}

/-- A write to a mapped register other than `CMD` does what `writeReg` says. -/
theorem step_wr_of_ne_cmd (hhost : s.host = wr off v :: rest) (hoff : off ≤ 0xFF) (halign : off % 4 = 0)
    (hcmd : off ≠ cmdOffset) : step s = .next ({ s with host := rest }.writeReg off v) := by
  rw [step_wr_register hhost hoff halign, if_neg hcmd]

theorem storedOffsets_mapped : ∀ o ∈ storedOffsets, o ≤ 0xFF ∧ o % 4 = 0 ∧ o ≠ cmdOffset := by decide

theorem step_wr_stored (hhost : s.host = wr off v :: rest) (hstored : off ∈ storedOffsets) :
    step s = .next ({ s with host := rest }.writeReg off v) := by
  obtain ⟨hoff, halign, hcmd⟩ := storedOffsets_mapped off hstored
  exact step_wr_of_ne_cmd hhost hoff halign hcmd

end

/-- Settles O7: eight offsets store the word, `CMD` runs it, and at every other mapped offset `writeReg` keeps the
state. -/
theorem registerWrite : Obligations.RegisterWrite := by
  unfold Obligations.RegisterWrite
  intro s off v rest hhost s0
  have hstep := step_wr_stored hhost
  refine ⟨?src, ?dst, ?len, ?lba, ?edcseed, ?seed, ?xfer, ?cacheidx, ?cmd, ?ignored⟩
  case cmd =>
    rintro rfl
    exact step_wr_cmd hhost
  case seed =>
    rintro rfl
    exact ⟨v.setWidth 15, hstep (by decide), kept_seed_bits v⟩
  case ignored =>
    rintro ⟨hoff, halign, hother⟩
    obtain ⟨hcmd, hstored⟩ := not_or.mp (List.mem_cons.not.mp hother)
    rw [step_wr_of_ne_cmd hhost hoff halign hcmd, writeReg_of_not_stored _ v hstored]
  all_goals
    rintro rfl
    exact hstep (by decide)

end Sys2Proof.Machine
end

section
/-! SUPPORT. The errors (spec 60_exceptions.md R302 to R308): `STATUS.ERR` tells the ends of a command apart, so each
range error is reported in its own case alone; and what a step makes of an access that reaches nothing. -/

namespace Sys2Proof.Machine

/-! ### The ends of a command told apart by `STATUS.ERR` (R25, R302) -/

/-- `raise E` leaves the code of `E` in `STATUS.ERR` (R302). -/
theorem statusErr_raise (s : State) (e : CmdError) : statusErr (s.raise e).status = e.code := by
  obtain ⟨_, _, herr, _⟩ := statusWord_fields .error .none e.code s.opc
  exact herr

/-- A command that ends without a command error leaves 0 in `STATUS.ERR` (R25). -/
theorem statusErr_apply (s : State) (e : Effect) : statusErr (s.apply e).status = 0 := by
  obtain ⟨_, _, herr, _⟩ := statusWord_fields e.result.tag e.result.reason 0 s.opc
  exact herr

theorem CmdError.code_ne_zero (e : CmdError) : e.code ≠ 0 := by cases e <;> decide

/-- The end of a command without a command error is not what a command error leaves. -/
theorem State.apply_ne_raise (s : State) (eff : Effect) (e : CmdError) : s.apply eff ≠ s.raise e := by
  intro h
  have herr := congrArg (fun t => statusErr t.status) h
  simp only [statusErr_apply, statusErr_raise] at herr
  exact e.code_ne_zero herr.symm

/-- The two range errors leave different states. -/
theorem State.raise_srcrange_ne_raise_dstrange (s : State) : s.raise .srcrange ≠ s.raise .dstrange := by
  intro h
  have herr := congrArg (fun t => statusErr t.status) h
  simp only [statusErr_raise] at herr
  exact absurd herr (by decide)

theorem State.raised_three (s : State) : s.raised 3 = s.raise .srcrange := (State.raise_eq s .srcrange).symm

theorem State.raised_four (s : State) : s.raised 4 = s.raise .dstrange := (State.raise_eq s .dstrange).symm

/-! ### The range errors (R305, R306, R307) -/

section
variable (i : Instr) (s : State)

/-- A command raises `SRCRANGE` exactly when its source range does not fit. -/
theorem exec_eq_srcrange_iff : exec i s = .next (s.raised 3) ↔ ¬ SrcFits i s := by
  refine ⟨fun h => ?_, (exec_eq i s).1⟩
  obtain ⟨hsrc, _⟩ | ⟨_, _, hdst⟩ | ⟨_, _, hdone⟩ := exec_cases h
  · exact hsrc
  · rw [State.raised_three, State.raised_four] at hdst
    exact absurd hdst s.raise_srcrange_ne_raise_dstrange
  · rw [State.raised_three] at hdone
    exact absurd hdone.symm (s.apply_ne_raise _ .srcrange)

/-- A command raises `DSTRANGE` exactly when its source range fits and its destination range does not. -/
theorem exec_eq_dstrange_iff : exec i s = .next (s.raised 4) ↔ SrcFits i s ∧ ¬ DstFits i s := by
  refine ⟨fun h => ?_, fun ⟨hsrc, hdst⟩ => (exec_eq i s).2.1 hsrc hdst⟩
  obtain ⟨_, hsrc⟩ | ⟨hsrcFits, hdstFails, _⟩ | ⟨_, _, hdone⟩ := exec_cases h
  · rw [State.raised_three, State.raised_four] at hsrc
    exact absurd hsrc.symm s.raise_srcrange_ne_raise_dstrange
  · exact ⟨hsrcFits, hdstFails⟩
  · rw [State.raised_four] at hdone
    exact absurd hdone.symm (s.apply_ne_raise _ .dstrange)

theorem not_srcFits_iff : ¬ SrcFits i s ↔ i ≠ .nop ∧ i ≠ .dvdrst ∧ s.cfg.memSize < s.src.toNat + s.len.toNat := by
  simp only [SrcFits, not_or, not_le, ne_eq]

theorem not_dstFits_iff : ¬ DstFits i s ↔
    0 < outmax i s.len.toNat ∧ s.cfg.memSize < s.dst.toNat + outmax i s.len.toNat := by
  simp only [DstFits, not_or, not_le, Nat.pos_iff_ne_zero, ne_eq]

end

/-- The bound of `Q2RAW`: six bytes for each byte of whole records, else a copy of the input (R306). -/
theorem outmax_q2raw (n : Nat) : outmax .q2raw n = if n % 16 = 0 then 6 * n else n := rfl

/-- Settles O19: the source check comes first, and no other end of a command has the code of `SRCRANGE`. -/
theorem sourceRangeCheck : Obligations.SourceRangeCheck := by
  unfold Obligations.SourceRangeCheck
  intro i s
  rw [exec_eq_srcrange_iff, not_srcFits_iff]

/-- Settles O20: the rows of the table are those of `outmax`; the destination check follows the source check, and no
other end of a command has the code of `DSTRANGE`. -/
theorem destinationRangeCheck : Obligations.DestinationRangeCheck := by
  unfold Obligations.DestinationRangeCheck
  refine ⟨fun tt qf n => ⟨?noOutput, ?likeInput, ?eccsyn, ?dvdseed, ?records, ?notRecords⟩, fun i s => ?check⟩
  case noOutput => exact ⟨rfl, rfl, rfl, rfl, rfl⟩
  case likeInput => exact ⟨rfl, rfl, rfl, rfl, rfl, rfl, rfl, rfl, rfl, rfl⟩
  case eccsyn => rfl
  case dvdseed => rfl
  case records => exact fun h => by rw [outmax_q2raw, if_pos h]
  case notRecords => exact fun h => by rw [outmax_q2raw, if_neg h]
  case check => rw [exec_eq_dstrange_iff, ← not_srcFits_iff, not_not, not_dstFits_iff]

/-! ### Bus address errors (R61, R308) -/

section
variable {s : State} {bits off : Nat} {rest : List HostEvent}

theorem step_read_of_nothing (hhost : s.host = .read bits off :: rest)
    (htarget : busTarget s.cfg.memSize bits off = .nothing) :
    step s = .next { { s with host := rest }.busErrored with rdata := 0 } := by
  rw [step_of_host_cons hhost]
  simp only [State.hostEvent, State.busRead, htarget, State.busError_eq]

theorem step_write_of_nothing {v : Word} (hhost : s.host = .write bits off v :: rest)
    (htarget : busTarget s.cfg.memSize bits off = .nothing) :
    step s = .next { s with host := rest }.busErrored := by
  rw [step_of_host_cons hhost]
  simp only [State.hostEvent, State.busWrite, htarget, State.busError_eq]

end

/-- Settles O9: an ill-formed access reaches nothing, whether it reads or writes. -/
theorem busAddressError : Obligations.BusAddressError := by
  unfold Obligations.BusAddressError
  intro s bits off v rest hreg hmem
  have htarget : busTarget s.cfg.memSize bits off = .nothing := busTarget_of_illFormed hreg hmem
  exact ⟨fun hhost => step_write_of_nothing hhost htarget, fun hhost => step_read_of_nothing hhost htarget⟩

end Sys2Proof.Machine
end

section
/-! SUPPORT. The encoder (spec 30_encoding.md R90 to R97): the fields of a command's word, which with the opcode map make
`encode` and `decode` inverse to each other on the commands of the block. -/

namespace Sys2Proof

/-! ### The fields of a command's word (R90) -/

/-- A word put together from the fields of R90 has these fields and no other bit. -/
theorem word_of_fields (opc : BitVec 8) (tt : BitVec 3) (qf : BitVec 4) :
    opcField (0#16 ++ qf ++ 0#1 ++ tt ++ opc) = opc ∧ ttField (0#16 ++ qf ++ 0#1 ++ tt ++ opc) = tt ∧
    (0#16 ++ qf ++ 0#1 ++ tt ++ opc).getLsbD 11 = false ∧ qfField (0#16 ++ qf ++ 0#1 ++ tt ++ opc) = qf ∧
    highField (0#16 ++ qf ++ 0#1 ++ tt ++ opc) = 0 := by
  refine ⟨?opc, ?tt, ?gap, ?qf, ?high⟩
  case gap =>
    simp only [BitVec.getLsbD_append]
    simp
  all_goals
    apply BitVec.eq_of_getLsbD_eq
    intro j hj
    simp only [opcField, ttField, qfField, highField, BitVec.getLsbD_extractLsb', BitVec.getLsbD_append]
    interval_cases j <;> simp

theorem encode_fields (i : Instr) : opcField (encode i) = i.opc ∧ ttField (encode i) = i.ttBits ∧
    (encode i).getLsbD 11 = false ∧ qfField (encode i) = i.qfBits ∧ highField (encode i) = 0 :=
  word_of_fields i.opc i.ttBits i.qfBits

/-- A command has no field that the row of its `OPC` lacks (R94). -/
theorem Instr.fields_of_row (i : Instr) :
    (i.opc ∉ ttOpcs → i.ttBits = 0) ∧ (i.opc ≠ 0x45 → i.qfBits = 0) := by
  cases i <;> simp [Instr.opc, Instr.ttBits, Instr.qfBits, ttOpcs]

/-- No reserved bit of a command's word is set. -/
theorem not_reservedBitSet_encode (i : Instr) : ¬ ReservedBitSet (encode i) := by
  obtain ⟨hopc, htt, hgap, hqf, hhigh⟩ := encode_fields i
  obtain ⟨htt0, hqf0⟩ := i.fields_of_row
  simp only [ReservedBitSet, hopc, htt, hgap, hqf, hhigh, not_or, not_and, not_not]
  exact ⟨trivial, Bool.false_ne_true, htt0, hqf0⟩

/-- The commands of a block are those whose `OPC` the first step of R95 lets pass. -/
theorem Instr.wellFormed_iff (hasEccDec : Bool) (i : Instr) :
    i.wellFormed hasEccDec = true ↔ ¬ NoCommand hasEccDec i.opc := by
  cases i <;> simp [Instr.wellFormed, NoCommand, Instr.opc, commandOpcs]

/-! ### A command is determined by its fields -/

/-- Every command is what the row of its `OPC` builds from its word (R94). -/
theorem row_of_instr (i : Instr) : Laws.EncodeMatch.Statement i := by
  cases i with
  | nop => exact Laws.EncodeMatch.nop
  | edc => exact Laws.EncodeMatch.edc
  | rprefix tt => exact Laws.EncodeMatch.rprefix tt
  | recc tt => exact Laws.EncodeMatch.recc tt
  | eccsyn tt => exact Laws.EncodeMatch.eccsyn tt
  | eccfix tt => exact Laws.EncodeMatch.eccfix tt
  | cdscr => exact Laws.EncodeMatch.cdscr
  | dvdtest => exact Laws.EncodeMatch.dvdtest
  | dvdseed => exact Laws.EncodeMatch.dvdseed
  | dvdscr => exact Laws.EncodeMatch.dvdscr
  | dvdscrb => exact Laws.EncodeMatch.dvdscrb
  | dvdrst => exact Laws.EncodeMatch.dvdrst
  | qbin2bcd => exact Laws.EncodeMatch.qbin2bcd
  | qbcd2bin => exact Laws.EncodeMatch.qbcd2bin
  | q2raw => exact Laws.EncodeMatch.q2raw
  | intlv => exact Laws.EncodeMatch.intlv
  | deintlv => exact Laws.EncodeMatch.deintlv
  | qparse qf => exact Laws.EncodeMatch.qparse qf

theorem Instr.eq_of_fields {i j : Instr} (hopc : i.opc = j.opc) (htt : i.ttBits = j.ttBits)
    (hqf : i.qfBits = j.qfBits) : i = j := by
  obtain ⟨r, hrow, hbuild, -⟩ := row_of_instr i
  obtain ⟨r', hrow', hbuild', -⟩ := row_of_instr j
  have hword : encode i = encode j := by rw [encode, encode, hopc, htt, hqf]
  rw [hopc, hrow'] at hrow
  cases hrow
  rw [← hbuild, ← hbuild', hword]

/-! ### The statements -/

namespace Machine

/-- Settles O1: the word of a command of the block passes both tests of R95, and the command that is read has its
fields. -/
theorem decodeOfEncode : Obligations.DecodeOfEncode := by
  unfold Obligations.DecodeOfEncode
  intro hasEccDec i hwf
  obtain ⟨hopc, htt, -, hqf, -⟩ := encode_fields i
  have hcommand : ¬ NoCommand hasEccDec (opcField (encode i)) := by
    rw [hopc]
    exact (i.wellFormed_iff hasEccDec).mp hwf
  obtain ⟨j, hdecode, jopc, jtt, jqf⟩ := decode_eq_ok hcommand (not_reservedBitSet_encode i)
  rw [hdecode, Instr.eq_of_fields (jopc.trans hopc) (jtt.trans htt) (jqf.trans hqf)]

/-- Settles O2: a word that decodes passed both tests of R95, so that the bits outside the fields of its command
are 0. -/
theorem encodeOfDecode : Obligations.EncodeOfDecode := by
  unfold Obligations.EncodeOfDecode
  intro hasEccDec w i hdecode
  have hcommand : ¬ NoCommand hasEccDec (opcField w) := by
    intro hno
    rw [decode_eq_illop hno] at hdecode
    cases hdecode
  have hfree : ¬ ReservedBitSet w := by
    intro hreserved
    rw [decode_eq_rsvd hcommand hreserved] at hdecode
    cases hdecode
  obtain ⟨j, hdecode', hopc, htt, hqf⟩ := decode_eq_ok hcommand hfree
  rw [hdecode] at hdecode'
  cases hdecode'
  have hhigh : highField w = 0 := by
    by_contra h
    exact hfree (.inl h)
  have hgap : w.getLsbD 11 = false := by
    by_contra h
    exact hfree (.inr (.inl (Bool.eq_true_of_not_eq_false h)))
  obtain ⟨eopc, ett, egap, eqf, ehigh⟩ := encode_fields i
  refine ⟨(i.wellFormed_iff hasEccDec).mpr (hopc ▸ hcommand), word_ext_iff.mpr ⟨?_, ?_, ?_, ?_, ?_⟩⟩
  · rw [eopc, hopc]
  · rw [ett, htt]
  · rw [egap, hgap]
  · rw [eqf, hqf]
  · rw [ehigh, hhigh]

/-- A word that is the word of a command decodes to it in the block that has all eighteen. -/
theorem decode_word {i : Instr} {w : Word} (hword : encode i = w) (hwf : i.wellFormed true = true) :
    decode true w = .ok i := by
  rw [← hword]
  exact decodeOfEncode true i hwf

/-- Settles O3: each sample word is the word of its command; the last two fail the tests of R95. -/
theorem sampleWords : Obligations.SampleWords := by
  unfold Obligations.SampleWords
  refine ⟨decode_word rfl rfl, decode_word rfl rfl, decode_word rfl rfl, decode_word rfl rfl, decode_word rfl rfl,
    decode_word rfl rfl, decode_word rfl rfl, decode_word rfl rfl, decode_word rfl rfl, decode_word rfl rfl,
    decode_word rfl rfl, decode_word rfl rfl, decode_word rfl rfl, decode_word rfl rfl, decode_word rfl rfl,
    decode_word rfl rfl, decode_word rfl rfl, decode_word rfl rfl, ?illop, ?rsvd⟩
  case illop =>
    have hno : NoCommand false (opcField 0x00000113) := .inr ⟨.inl (by decide), rfl⟩
    exact decode_eq_illop hno
  case rsvd =>
    have hcommand : ¬ NoCommand true (opcField 0x00000100) := by simp [NoCommand, commandOpcs, opcField]
    have hreserved : ReservedBitSet 0x00000100 := .inr (.inr (.inl ⟨by decide, by decide⟩))
    exact decode_eq_rsvd hcommand hreserved

end Machine

end Sys2Proof
end

section
/-! SUPPORT. Reset, the invariant and `ERRLOG` (spec 10_state.md R20 to R37, 70_reset_and_hazards.md R330, R331): what
the end of each command and of each transaction keeps, put together once for `step`. -/

namespace Sys2Proof.Machine

/-! ### The content of `MEM` after reset (R37) -/

/-- The cells of a content given for each address of a list. -/
def cellsOf (f : Nat → Byte) (addrs : List Nat) : List Host.Cell := addrs.map fun a => (a, f a)

theorem read_ofCells_cellsOf {size : Nat} {f : Nat → Byte} {addrs : List Nat} (hin : ∀ a ∈ addrs, a < size) (b : Nat) :
    (Memory.ofCells size (cellsOf f addrs)).read b = if b ∈ addrs then f b else Memory.unlisted := by
  induction addrs with
  | nil => rfl
  | cons a addrs ih =>
    have hrest := ih fun c hc => hin c (List.mem_cons_of_mem _ hc)
    have ha : a < size := hin a List.mem_cons_self
    have hcells : Memory.ofCells size (cellsOf f (a :: addrs)) =
        Memory.write (Memory.ofCells size (cellsOf f addrs)) a (f a) := if_pos ha
    rw [hcells, Memory.read_write, hrest]
    by_cases hb : b = a
    · simp [hb]
    · simp [hb]

theorem step_reset {s : State} {content : List Host.Cell} {rest : List HostEvent}
    (hhost : s.host = .reset content :: rest) : step s = .next ({ s with host := rest }.platformReset content) :=
  step_of_host_cons hhost

/-- Settles O11: the cells of the wanted bytes are such a content. -/
theorem resetMemoryIsArbitrary : Obligations.ResetMemoryIsArbitrary := by
  unfold Obligations.ResetMemoryIsArbitrary
  intro s f rest
  refine ⟨cellsOf f (List.range s.cfg.memSize), fun s1 hcfg hhost => ⟨_, step_reset hhost, ?_, fun a ha => ?_⟩⟩
  · rw [State.platformReset_mem, hcfg]
    exact Memory.wf_ofCells _ _
  · rw [State.platformReset_mem, hcfg, read_ofCells_cellsOf fun _ => List.mem_range.mp, if_pos (List.mem_range.mpr ha)]

/-! ### Register values after reset (R36) -/

/-- The reset column of R30. -/
def resetValue (c : Config) (off : Nat) : Word :=
  if off = 0x00 then 0x53434501 else if off = 0x04 then (if c.hasEccDec then 1 else 0)
  else if off = 0x08 then BitVec.ofNat 32 c.memSize else 0

/-- An empty cache shows no seed, in whatever order. -/
theorem cacheData_fresh (c : Config) (idx : Word) : cacheData c .fresh idx = 0 := by
  have horder : cacheOrder c DvdInstance.fresh.cache = [] := (cacheOrder_perm c []).eq_nil
  rw [cacheData_eq, horder, dif_neg (by simp)]

theorem readReg_resetWith (c : Config) (m : Memory) (off : Nat) :
    (State.resetWith c m).readReg off = resetValue c off := by
  by_cases hcache : off = 0x50
  · subst hcache
    exact cacheData_fresh c 0
  by_cases hoff : off ∈ registerOffsets
  · have hcolumn : (registerOffsets.erase 0x50).map (fun o => (State.resetWith c m).readReg o) =
        (registerOffsets.erase 0x50).map (resetValue c) := rfl
    exact List.map_inj_left.mp hcolumn off ((List.mem_erase_of_ne hcache).mpr hoff)
  · have h0 : off ≠ 0x00 := fun h => hoff (by rw [h]; decide)
    have h4 : off ≠ 0x04 := fun h => hoff (by rw [h]; decide)
    have h8 : off ≠ 0x08 := fun h => hoff (by rw [h]; decide)
    rw [readReg_of_reserved _ hoff, resetValue, if_neg h0, if_neg h4, if_neg h8]

/-- Settles O10: the registers of the map read as the reset column says, the others as 0; the event makes such a state. -/
theorem resetValues : Obligations.ResetValues := by
  unfold Obligations.ResetValues
  refine ⟨fun c m => ⟨fun off _ _ => readReg_resetWith c m off, rfl, rfl, rfl⟩, ⟨[], rfl⟩, ?event⟩
  case event =>
    intro s content rest hhost
    exact ⟨_, step_reset hhost⟩

/-! ### Every step has a next state -/

theorem runCommand_next (s : State) (w : Word) : ∃ t, s.runCommand w = .next t := by
  match hd : decode s.cfg.hasEccDec w with
  | .ok i =>
    rw [State.runCommand_of_decode_ok hd]
    exact exec_next i s
  | .error .illop => exact ⟨_, State.runCommand_of_decode_illop hd⟩
  | .error .rsvd => exact ⟨_, State.runCommand_of_decode_rsvd hd⟩

theorem busWrite_next (s : State) (bits off : Nat) (v : Word) : ∃ t, s.busWrite bits off v = .next t := by
  unfold State.busWrite
  split
  · split
    · exact runCommand_next _ v
    · exact ⟨_, rfl⟩
  · exact ⟨_, rfl⟩
  · exact ⟨_, rfl⟩

theorem hostEvent_next (s : State) (e : HostEvent) : ∃ t, s.hostEvent e = .next t := by
  cases e with
  | read bits off => exact ⟨_, rfl⟩
  | write bits off v => exact busWrite_next s bits off v
  | reset content => exact ⟨_, rfl⟩

theorem step_of_host_nil {s : State} (h : s.host = []) : step s = .next s := by
  simp only [step, State.advance, h]

/-- Settles O14: each event of the host has a next state, because each command has one. -/
theorem stepAlwaysNext : Obligations.StepAlwaysNext := by
  unfold Obligations.StepAlwaysNext
  refine ⟨fun s => ?step, exec_next, fun s => step_of_host_nil⟩
  cases hhost : s.host with
  | nil => exact ⟨s, step_of_host_nil hhost⟩
  | cons e rest =>
    rw [step_of_host_cons hhost]
    exact hostEvent_next _ e

/-! ### What a step can do -/

/-- What the next state of a host's transaction or of a command word can be: an operand register or what the host holds
changed, a byte of `MEM` written, a bus address error, a command error, or the effect of a command whose ranges fit. -/
inductive Reached (s : State) : State → Prop where
  | kept {t : State} (hcfg : t.cfg = s.cfg) (hmem : t.mem = s.mem) (hstatus : t.status = s.status)
      (herrlog : t.errlog = s.errlog) (hq : t.q = s.q) (hdvd : t.dvd = s.dvd) : Reached s t
  | stored (a : Nat) (v : Byte) (ha : a < s.cfg.memSize) : Reached s { s with mem := s.mem.write a v }
  | badRead : Reached s { s.busError with rdata := 0 }
  | badWrite : Reached s s.busError
  | raised (w : Word) (e : CmdError) : Reached s ({ s with cmd := w }.raise e)
  | applied (w : Word) (i : Instr) (hfit : DstFits i { s with cmd := w }) :
      Reached s ({ s with cmd := w }.apply (effect i { s with cmd := w } { s with cmd := w }.input))

theorem reached_writeReg (s : State) (off : Nat) (v : Word) : Reached s (s.writeReg off v) := by
  unfold State.writeReg
  split <;> exact .kept rfl rfl rfl rfl rfl rfl

theorem reached_runCommand {s t : State} {v w : Word} (h : { s with cmd := w }.runCommand v = .next t) :
    Reached s t := by
  match hd : decode s.cfg.hasEccDec v with
  | .ok i =>
    rw [State.runCommand_of_decode_ok (s := { s with cmd := w }) hd] at h
    obtain ⟨_, rfl⟩ | ⟨_, _, rfl⟩ | ⟨_, hfit, rfl⟩ := exec_cases h
    · rw [State.raised_three]
      exact .raised w .srcrange
    · rw [State.raised_four]
      exact .raised w .dstrange
    · exact .applied w i hfit
  | .error .illop =>
    rw [State.runCommand_of_decode_illop (s := { s with cmd := w }) hd] at h
    cases h
    exact .raised w .illop
  | .error .rsvd =>
    rw [State.runCommand_of_decode_rsvd (s := { s with cmd := w }) hd] at h
    cases h
    exact .raised w .rsvd

/-- A byte an access reaches lies in the memory (R60). -/
theorem lt_memSize_of_busTarget {memSize bits off a : Nat} (h : busTarget memSize bits off = .memory a) :
    a < memSize := by
  unfold busTarget at h
  split_ifs at h with _ _ hwindow
  have ha : off - memWindow = a := Target.memory.inj h
  omega

theorem reached_busRead (s : State) (bits off : Nat) : Reached s (s.busRead bits off) := by
  unfold State.busRead
  split
  · exact .kept rfl rfl rfl rfl rfl rfl
  · exact .kept rfl rfl rfl rfl rfl rfl
  · exact .badRead

theorem reached_busWrite {s t : State} {bits off : Nat} {v : Word} (h : s.busWrite bits off v = .next t) :
    Reached s t := by
  unfold State.busWrite at h
  split at h
  · split at h
    · exact reached_runCommand h
    · cases h
      exact reached_writeReg s _ v
  next a htarget =>
    cases h
    exact .stored a _ (lt_memSize_of_busTarget htarget)
  · cases h
    exact .badWrite

/-- A step holds the state, or performs the next event: a reset or a transaction. -/
theorem step_cases {s t : State} (h : step s = .next t) :
    t = s ∨
    (∃ content rest, s.host = .reset content :: rest ∧ t = { s with host := rest }.platformReset content) ∨
    ∃ e rest, s.host = e :: rest ∧ e.isReset = false ∧ Reached { s with host := rest } t := by
  cases hhost : s.host with
  | nil =>
    rw [step_of_host_nil hhost] at h
    cases h
    exact .inl rfl
  | cons e rest =>
    rw [step_of_host_cons hhost] at h
    cases e with
    | read bits off =>
      cases h
      exact .inr (.inr ⟨_, rest, rfl, rfl, reached_busRead _ bits off⟩)
    | write bits off v => exact .inr (.inr ⟨_, rest, rfl, rfl, reached_busWrite h⟩)
    | reset content =>
      cases h
      exact .inr (.inl ⟨content, rest, rfl, rfl⟩)

/-! ### `ERRLOG` is sticky (R26) -/

theorem and_or_self_left (a b : Word) : a &&& (a ||| b) = a := by
  apply BitVec.eq_of_getLsbD_eq
  intro i _
  rw [BitVec.getLsbD_and, BitVec.getLsbD_or]
  cases a.getLsbD i <;> rfl

theorem errlog_kept_of_reached {s t : State} (h : Reached s t) : s.errlog &&& t.errlog = s.errlog := by
  cases h with
  | kept _ _ _ herrlog => rw [herrlog, BitVec.and_self]
  | stored => exact BitVec.and_self
  | badRead => exact and_or_self_left _ _
  | badWrite => exact and_or_self_left _ _
  | raised => exact and_or_self_left _ _
  | applied => exact BitVec.and_self

/-- Settles O15: whatever a transaction does to `ERRLOG`, it only adds bits. -/
theorem errlogIsSticky : Obligations.ErrlogIsSticky := by
  unfold Obligations.ErrlogIsSticky
  intro s t hstep
  refine ⟨fun content rest hhost => ?reset, fun hother => ?others⟩
  case reset =>
    rw [step_reset hhost] at hstep
    cases hstep
    rfl
  case others =>
    obtain rfl | ⟨content, rest, hhost, _⟩ | ⟨_, _, _, _, hreached⟩ := step_cases hstep
    · exact BitVec.and_self
    · exact absurd hhost (hother content rest)
    · have hkept := errlog_kept_of_reached hreached
      exact hkept

/-! ### The results a command can have (R25) -/

/-- A tag and a reason that go together in a command without a command error: only `UNCHANGED` has a reason. -/
def Result.Legal (r : Result) : Prop := r.tag ≠ .error ∧ (r.reason ≠ .none → r.tag = .unchanged)

theorem legal_passCopy (reason : Reason) (src : Bytes) : (passCopy reason src).Legal :=
  ⟨by simp [passCopy], fun _ => rfl⟩

theorem legal_passBare (reason : Reason) : (passBare reason).Legal := ⟨by simp [passBare], fun _ => rfl⟩

/-- A result with another tag than `ERROR` and no reason is legal. -/
theorem legal_of_no_reason {r : Result} (htag : r.tag ≠ .error) (hreason : r.reason = .none) : r.Legal :=
  ⟨htag, fun h => absurd hreason h⟩

theorem legal_rprefixResult (tt : TrackType) (lba : Int) (src : Bytes) : (rprefixResult tt lba src).Legal := by
  unfold rprefixResult
  split_ifs
  · exact legal_passCopy _ _
  · exact legal_passCopy _ _
  · exact legal_passCopy _ _
  · exact legal_of_no_reason (by simp) rfl

theorem legal_reccResult (tt : TrackType) (src : Bytes) : (reccResult tt src).Legal := by
  unfold reccResult
  split_ifs
  · exact legal_passCopy _ _
  · split
    · exact legal_passCopy _ _
    · exact legal_of_no_reason (by simp) rfl

theorem legal_eccsynResult (tt : TrackType) (src : Bytes) : (eccsynResult tt src).Legal := by
  unfold eccsynResult
  split_ifs
  · exact legal_passBare _
  · exact legal_passBare _
  · exact legal_of_no_reason (by simp) rfl

theorem legal_eccfixResult (tt : TrackType) (src : Bytes) : (eccfixResult tt src).Legal := by
  unfold eccfixResult
  dsimp only
  split_ifs
  · exact legal_passCopy _ _
  · exact legal_passCopy _ _
  · exact legal_passCopy _ _
  · exact ⟨by simp [passCopy], fun _ => rfl⟩
  · exact legal_of_no_reason (by simp) rfl

theorem legal_cdscrResult (table src : Bytes) : (cdscrResult table src).Legal := by
  unfold cdscrResult
  split_ifs
  · exact legal_passCopy _ _
  · exact legal_passCopy _ _
  · exact legal_of_no_reason (by simp) rfl

theorem legal_convertResult (refused : Byte → Bool) (f : Byte → Byte) (src : Bytes) :
    (convertResult refused f src).Legal := by
  unfold convertResult
  split_ifs
  · exact legal_passCopy _ _
  · exact legal_passCopy _ _
  · exact legal_of_no_reason (by simp) rfl

theorem legal_piecesResult (size : Nat) (f : Bytes → Bytes) (src : Bytes) : (piecesResult size f src).Legal := by
  unfold piecesResult
  split_ifs
  · exact legal_passCopy _ _
  · exact legal_of_no_reason (by simp) rfl

theorem legal_batchResult (b : Batch) : (batchResult b).Legal := by
  by_cases hdone : b.done > 0
  · exact legal_of_no_reason (by simp [batchResult, hdone]) (by simp [batchResult, hdone])
  · exact ⟨by simp [batchResult, hdone], fun _ => if_neg hdone⟩

theorem legal_seedEffect {s : State} {r : SearchResult} {found : Seed → Nat → Stage → Result} {missed : Nat → Result}
    (hfound : ∀ x n g, (found x n g).Legal) (hmissed : ∀ n, (missed n).Legal) :
    (seedEffect s r found missed).result.Legal := by
  cases r with
  | found x n g => exact hfound x n g
  | notFound n => exact hmissed n

theorem legal_effect (i : Instr) (s : State) (src : Bytes) : (effect i s src).result.Legal := by
  cases i with
  | nop => exact legal_of_no_reason (by simp [effect]) rfl
  | edc => exact legal_of_no_reason (by simp [effect]) rfl
  | rprefix tt => exact legal_rprefixResult tt _ src
  | recc tt => exact legal_reccResult tt src
  | eccsyn tt => exact legal_eccsynResult tt src
  | eccfix tt => exact legal_eccfixResult tt src
  | cdscr => exact legal_cdscrResult _ src
  | dvdtest =>
    simp only [effect]
    split_ifs
    · exact legal_passBare _
    · exact legal_of_no_reason (by simp) rfl
    · exact legal_of_no_reason (by simp) rfl
  | dvdseed =>
    simp only [effect]
    split_ifs
    · exact legal_passBare _
    · exact legal_seedEffect (fun _ _ _ => legal_of_no_reason (by simp) rfl) fun _ => legal_passBare .noseed
  | dvdscr =>
    simp only [effect]
    split_ifs
    · exact legal_passCopy _ _
    · exact legal_seedEffect (fun _ _ _ => legal_of_no_reason (by simp) rfl) fun _ => legal_passCopy .noseed src
  | dvdscrb =>
    simp only [effect]
    split_ifs
    · exact legal_passCopy _ _
    · exact legal_batchResult _
  | dvdrst => exact legal_of_no_reason (by simp [effect]) rfl
  | qbin2bcd => exact legal_convertResult _ _ src
  | qbcd2bin => exact legal_convertResult _ _ src
  | q2raw => exact legal_piecesResult _ _ src
  | intlv => exact legal_piecesResult _ _ src
  | deintlv => exact legal_piecesResult _ _ src
  | qparse qf =>
    simp only [effect]
    split_ifs
    · exact legal_passBare _
    · exact legal_of_no_reason (by simp) rfl

/-! ### `STATUS` and `ERRLOG` hold values the block produces (R25, R26) -/

/-- A `STATUS` word is legal when its fields go together: a reason only with `UNCHANGED`, an error code exactly with
`ERROR`. -/
theorem statusLegal_statusWord {tag : Tag} {reason : Reason} {err : BitVec 4} {opc : BitVec 8}
    (hreason : reason ≠ .none → tag = .unchanged) (herr : err.toNat ≤ 4) (htag : err ≠ 0 ↔ tag = .error) :
    StatusLegal (statusWord tag reason err opc) := by
  obtain ⟨foutcome, freason, ferr, -, fbit, freserved⟩ := statusWord_fields tag reason err opc
  rw [StatusLegal, foutcome, freason, ferr]
  refine ⟨by cases tag <;> decide, fbit, by cases reason <;> decide, fun h => ?_, herr, htag.trans ?_, freserved⟩
  · have hne : reason ≠ .none := by
      rintro rfl
      exact h rfl
    rw [hreason hne]
    rfl
  · cases tag <;> decide

theorem statusLegal_zero : StatusLegal 0 := by
  unfold StatusLegal
  decide

theorem statusLegal_raise (s : State) (e : CmdError) : StatusLegal (s.raise e).status :=
  statusLegal_statusWord (fun h => absurd rfl h) (by cases e <;> decide) (by cases e <;> decide)

theorem statusLegal_apply (s : State) (e : Effect) (h : e.result.Legal) : StatusLegal (s.apply e).status := by
  obtain ⟨htag, hreason⟩ := h
  exact statusLegal_statusWord hreason (by decide) ⟨fun h => absurd rfl h, fun h => absurd h htag⟩

theorem errlogLegal_or {v w : Word} (hv : ErrlogLegal v) (hw : ErrlogLegal w) : ErrlogLegal (v ||| w) := by
  unfold ErrlogLegal at *
  apply BitVec.eq_of_getLsbD_eq
  intro i _
  have bv := congrArg (·.getLsbD i) hv
  have bw := congrArg (·.getLsbD i) hw
  simp only [BitVec.getLsbD_and] at bv bw
  rw [BitVec.getLsbD_and, BitVec.getLsbD_or, Bool.and_or_distrib_right, bv, bw]

theorem errlogLegal_bit (e : CmdError) : ErrlogLegal e.bit := by
  unfold ErrlogLegal
  cases e <;> decide

theorem errlogLegal_busaddrBit : ErrlogLegal busaddrBit := by
  unfold ErrlogLegal
  decide

/-! ### The Q record, the hint and the cache (R33, R266) -/

theorem qLegal_zero : QLegal .zero := by
  unfold QLegal
  decide

/-- Zeros put on top of a word are what its uppermost field reads. -/
theorem extractLsb'_zero_append {m n : Nat} (x : BitVec n) : (0#m ++ x).extractLsb' n m = 0#m := by
  apply BitVec.eq_of_getLsbD_eq
  intro i hi
  rw [BitVec.getLsbD_extractLsb', BitVec.getLsbD_append]
  simp

theorem qLegal_qRecord (c : Config) (qf : QFlags) (lba : Int) (b : Bytes) : QLegal (qRecord c qf lba b) := by
  simp only [QLegal, qRecord, BitVec.append_assoc, BitVec.cast_eq]
  exact ⟨extractLsb'_zero_append _, extractLsb'_zero_append _, extractLsb'_zero_append _⟩

theorem qLegal_effect (i : Instr) (s : State) (src : Bytes) (h : QLegal s.q) : QLegal (effect i s src).q := by
  by_cases hq : ∀ qf, i ≠ .qparse qf
  · rwa [effect_q i s src hq]
  · push Not at hq
    obtain ⟨qf, rfl⟩ := hq
    by_cases hlen : src.length = 12
    · rw [effect_qparse_of_block hlen]
      exact qLegal_qRecord _ _ _ _
    · rw [effect_qparse_of_length hlen]
      exact qLegal_zero

theorem dvdLegal_fresh : DvdLegal .fresh := ⟨List.nodup_nil, fun _ h => by cases h⟩

theorem dvdLegal_record {d : DvdInstance} (h : DvdLegal d) (x : Seed) : DvdLegal (d.record x) := by
  obtain ⟨hlast, hcache, hmem⟩ := d.record_spec x
  refine ⟨?_, fun y hy => ?_⟩
  · rw [hcache]
    split_ifs with hx
    · exact h.1
    · exact List.nodup_append_comm.mp (List.nodup_cons.mpr ⟨hx, h.1⟩)
  · rw [hlast] at hy
    cases hy
    exact hmem

theorem dvdLegal_dvdBatch {c : Config} {b : Bytes} {d : DvdInstance} (h : DvdLegal d) (n : Nat) :
    DvdLegal (dvdBatch c n b d).inst := by
  induction n with
  | zero => exact h
  | succ n ih =>
    rw [dvdBatch_succ]
    cases hsearch : search c (dvdBatch c n b d).inst (chunkAt b n) with
    | found x trials g =>
      rw [Batch.push_of_found hsearch]
      exact dvdLegal_record ih x
    | notFound trials =>
      rw [Batch.push_of_notFound hsearch]
      exact ih

theorem dvdLegal_seedEffect {s : State} (h : DvdLegal s.dvd) (r : SearchResult) (found : Seed → Nat → Stage → Result)
    (missed : Nat → Result) : DvdLegal (seedEffect s r found missed).dvd := by
  cases r with
  | found x n g => exact dvdLegal_record h x
  | notFound n => exact h

theorem dvdLegal_effect (i : Instr) (s : State) (src : Bytes) (h : DvdLegal s.dvd) :
    DvdLegal (effect i s src).dvd := by
  cases i with
  | dvdseed =>
    simp only [effect]
    split_ifs
    · exact h
    · exact dvdLegal_seedEffect h _ _ _
  | dvdscr =>
    simp only [effect]
    split_ifs
    · exact h
    · exact dvdLegal_seedEffect h _ _ _
  | dvdscrb =>
    simp only [effect]
    split_ifs
    · exact h
    · exact dvdLegal_dvdBatch h _
  | dvdrst => exact dvdLegal_fresh
  | _ =>
    rw [effect_dvd _ s src (by simp) (by simp) (by simp) (by simp)]
    exact h

/-! ### The invariant -/

theorem inv_resetWith {c : Config} {m : Memory} (hcfg : c.wellFormed = true) (hmem : Memory.wf c.memSize m = true) :
    Inv (State.resetWith c m) where
  cfg := hcfg
  mem := hmem
  status := statusLegal_zero
  errlog := BitVec.zero_and
  q := qLegal_zero
  dvd := dvdLegal_fresh

/-- The invariant speaks of six fields only. -/
theorem Inv.congr {s t : State} (h : Inv s) (hcfg : t.cfg = s.cfg) (hmem : t.mem = s.mem) (hstatus : t.status = s.status)
    (herrlog : t.errlog = s.errlog) (hq : t.q = s.q) (hdvd : t.dvd = s.dvd) : Inv t where
  cfg := hcfg ▸ h.cfg
  mem := by rw [hcfg, hmem]; exact h.mem
  status := hstatus ▸ h.status
  errlog := herrlog ▸ h.errlog
  q := hq ▸ h.q
  dvd := hdvd ▸ h.dvd

theorem Inv.platformReset {s : State} (h : Inv s) (content : List Host.Cell) : Inv (s.platformReset content) :=
  (inv_resetWith h.cfg (Memory.wf_ofCells _ content)).congr rfl rfl rfl rfl rfl rfl

theorem Inv.busError {s : State} (h : Inv s) : Inv s.busError where
  cfg := h.cfg
  mem := h.mem
  status := h.status
  errlog := errlogLegal_or h.errlog errlogLegal_busaddrBit
  q := h.q
  dvd := h.dvd

theorem Inv.raise {s : State} (h : Inv s) (e : CmdError) : Inv (s.raise e) where
  cfg := h.cfg
  mem := h.mem
  status := statusLegal_raise s e
  errlog := errlogLegal_or h.errlog (errlogLegal_bit e)
  q := h.q
  dvd := h.dvd

/-- The bytes a command writes lie in the memory, because its bound does (R306). -/
theorem Inv.apply_effect {s : State} (h : Inv s) {i : Instr} (hfit : DstFits i s) :
    Inv (s.apply (effect i s s.input)) where
  cfg := h.cfg
  mem := by
    have hbound := length_effect_le i s
    refine Memory.wf_writeBytes (a := s.dst.toNat) h.mem (hfit.imp (fun h0 => ?_) fun hin => ?_)
    · exact Nat.le_zero.mp (h0 ▸ hbound)
    · exact (Nat.add_le_add_left hbound _).trans hin
  status := statusLegal_apply s _ (legal_effect i s s.input)
  errlog := h.errlog
  q := qLegal_effect i s s.input h.q
  dvd := dvdLegal_effect i s s.input h.dvd

theorem Inv.of_reached {s t : State} (h : Inv s) (hreached : Reached s t) : Inv t := by
  have hword (w : Word) : Inv { s with cmd := w } := h.congr rfl rfl rfl rfl rfl rfl
  cases hreached with
  | kept hcfg hmem hstatus herrlog hq hdvd => exact h.congr hcfg hmem hstatus herrlog hq hdvd
  | stored a v ha => exact ⟨h.cfg, Memory.wf_write v h.mem ha, h.status, h.errlog, h.q, h.dvd⟩
  | badRead => exact h.busError.congr rfl rfl rfl rfl rfl rfl
  | badWrite => exact h.busError
  | raised w e => exact (hword w).raise e
  | applied w i hfit => exact (hword w).apply_effect hfit

/-- Settles O12: every register is 0 after reset, and `MEM` is in canonical form by hypothesis. -/
theorem invAtReset : Obligations.InvAtReset := by
  unfold Obligations.InvAtReset
  exact ⟨inv_resetWith (by decide) Memory.wf_reset, fun c m hcfg hmem => inv_resetWith hcfg hmem⟩

/-- Settles O13: a step holds the state, resets it, or reaches a state from which the invariant can be read off. -/
theorem stepKeepsInv : Obligations.StepKeepsInv := by
  unfold Obligations.StepKeepsInv
  intro s t hinv hstep
  have hnext (rest : List HostEvent) : Inv { s with host := rest } := hinv.congr rfl rfl rfl rfl rfl rfl
  obtain rfl | ⟨content, rest, _, rfl⟩ | ⟨_, rest, _, _, hreached⟩ := step_cases hstep
  · exact hinv
  · exact (hnext rest).platformReset content
  · exact (hnext rest).of_reached hreached

end Sys2Proof.Machine
end

section
/-! SUPPORT. What a command leaves alone and what it does not read (spec 20_memory.md R62 to R65, 30_encoding.md R94,
60_exceptions.md R303): the registers its effect depends on, said once. -/

namespace Sys2Proof.Machine

/-! ### The frame of a command (R65, R303) -/

theorem statusOutcome_raise (s : State) (e : CmdError) : statusOutcome (s.raise e).status = 4 := by
  obtain ⟨houtcome, _⟩ := statusWord_fields .error .none e.code s.opc
  exact houtcome

/-- A command that ends without a command error does not report `ERROR` (R25). -/
theorem statusOutcome_apply_ne (i : Instr) (s : State) (src : Bytes) :
    statusOutcome (s.apply (effect i s src)).status ≠ 4 := by
  obtain ⟨htag, -⟩ := legal_effect i s src
  obtain ⟨houtcome, _⟩ := statusWord_fields (effect i s src).result.tag (effect i s src).result.reason 0 s.opc
  have hstatus : statusOutcome (s.apply (effect i s src)).status = (effect i s src).result.tag.code := houtcome
  rw [hstatus]
  revert htag
  cases (effect i s src).result.tag <;> decide

/-- What a command writes fits `OLEN`, because it fits the memory (R9, R306). -/
theorem olen_apply_effect {i : Instr} {s : State} (hmem : s.cfg.memSizeOk = true) (hfit : DstFits i s) :
    (s.apply (effect i s s.input)).olen.toNat = (effect i s s.input).result.out.length := by
  have hbound := length_effect_le i s
  have hsize : s.cfg.memSize ≤ 2 ^ 31 := by
    simp only [Config.memSizeOk, Bool.and_eq_true, decide_eq_true_eq] at hmem
    exact hmem.2
  have holen : (s.apply (effect i s s.input)).olen = BitVec.ofNat 32 (effect i s s.input).result.out.length := rfl
  rw [holen, BitVec.toNat_ofNat]
  apply Nat.mod_eq_of_lt
  obtain h0 | hin := hfit
  · omega
  · omega

theorem memKeptOutside_apply (s : State) (e : Effect) :
    MemKeptOutside s (s.apply e) s.dst.toNat e.result.out.length :=
  (memHolds_writeBytes s e.result.out (s.apply e) rfl).2

/-- What a range error leaves alone is all but `STATUS` and `ERRLOG` (R303). -/
theorem frame_of_raise {i : Instr} {s : State} (e : CmdError) :
    ((∀ qf, i ≠ .qparse qf) → (s.raise e).q = s.q) ∧
    (i ≠ .dvdseed → i ≠ .dvdscr → i ≠ .dvdscrb → i ≠ .dvdrst → (s.raise e).dvd = s.dvd) ∧
    (statusOutcome (s.raise e).status ≠ 4 → (s.raise e).errlog = s.errlog ∧
      (s.raise e).olen.toNat ≤ outmax i s.len.toNat ∧ MemKeptOutside s (s.raise e) s.dst.toNat (s.raise e).olen.toNat) ∧
    (statusOutcome (s.raise e).status = 4 → (s.raise e).mem = s.mem ∧ (s.raise e).olen = s.olen ∧
      (s.raise e).res0 = s.res0 ∧ (s.raise e).res1 = s.res1 ∧ (s.raise e).res2 = s.res2 ∧ (s.raise e).q = s.q ∧
      (s.raise e).dvd = s.dvd) :=
  ⟨fun _ => rfl, fun _ _ _ _ => rfl, fun h => absurd (statusOutcome_raise s e) h,
    fun _ => ⟨rfl, rfl, rfl, rfl, rfl, rfl, rfl⟩⟩

/-- Settles O16: a range error changes `STATUS` and `ERRLOG` alone; an effect writes the bytes of its output and, of the
Q record, the hint and the cache, what its command may. -/
theorem commandFrame : Obligations.CommandFrame := by
  unfold Obligations.CommandFrame
  intro i s t hmem hexec
  refine ⟨exec_operands hexec, ?_⟩
  obtain ⟨_, rfl⟩ | ⟨_, _, rfl⟩ | ⟨_, hfit, rfl⟩ := exec_cases hexec
  · rw [State.raised_three]
    exact frame_of_raise .srcrange
  · rw [State.raised_four]
    exact frame_of_raise .dstrange
  · refine ⟨effect_q i s s.input, effect_dvd i s s.input, fun _ => ?_,
      fun h => absurd h (statusOutcome_apply_ne i s s.input)⟩
    rw [olen_apply_effect hmem hfit]
    exact ⟨rfl, length_effect_le i s, memKeptOutside_apply s _⟩

/-! ### The registers an effect depends on (R94) -/

/-- An effect is a function of the input, the parameters, the Q record, the hint and the cache, and of `LBA`, `EDCSEED`,
`SEED` and `XFER` in the commands that read these. -/
theorem effect_congr {i : Instr} {s s' : State} (src : Bytes) (hcfg : s'.cfg = s.cfg) (hq : s'.q = s.q)
    (hdvd : s'.dvd = s.dvd) (hlba : s'.lba = s.lba ∨ ((∀ tt, i ≠ .rprefix tt) ∧ ∀ qf, i ≠ .qparse qf))
    (hedcseed : s'.edcseed = s.edcseed ∨ i ≠ .edc) (hseed : s'.seed = s.seed ∨ i ≠ .dvdtest)
    (hxfer : s'.xfer = s.xfer ∨ i ≠ .dvdscrb) : effect i s' src = effect i s src := by
  cases i with
  | edc =>
    have h := hedcseed.resolve_right (by simp)
    simp only [effect, h, hq, hdvd]
  | rprefix tt =>
    have h := hlba.resolve_right (by simp)
    simp only [effect, State.lbaInt, h, hq, hdvd]
  | qparse qf =>
    have h := hlba.resolve_right (by simp)
    simp only [effect, State.lbaInt, h, hcfg, hdvd]
  | dvdtest =>
    have h := hseed.resolve_right (by simp)
    simp only [effect, h, hcfg, hq, hdvd]
  | dvdscrb =>
    have h := hxfer.resolve_right (by simp)
    simp only [effect, h, hcfg, hq, hdvd]
  | _ => simp only [effect, seedEffect, hcfg, hq, hdvd]

/-- A change of a state that moves no range check and no effect commutes with the command. -/
theorem exec_of_change {i : Instr} {s t : State} (change : State → State) (hexec : exec i s = .next t)
    (hsrc : SrcFits i (change s) ↔ SrcFits i s) (hdst : DstFits i (change s) ↔ DstFits i s)
    (hraised : ∀ n, (change s).raised n = change (s.raised n))
    (heffect : effect i (change s) (change s).input = effect i s s.input)
    (happly : (change s).apply (effect i s s.input) = change (s.apply (effect i s s.input))) :
    exec i (change s) = .next (change t) := by
  obtain ⟨hrange, hbound, hdone⟩ := exec_eq i (change s)
  obtain ⟨h, rfl⟩ | ⟨h, h', rfl⟩ | ⟨h, h', rfl⟩ := exec_cases hexec
  · rw [hrange (hsrc.not.mpr h), hraised]
  · rw [hbound (hsrc.mpr h) (hdst.not.mpr h'), hraised]
  · rw [hdone (hsrc.mpr h) (hdst.mpr h'), heffect, happly]

/-- A command with the bound 0 writes no byte (R306). -/
theorem out_eq_nil {i : Instr} {s : State} (h : outmax i s.len.toNat = 0) : (effect i s s.input).result.out = [] :=
  List.eq_nil_of_length_eq_zero (Nat.le_zero.mp (h ▸ length_effect_le i s))

theorem exec_of_dst {i : Instr} {s t : State} (v : Word) (hbound : ∀ n, outmax i n = 0) (hexec : exec i s = .next t) :
    exec i { s with dst := v } = .next { t with dst := v } := by
  refine exec_of_change (fun s => { s with dst := v }) hexec Iff.rfl ?fits (fun _ => rfl)
    (effect_congr s.input rfl rfl rfl (.inl rfl) (.inl rfl) (.inl rfl) (.inl rfl)) ?unwritten
  case fits => simp only [DstFits, hbound, true_or]
  case unwritten =>
    have hout : (effect i s s.input).result.out = [] := out_eq_nil (hbound _)
    simp only [State.apply, State.finish, hout, Memory.writeBytes_nil]
    rfl

/-- `NOP` and `DVDRST` have no range check and no input, so that `SRC` and `LEN` do not matter. -/
theorem exec_of_no_input {i : Instr} {s t : State} (hi : i = .nop ∨ i = .dvdrst) (src len : Word)
    (hexec : exec i s = .next t) : exec i { s with src := src, len := len } = .next { t with src := src, len := len } := by
  have hinput : ∀ a b : Bytes, effect i s a = effect i s b := by
    obtain rfl | rfl := hi
    · exact fun _ _ => rfl
    · exact fun _ _ => rfl
  have hbound : ∀ n, outmax i n = 0 := by
    obtain rfl | rfl := hi
    · exact fun _ => rfl
    · exact fun _ => rfl
  have hsrc : ∀ u : State, SrcFits i u := fun _ => hi.imp_right .inl
  refine exec_of_change (fun s => { s with src := src, len := len }) hexec ?_ ?_ (fun _ => rfl) ?_ rfl
  · exact iff_of_true (hsrc _) (hsrc _)
  · exact iff_of_true (.inl (hbound _)) (.inl (hbound _))
  · exact (effect_congr _ rfl rfl rfl (.inl rfl) (.inl rfl) (.inl rfl) (.inl rfl)).trans (hinput _ _)

/-- Settles O18: a register no effect, no input and no range check of the command depends on. -/
theorem unreadRegistersHaveNoEffect : Obligations.UnreadRegistersHaveNoEffect := by
  unfold Obligations.UnreadRegistersHaveNoEffect
  intro i s t v x hexec
  refine ⟨fun hrprefix hqparse => ?lba, fun hedc => ?edcseed, fun hdvdtest => ?seed, fun hdvdscrb => ?xfer,
    fun hi => ?dst, fun hi => ⟨?src, ?len⟩⟩
  case lba =>
    exact exec_of_change (fun s => { s with lba := v }) hexec Iff.rfl Iff.rfl (fun _ => rfl)
      (effect_congr s.input rfl rfl rfl (.inr ⟨hrprefix, hqparse⟩) (.inl rfl) (.inl rfl) (.inl rfl)) rfl
  case edcseed =>
    exact exec_of_change (fun s => { s with edcseed := v }) hexec Iff.rfl Iff.rfl (fun _ => rfl)
      (effect_congr s.input rfl rfl rfl (.inl rfl) (.inr hedc) (.inl rfl) (.inl rfl)) rfl
  case seed =>
    exact exec_of_change (fun s => { s with seed := x }) hexec Iff.rfl Iff.rfl (fun _ => rfl)
      (effect_congr s.input rfl rfl rfl (.inl rfl) (.inl rfl) (.inr hdvdtest) (.inl rfl)) rfl
  case xfer =>
    exact exec_of_change (fun s => { s with xfer := v }) hexec Iff.rfl Iff.rfl (fun _ => rfl)
      (effect_congr s.input rfl rfl rfl (.inl rfl) (.inl rfl) (.inl rfl) (.inr hdvdscrb)) rfl
  case dst =>
    refine exec_of_dst v (fun n => ?_) hexec
    obtain rfl | rfl | rfl | rfl | ⟨qf, rfl⟩ := hi
    all_goals rfl
  case src =>
    have htlen : t.len = s.len := (exec_operands hexec).len
    have h := exec_of_no_input hi v s.len hexec
    rw [← htlen] at h
    simpa [htlen] using h
  case len =>
    have htsrc : t.src = s.src := (exec_operands hexec).src
    have h := exec_of_no_input hi s.src v hexec
    rw [← htsrc] at h
    simpa [htsrc] using h

/-! ### A command reads its input alone (R62, R64) -/

theorem input_congr {s : State} {m : Memory}
    (h : ∀ a, s.src.toNat ≤ a → a < s.src.toNat + s.len.toNat → m.read a = s.mem.read a) :
    State.input { s with mem := m } = s.input := by
  have hread (i : Nat) (hi : i < s.len.toNat) : m.read (s.src.toNat + i) = s.mem.read (s.src.toNat + i) :=
    h _ (by omega) (by omega)
  exact List.map_congr_left fun i hi => hread i (List.mem_range.mp hi)

/-- Both memories hold the output of the command where it writes. -/
theorem read_apply_congr (s : State) (m : Memory) (e : Effect) {a : Nat} (hlo : s.dst.toNat ≤ a)
    (hhi : a < s.dst.toNat + (s.apply e).olen.toNat) :
    (State.apply { s with mem := m } e).mem.read a = (s.apply e).mem.read a := by
  have holen : (s.apply e).olen.toNat ≤ e.result.out.length := Nat.mod_le _ _
  have hread (m' : Memory) : (m'.writeBytes s.dst.toNat e.result.out).read a =
      byteAt e.result.out (a - s.dst.toNat) := by
    rw [Memory.read_writeBytes, if_pos (by omega)]
  exact (hread m).trans (hread s.mem).symm

/-- Settles O17: the input, and with it the effect, is the same in both memories. -/
theorem resultsComeFromInputAlone : Obligations.ResultsComeFromInputAlone := by
  unfold Obligations.ResultsComeFromInputAlone
  intro i s m _ hagree
  have hinput : State.input { s with mem := m } = s.input := input_congr hagree
  have heffect : effect i { s with mem := m } (State.input { s with mem := m }) = effect i s s.input := by
    rw [hinput]
    exact effect_congr _ rfl rfl rfl (.inl rfl) (.inl rfl) (.inl rfl) (.inl rfl)
  obtain ⟨hrange, hbound, hdone⟩ := exec_eq i { s with mem := m }
  rw [heffect] at hdone
  obtain ⟨t, hexec⟩ := exec_next i s
  obtain ⟨h, rfl⟩ | ⟨h, h', rfl⟩ | ⟨h, h', rfl⟩ := exec_cases hexec
  · refine ⟨_, _, hexec, hrange h, rfl, fun hne => ?_⟩
    rw [State.raised_three] at hne
    exact absurd (statusOutcome_raise s .srcrange) hne
  · refine ⟨_, _, hexec, hbound h h', rfl, fun hne => ?_⟩
    rw [State.raised_four] at hne
    exact absurd (statusOutcome_raise s .dstrange) hne
  · exact ⟨_, _, hexec, hdone h h', rfl, fun _ a hlo hhi => read_apply_congr s m _ hlo hhi⟩

end Sys2Proof.Machine
end

section
/-! SUPPORT. The field GF(2^8) (spec 40_tables.md R120 to R123): multiplication by `alpha` is linear and every byte is made
from 0 by it and by exclusive-or with 1, so that the field laws follow by induction over bytes. -/

namespace Sys2Proof.Machine

theorem byte_xor_zero (a : Byte) : a ^^^ 0 = a := BitVec.xor_zero

theorem byte_zero_xor (a : Byte) : 0 ^^^ a = a := BitVec.zero_xor

theorem times_succ_apply {α : Type} (n : Nat) (f : α → α) (x : α) : times (n + 1) f x = f (times n f x) := by
  induction n generalizing x with
  | zero => rfl
  | succ n ih => exact ih (f x)

/-! ### Multiplication by `alpha` (R121) -/

theorem gfF_zero : gfF 0 = 0 := rfl

theorem gfF_of_bit_seven {a : Byte} (h : a.getLsbD 7 = true) : gfF a = (a <<< 1) ^^^ 0x1D := by
  rw [gfF, if_pos h]

theorem gfF_of_not_bit_seven {a : Byte} (h : a.getLsbD 7 = false) : gfF a = a <<< 1 := by
  rw [gfF, if_neg (by rw [h]; exact Bool.false_ne_true)]
  exact byte_xor_zero _

theorem gfF_xor (a b : Byte) : gfF (a ^^^ b) = gfF a ^^^ gfF b := by
  have hshift : (a ^^^ b) <<< 1 = (a <<< 1) ^^^ (b <<< 1) := BitVec.shiftLeft_xor_distrib a b 1
  have hbit : (a ^^^ b).getLsbD 7 = (a.getLsbD 7 ^^ b.getLsbD 7) := BitVec.getLsbD_xor
  simp only [gfF, hshift, hbit]
  cases a.getLsbD 7 with
  | false =>
    simp only [Bool.false_xor, Bool.false_eq_true, if_false, byte_xor_zero]
    ac_rfl
  | true =>
    cases b.getLsbD 7 with
    | false =>
      simp only [Bool.xor_false, Bool.false_eq_true, if_false, if_true, byte_xor_zero]
      ac_rfl
    | true =>
      have htwice (x y c : Byte) : x ^^^ y ^^^ 0 = x ^^^ c ^^^ (y ^^^ c) := by
        rw [byte_xor_zero, BitVec.xor_assoc, BitVec.xor_comm y c, ← BitVec.xor_assoc c c y, BitVec.xor_self,
          BitVec.zero_xor]
      exact htwice _ _ _

/-- The product with `alpha` as a number, cut to a byte (R121). -/
theorem gfF_toNat (i : Byte) :
    (gfF i).toNat = ((i.toNat <<< 1) ^^^ (if i.getLsbD 7 then 0x11D else 0)) % 256 := by
  have hcut (m : Nat) : ((i.toNat <<< 1) ^^^ m) % 2 ^ 8 = (i.toNat <<< 1) % 2 ^ 8 ^^^ m % 2 ^ 8 := Nat.xor_mod_two_pow
  rw [show (256 : Nat) = 2 ^ 8 from rfl, hcut]
  cases h : i.getLsbD 7 with
  | true => rw [gfF_of_bit_seven h, BitVec.toNat_xor, BitVec.toNat_shiftLeft, if_pos rfl]; rfl
  | false => rw [gfF_of_not_bit_seven h, BitVec.toNat_shiftLeft, if_neg Bool.false_ne_true]; exact (Nat.xor_zero _).symm

/-- A byte without its lowest bit is the product of its upper seven bits with `alpha`. -/
theorem byte_eq_gfF (b : Byte) : b = gfF (b >>> 1) ^^^ (if b.getLsbD 0 then 1 else 0) := by
  have htop : (b >>> 1).getLsbD 7 = false := by
    rw [BitVec.getLsbD_ushiftRight]
    exact BitVec.getLsbD_of_ge b 8 le_rfl
  rw [gfF_of_not_bit_seven htop]
  apply BitVec.eq_of_getLsbD_eq
  intro i hi
  cases i with
  | zero => cases h : b.getLsbD 0 <;> simp
  | succ i => cases h : b.getLsbD 0 <;> simp [hi, Nat.add_comm]

/-- Every byte is made from 0 by multiplication by `alpha` and exclusive-or with 1. -/
theorem byte_induction {P : Byte → Prop} (zero : P 0) (shift : ∀ b, P b → P (gfF b)) (flip : ∀ b, P b → P (b ^^^ 1))
    (b : Byte) : P b := by
  induction hn : b.toNat using Nat.strong_induction_on generalizing b with
  | _ n ih =>
    by_cases hb : b = 0
    · rw [hb]
      exact zero
    · have hpos : b.toNat ≠ 0 := fun h => hb (BitVec.eq_of_toNat_eq h)
      have hhalf : (b >>> 1).toNat = b.toNat / 2 := by rw [BitVec.toNat_ushiftRight, Nat.shiftRight_eq_div_pow]
      have hshifted := shift _ (ih _ (by omega) (b >>> 1) rfl)
      rw [byte_eq_gfF b]
      split_ifs
      · exact flip _ hshifted
      · rwa [byte_xor_zero]

/-- `alpha^8 = alpha^4 + alpha^3 + alpha^2 + 1`, the polynomial of the field (R120). -/
theorem gfF_eight (a : Byte) : times 8 gfF a = a ^^^ times 2 gfF a ^^^ times 3 gfF a ^^^ times 4 gfF a := by
  induction a using byte_induction with
  | zero => rfl
  | shift a ih => simpa only [times, gfF_xor] using congrArg gfF ih
  | flip a ih =>
    have hone : times 8 gfF 1 = 1 ^^^ times 2 gfF 1 ^^^ times 3 gfF 1 ^^^ times 4 gfF 1 := by decide
    simp only [times] at ih hone ⊢
    simp only [gfF_xor, ih, hone]
    ac_rfl

/-! ### The product (R123) -/

/-- A summand of a product: `a` where the bit of the other factor is set. -/
def pick (p : Bool) (a : Byte) : Byte := if p then a else 0

theorem xor_pick (r a : Byte) (p : Bool) : (if p then r ^^^ a else r) = r ^^^ pick p a := by
  cases p with
  | true => rfl
  | false => exact (byte_xor_zero r).symm

theorem pick_xor (p q : Bool) (a : Byte) : pick (p ^^ q) a = pick p a ^^^ pick q a := by
  cases p <;> cases q <;> simp [pick]

theorem pick_xor_right (p : Bool) (a b : Byte) : pick p (a ^^^ b) = pick p a ^^^ pick p b := by
  cases p <;> simp [pick]

theorem gfF_pick (p : Bool) (a : Byte) : gfF (pick p a) = pick p (gfF a) := by
  cases p with
  | true => rfl
  | false => exact gfF_zero

/-- The product is a sum of powers of `alpha` times the first factor, one for each bit of the second. -/
theorem gmul_eq_sum (a b : Byte) : gmul a b =
    pick (b.getLsbD 0) a ^^^ pick (b.getLsbD 1) (gfF a) ^^^ pick (b.getLsbD 2) (times 2 gfF a) ^^^
    pick (b.getLsbD 3) (times 3 gfF a) ^^^ pick (b.getLsbD 4) (times 4 gfF a) ^^^
    pick (b.getLsbD 5) (times 5 gfF a) ^^^ pick (b.getLsbD 6) (times 6 gfF a) ^^^
    pick (b.getLsbD 7) (times 7 gfF a) := by
  simp only [gmul, gmulFrom, xor_pick, byte_zero_xor, Nat.zero_add, Nat.reduceAdd, times]
  rfl

theorem gmul_zero (a : Byte) : gmul a 0 = 0 := by
  simp [gmul_eq_sum, pick]

theorem gmul_one (a : Byte) : gmul a 1 = a := by
  simp [gmul_eq_sum, pick]

theorem gmul_xor (a b c : Byte) : gmul a (b ^^^ c) = gmul a b ^^^ gmul a c := by
  simp only [gmul_eq_sum, BitVec.getLsbD_xor, pick_xor]
  ac_rfl

/-- The bits of a product with `alpha`: bit 7 comes back in at bits 0, 2, 3 and 4. -/
theorem getLsbD_gfF (b : Byte) : (gfF b).getLsbD 0 = b.getLsbD 7 ∧ (gfF b).getLsbD 1 = b.getLsbD 0 ∧
    (gfF b).getLsbD 2 = (b.getLsbD 1 ^^ b.getLsbD 7) ∧ (gfF b).getLsbD 3 = (b.getLsbD 2 ^^ b.getLsbD 7) ∧
    (gfF b).getLsbD 4 = (b.getLsbD 3 ^^ b.getLsbD 7) ∧ (gfF b).getLsbD 5 = b.getLsbD 4 ∧
    (gfF b).getLsbD 6 = b.getLsbD 5 ∧ (gfF b).getLsbD 7 = b.getLsbD 6 := by
  cases h : b.getLsbD 7 with
  | true =>
    rw [gfF_of_bit_seven h]
    simp
  | false =>
    rw [gfF_of_not_bit_seven h]
    simp

theorem gmul_gfF (a b : Byte) : gmul a (gfF b) = gfF (gmul a b) := by
  obtain ⟨b0, b1, b2, b3, b4, b5, b6, b7⟩ := getLsbD_gfF b
  have height : gfF (times 7 gfF a) = a ^^^ times 2 gfF a ^^^ times 3 gfF a ^^^ times 4 gfF a := gfF_eight a
  have hstep (n : Nat) : gfF (times n gfF a) = times (n + 1) gfF a := (times_succ_apply n gfF a).symm
  rw [gmul_eq_sum, gmul_eq_sum, b0, b1, b2, b3, b4, b5, b6, b7]
  simp only [gfF_xor, gfF_pick, pick_xor, height, hstep 2, hstep 3, hstep 4, hstep 5, hstep 6,
    pick_xor_right, Nat.reduceAdd]
  rw [show gfF (gfF a) = times 2 gfF a from rfl]
  ac_rfl

theorem gfF_gmul (a b : Byte) : gmul (gfF a) b = gfF (gmul a b) := by
  induction b using byte_induction with
  | zero => simp only [gmul_zero, gfF_zero]
  | shift b ih => simp only [gmul_gfF, ih]
  | flip b ih => simp only [gmul_xor, gmul_one, gfF_xor, ih]

theorem zero_gmul (b : Byte) : gmul 0 b = 0 := by
  induction b using byte_induction with
  | zero => exact gmul_zero 0
  | shift b ih => rw [gmul_gfF, ih, gfF_zero]
  | flip b ih => rw [gmul_xor, ih, gmul_one, byte_xor_zero]

theorem one_gmul (b : Byte) : gmul 1 b = b := by
  induction b using byte_induction with
  | zero => exact gmul_zero 1
  | shift b ih => rw [gmul_gfF, ih]
  | flip b ih => rw [gmul_xor, ih, gmul_one]

theorem xor_gmul (a b c : Byte) : gmul (a ^^^ b) c = gmul a c ^^^ gmul b c := by
  induction c using byte_induction with
  | zero => simp only [gmul_zero, byte_xor_zero]
  | shift c ih => simp only [gmul_gfF, ih, gfF_xor]
  | flip c ih =>
    simp only [gmul_xor, gmul_one, ih]
    ac_rfl

theorem gmul_comm (a b : Byte) : gmul a b = gmul b a := by
  induction b using byte_induction with
  | zero => rw [gmul_zero, zero_gmul]
  | shift b ih => rw [gmul_gfF, gfF_gmul, ih]
  | flip b ih => rw [gmul_xor, xor_gmul, gmul_one, one_gmul, ih]

theorem gmul_assoc (a b c : Byte) : gmul (gmul a b) c = gmul a (gmul b c) := by
  induction c using byte_induction with
  | zero => simp only [gmul_zero]
  | shift c ih => simp only [gmul_gfF, ih]
  | flip c ih => simp only [gmul_xor, gmul_one, ih]

/-- `alpha` is 2. -/
theorem two_gmul (a : Byte) : gmul 0x02 a = gfF a := by
  have htwo : (0x02 : Byte) = gfF 1 := by decide
  rw [htwo, gfF_gmul, one_gmul]

/-- `alpha + 1` is 3. -/
theorem three_gmul (a : Byte) : gmul 0x03 a = a ^^^ gfF a := by
  have hthree : (0x03 : Byte) = 1 ^^^ 0x02 := by decide
  rw [hthree, xor_gmul, one_gmul, two_gmul]

/-! ### The powers of `alpha` and the logarithm (R123) -/

theorem gexp_zero : gexp 0 = 1 := rfl

theorem gexp_succ (k : Nat) : gexp (k + 1) = gfF (gexp k) := times_succ_apply k gfF 1

theorem gexp_add (j k : Nat) : gexp (j + k) = gmul (gexp j) (gexp k) := by
  induction k with
  | zero => rw [Nat.add_zero, gexp_zero, gmul_one]
  | succ k ih => rw [← Nat.add_assoc, gexp_succ, gexp_succ, gmul_gfF, ih]

/-- The 16th, 32nd, 64th and 128th power, each the square of the one before. -/
theorem gexp_squares : gexp 16 = 0x4C ∧ gexp 32 = 0x9D ∧ gexp 64 = 0x5F ∧ gexp 128 = 0x85 := by
  have h16 : gexp 16 = 0x4C := by decide
  have h32 : gexp 32 = 0x9D := by rw [gexp_add 16 16, h16]; decide
  have h64 : gexp 64 = 0x5F := by rw [gexp_add 32 32, h32]; decide
  have h128 : gexp 128 = 0x85 := by rw [gexp_add 64 64, h64]; decide
  exact ⟨h16, h32, h64, h128⟩

theorem gexp_255 : gexp 255 = 1 := by
  obtain ⟨h16, h32, h64, h128⟩ := gexp_squares
  rw [show 255 = 128 + (64 + (32 + (16 + 15))) from rfl, gexp_add, gexp_add, gexp_add, gexp_add, h16, h32, h64, h128]
  decide

theorem gexp_85_ne_one : gexp 85 ≠ 1 := by
  obtain ⟨h16, -, h64, -⟩ := gexp_squares
  rw [show 85 = 64 + (16 + 5) from rfl, gexp_add, gexp_add, h16, h64]
  decide

theorem gexp_51_ne_one : gexp 51 ≠ 1 := by
  obtain ⟨h16, h32, -, -⟩ := gexp_squares
  rw [show 51 = 32 + (16 + 3) from rfl, gexp_add, gexp_add, h16, h32]
  decide

theorem gexp_15_ne_one : gexp 15 ≠ 1 := by decide

theorem gexp_eq_iterate (k : Nat) : gexp k = gfF^[k] 1 := by
  induction k with
  | zero => rfl
  | succ k ih => rw [gexp_succ, ih, Function.iterate_succ_apply']

theorem isPeriodicPt_gfF_iff (k : Nat) : Function.IsPeriodicPt gfF k 1 ↔ gexp k = 1 := by
  rw [gexp_eq_iterate]
  rfl

/-- `alpha` has order 255: the order divides 255 = 3 * 5 * 17 and none of its quotients by a prime. -/
theorem minimalPeriod_gfF : Function.minimalPeriod gfF 1 = 255 := by
  have hdvd : Function.minimalPeriod gfF 1 ∣ 255 := ((isPeriodicPt_gfF_iff 255).mpr gexp_255).minimalPeriod_dvd
  have hproper (n : Nat) (hn : gexp n ≠ 1) : ¬ Function.minimalPeriod gfF 1 ∣ n := fun h =>
    hn ((isPeriodicPt_gfF_iff n).mp (Function.isPeriodicPt_iff_minimalPeriod_dvd.mpr h))
  have hcases : ∀ d ∈ Nat.divisors 255, d = 255 ∨ d ∣ 85 ∨ d ∣ 51 ∨ d ∣ 15 := by decide
  obtain h | h | h | h := hcases _ (Nat.mem_divisors.mpr ⟨hdvd, by decide⟩)
  · exact h
  · exact absurd h (hproper 85 gexp_85_ne_one)
  · exact absurd h (hproper 51 gexp_51_ne_one)
  · exact absurd h (hproper 15 gexp_15_ne_one)

theorem gexp_mod (k : Nat) : gexp (k % 255) = gexp k := by
  rw [gexp_eq_iterate, gexp_eq_iterate]
  exact ((isPeriodicPt_gfF_iff 255).mpr gexp_255).iterate_mod_apply k

theorem gexp_inj {j k : Nat} (hj : j < 255) (hk : k < 255) (h : gexp j = gexp k) : j = k := by
  rw [gexp_eq_iterate, gexp_eq_iterate] at h
  refine Function.iterate_injOn_Iio_minimalPeriod (f := gfF) (x := 1) ?_ ?_ h
  · rwa [minimalPeriod_gfF]
  · rwa [minimalPeriod_gfF]

/-- A power times the power that fills its exponent up to a multiple of 255. -/
theorem gmul_gexp_fill {k : Nat} (hk : k ≤ 255) : gmul (gexp k) (gexp ((255 - k) % 255)) = 1 := by
  rw [gexp_mod, ← gexp_add, Nat.add_sub_cancel' hk, gexp_255]

theorem gexp_ne_zero (k : Nat) : gexp k ≠ 0 := by
  intro h
  have hone := gmul_gexp_fill (Nat.mod_lt k (by decide : 255 > 0)).le
  rw [gexp_mod k, h, zero_gmul] at hone
  exact absurd hone (by decide)

/-- The 255 powers are all the bytes but 0, because they are 255 different ones. -/
theorem exists_gexp_eq {b : Byte} (hb : b ≠ 0) : ∃ k, k < 255 ∧ gexp k = b := by
  have hbytes (c : Byte) (hc : c ≠ 0) : c.toNat ∈ Finset.Ico 1 256 := by
    have hpos : c.toNat ≠ 0 := fun h => hc (BitVec.eq_of_toNat_eq h)
    rw [Finset.mem_Ico]
    omega
  have hsub : (Finset.range 255).image (fun k => (gexp k).toNat) ⊆ Finset.Ico 1 256 := by
    intro v hv
    obtain ⟨k, -, rfl⟩ := Finset.mem_image.mp hv
    exact hbytes _ (gexp_ne_zero k)
  have hcard : ((Finset.range 255).image fun k => (gexp k).toNat).card = 255 := by
    rw [Finset.card_image_of_injOn, Finset.card_range]
    intro j hj k hk h
    exact gexp_inj (Finset.mem_range.mp hj) (Finset.mem_range.mp hk) (BitVec.eq_of_toNat_eq h)
  have hall := Finset.eq_of_subset_of_card_le hsub (by rw [hcard, Nat.card_Ico])
  obtain ⟨k, hk, hkb⟩ := Finset.mem_image.mp (hall ▸ hbytes b hb)
  exact ⟨k, Finset.mem_range.mp hk, BitVec.eq_of_toNat_eq hkb⟩

/-- The search for a logarithm finds it among the powers it is given. -/
theorem glogFrom_spec {b : Byte} {n k m : Nat} (hkm : k ≤ m) (hmn : m < k + n) (hm : gexp m = b) :
    glogFrom b n k (gexp k) < k + n ∧ gexp (glogFrom b n k (gexp k)) = b := by
  induction n generalizing k with
  | zero => omega
  | succ n ih =>
    rw [glogFrom]
    split_ifs with hhere
    · exact ⟨by omega, hhere⟩
    · have hne : m ≠ k := by
        rintro rfl
        exact hhere hm
      rw [← gexp_succ]
      have hrest := ih (k := k + 1) (by omega) (by omega)
      rwa [Nat.add_assoc, Nat.add_comm 1 n] at hrest

theorem glog_spec {b : Byte} (hb : b ≠ 0) : glog b < 255 ∧ gexp (glog b) = b := by
  obtain ⟨m, hm, hexp⟩ := exists_gexp_eq hb
  have hfound := glogFrom_spec (n := 255) (Nat.zero_le m) (by omega) hexp
  rwa [Nat.zero_add] at hfound

/-! ### The quotient and the inverse (R123) -/

theorem gmul_gdiv (a : Byte) {b : Byte} (hb : b ≠ 0) : gmul (gdiv a b) b = a := by
  rw [gdiv]
  split_ifs with ha
  · rw [zero_gmul, ha]
  · obtain ⟨-, haexp⟩ := glog_spec ha
    obtain ⟨hblt, hbexp⟩ := glog_spec hb
    have hsum : glog a + 255 - glog b + glog b = glog a + 255 := by omega
    calc gmul (gexp ((glog a + 255 - glog b) % 255)) b
        = gmul (gexp (glog a + 255 - glog b)) (gexp (glog b)) := by rw [gexp_mod, hbexp]
      _ = gmul (gexp (glog a)) (gexp 255) := by rw [← gexp_add, hsum, gexp_add]
      _ = a := by rw [gexp_255, gmul_one, haexp]

theorem gmul_ginv {a : Byte} (ha : a ≠ 0) : gmul a (ginv a) = 1 := by
  rw [gmul_comm]
  exact gmul_gdiv 1 ha

theorem gmul_right_inj {a b c : Byte} (hc : c ≠ 0) : gmul a c = gmul b c ↔ a = b := by
  refine ⟨fun h => ?_, fun h => by rw [h]⟩
  rw [← gmul_one a, ← gmul_one b, ← gmul_ginv hc, ← gmul_assoc, ← gmul_assoc, h]

/-! ### The backward table (R122, C4) -/

/-- The backward table divides by `alpha + 1`: the search meets the quotient, and no other byte has that product. -/
theorem gfB_eq (y : Byte) : gfB y = gmul (ginv 0x03) y := by
  have hne : (0x03 : Byte) ≠ 0 := by decide
  have hprod : gmul 0x03 (gmul (ginv 0x03) y) = y := by rw [← gmul_assoc, gmul_ginv hne, one_gmul]
  have htest (i : Byte) : (i ^^^ gfF i == y) = true ↔ i = gmul (ginv 0x03) y := by
    rw [beq_iff_eq, ← three_gmul]
    nth_rw 1 [← hprod]
    rw [gmul_comm 0x03 i, gmul_comm 0x03, gmul_right_inj hne]
  rw [gfB]
  cases hfind : (List.range 256).find? fun n => BitVec.ofNat 8 n ^^^ gfF (BitVec.ofNat 8 n) == y with
  | none =>
    have hmissed := List.find?_eq_none.mp hfind (gmul (ginv 0x03) y).toNat (List.mem_range.mpr (BitVec.isLt _))
    rw [BitVec.ofNat_toNat, BitVec.setWidth_eq, htest] at hmissed
    exact absurd rfl hmissed
  | some n =>
    have hfound := List.find?_some hfind
    exact (htest _).mp hfound

theorem gfB_xor_gfF (i : Byte) : gfB (i ^^^ gfF i) = i := by
  rw [gfB_eq, ← three_gmul, ← gmul_assoc, gmul_comm (ginv 0x03), gmul_ginv (by decide), one_gmul]

theorem three_gmul_gfB (y : Byte) : gmul 0x03 (gfB y) = y := by
  rw [gfB_eq, ← gmul_assoc, gmul_ginv (by decide), one_gmul]

/-! ### The statements -/

/-- Settles O43: the forward table by cases of bit 7; the backward table because it divides by `alpha + 1`. -/
theorem gfTables : Obligations.GfTables := by
  unfold Obligations.GfTables
  have hentry (i y : Byte) (h : i ^^^ gfF i = y) : gfB y = i := h ▸ gfB_xor_gfF i
  exact ⟨gfF_toNat, gfB_xor_gfF, fun i => (three_gmul i).symm, three_gmul_gfB, hentry 0x00 _ (by decide),
    hentry 0x01 _ (by decide), hentry 0xF4 _ (by decide), hentry 0xF5 _ (by decide), hentry 0x55 _ (by decide)⟩

/-- Settles O44: the ring laws by induction over bytes, the generator by its order. -/
theorem gfIsAField : Obligations.GfIsAField := by
  unfold Obligations.GfIsAField
  exact ⟨gmul_comm, gmul_assoc, gmul_xor, gmul_one, two_gmul, fun _ => gmul_ginv, fun a _ => gmul_gdiv a, gexp_add,
    gexp_255, fun _ => glog_spec⟩

end Sys2Proof.Machine
end

section
/-! SUPPORT. The syndromes of a codeword and what they decide (spec 42_ecc_decode.md R172 to R177): the pair as a sum over
the symbols, the error locator, and the correction of one codeword. -/

namespace Sys2Proof.Machine

/-! ### Sums in GF(2^8) -/

/-- The exclusive-or of `f 0` to `f (n - 1)`. -/
def xorSum (f : Nat → Byte) (n : Nat) : Byte := (List.range n).foldl (fun acc k => acc ^^^ f k) 0

theorem xorSum_succ (f : Nat → Byte) (n : Nat) : xorSum f (n + 1) = xorSum f n ^^^ f n := by
  rw [xorSum, List.range_succ, List.foldl_append]
  rfl

theorem xorSum_congr {f g : Nat → Byte} {n : Nat} (h : ∀ k, k < n → f k = g k) : xorSum f n = xorSum g n := by
  induction n with
  | zero => rfl
  | succ n ih => rw [xorSum_succ, xorSum_succ, ih fun k hk => h k (by omega), h n (by omega)]

theorem xorSum_xor (f g : Nat → Byte) (n : Nat) : xorSum (fun k => f k ^^^ g k) n = xorSum f n ^^^ xorSum g n := by
  induction n with
  | zero => exact (byte_xor_zero 0).symm
  | succ n ih =>
    rw [xorSum_succ, xorSum_succ, xorSum_succ, ih]
    ac_rfl

theorem gfF_xorSum (f : Nat → Byte) (n : Nat) : gfF (xorSum f n) = xorSum (fun k => gfF (f k)) n := by
  induction n with
  | zero => exact gfF_zero
  | succ n ih => rw [xorSum_succ, xorSum_succ, gfF_xor, ih]

/-- A sum with one summand that is not 0. -/
theorem xorSum_single {f : Nat → Byte} {n k : Nat} (hk : k < n) (h : ∀ j, j ≠ k → f j = 0) : xorSum f n = f k := by
  have hbelow (m : Nat) (hm : m ≤ k) : xorSum f m = 0 := by
    induction m with
    | zero => rfl
    | succ m ih => rw [xorSum_succ, ih (by omega), h m (by omega), byte_xor_zero]
  induction n with
  | zero => omega
  | succ n ih =>
    rw [xorSum_succ]
    by_cases hkn : k = n
    · rw [← hkn, hbelow k le_rfl, byte_zero_xor]
    · rw [ih (by omega), h n (by omega), byte_xor_zero]

/-! ### The syndrome pair (R172) -/

/-- The symbol at place `k` of `n` times its power of `alpha`. -/
def weighted (n : Nat) (symbol : Nat → Byte) (k : Nat) : Byte := gmul (gexp (n - 1 - k)) (symbol k)

theorem weighted_succ {n k : Nat} (hk : k < n) (f : Nat → Byte) : weighted (n + 1) f k = gfF (weighted n f k) := by
  have hexp : n + 1 - 1 - k = n - 1 - k + 1 := by omega
  rw [weighted, weighted, hexp, gexp_succ, gfF_gmul]

theorem weighted_last (n : Nat) (f : Nat → Byte) : weighted (n + 1) f n = f n := by
  rw [weighted, Nat.add_sub_cancel, Nat.sub_self, gexp_zero, one_gmul]

theorem byteAt_append_left {a b : Bytes} {i : Nat} (hi : i < a.length) : byteAt (a ++ b) i = byteAt a i := by
  rw [byteAt_append, if_pos hi]

theorem byteAt_append_right {a b : Bytes} {i : Nat} (hi : a.length ≤ i) :
    byteAt (a ++ b) i = byteAt b (i - a.length) := by
  rw [byteAt_append, if_neg (by omega)]

theorem syndromes_append_singleton (cs : Bytes) (c : Byte) :
    syndromes (cs ++ [c]) = ((syndromes cs).1 ^^^ c, gfF (syndromes cs).2 ^^^ c) := by
  rw [syndromes, List.foldl_append]
  rfl

/-- Horner's rule: each symbol more multiplies the second sum by `alpha`. -/
theorem syndromes_eq_sums (cs : Bytes) :
    syndromes cs = (xorSum (byteAt cs) cs.length, xorSum (weighted cs.length (byteAt cs)) cs.length) := by
  induction cs using List.reverseRecOn with
  | nil => rfl
  | append_singleton cs c ih =>
    have hlast : byteAt (cs ++ [c]) cs.length = c := by
      rw [byteAt_append_right le_rfl, Nat.sub_self]
      rfl
    have hbefore (k : Nat) (hk : k < cs.length) : byteAt (cs ++ [c]) k = byteAt cs k := byteAt_append_left hk
    rw [syndromes_append_singleton, ih, List.length_append, List.length_singleton, xorSum_succ, xorSum_succ, hlast,
      weighted_last, hlast, xorSum_congr hbefore, gfF_xorSum]
    refine congrArg _ (congrArg (· ^^^ c) (xorSum_congr fun k hk => ?_))
    rw [weighted_succ hk, weighted, weighted, hbefore k hk]

/-- Settles O47: the two sums are those of Horner's rule. -/
theorem syndromesAreCheckEquations : Obligations.SyndromesAreCheckEquations := by
  unfold Obligations.SyndromesAreCheckEquations
  exact syndromes_eq_sums

theorem byteAt_set (b : Bytes) (k : Nat) (v : Byte) (i : Nat) (hi : i < b.length) :
    byteAt (b.set k v) i = if i = k then v else byteAt b i := by
  have hset : i < (b.set k v).length := by rwa [List.length_set]
  have hbyte (l : Bytes) (h : i < l.length) : byteAt l i = l[i] := by simp [byteAt, h]
  rw [hbyte _ hset, List.getElem_set, hbyte _ hi]
  by_cases h : k = i
  · rw [if_pos h, if_pos h.symm]
  · rw [if_neg h, if_neg fun h' => h h'.symm]

/-- The difference a wrong symbol makes: `e` at place `k`. -/
def errorAt (k : Nat) (e : Byte) (j : Nat) : Byte := if j = k then e else 0

theorem errorAt_self (k : Nat) (e : Byte) : errorAt k e k = e := if_pos rfl

theorem errorAt_of_ne {k j : Nat} (e : Byte) (h : j ≠ k) : errorAt k e j = 0 := if_neg h

theorem byteAt_damaged (cs : Bytes) (k : Nat) (e : Byte) {j : Nat} (hj : j < cs.length) :
    byteAt (cs.set k (byteAt cs k ^^^ e)) j = byteAt cs j ^^^ errorAt k e j := by
  rw [byteAt_set _ _ _ _ hj]
  by_cases hjk : j = k
  · rw [if_pos hjk, hjk, errorAt_self]
  · rw [if_neg hjk, errorAt_of_ne e hjk, byte_xor_zero]

theorem xorSum_errorAt {n k : Nat} (e : Byte) (hk : k < n) :
    xorSum (errorAt k e) n = e ∧ xorSum (weighted n (errorAt k e)) n = gmul (gexp (n - 1 - k)) e := by
  constructor
  · rw [xorSum_single hk fun j => errorAt_of_ne e, errorAt_self]
  · have hzero (j : Nat) (hj : j ≠ k) : weighted n (errorAt k e) j = 0 := by
      rw [weighted, errorAt_of_ne e hj, gmul_zero]
    rw [xorSum_single hk hzero, weighted, errorAt_self]

/-- A wrong symbol adds its error to the first syndrome and its weighted error to the second. -/
theorem syndromes_set {cs : Bytes} {k : Nat} (e : Byte) (hk : k < cs.length) :
    syndromes (cs.set k (byteAt cs k ^^^ e)) =
      ((syndromes cs).1 ^^^ e, (syndromes cs).2 ^^^ gmul (gexp (cs.length - 1 - k)) e) := by
  have hweighted (j : Nat) (hj : j < cs.length) :
      weighted cs.length (byteAt (cs.set k (byteAt cs k ^^^ e))) j =
        weighted cs.length (byteAt cs) j ^^^ weighted cs.length (errorAt k e) j := by
    rw [weighted, byteAt_damaged cs k e hj, gmul_xor]
    rfl
  obtain ⟨hfirst, hsecond⟩ := xorSum_errorAt e hk
  rw [syndromes_eq_sums, syndromes_eq_sums cs, List.length_set, xorSum_congr fun _ => byteAt_damaged cs k e,
    xorSum_congr hweighted, xorSum_xor, xorSum_xor, hfirst, hsecond]

/-! ### The error locator (R173, R174) -/

theorem byte_xor_eq_zero_iff (a b : Byte) : a ^^^ b = 0 ↔ a = b := BitVec.xor_eq_zero_iff

/-- The locator polynomial vanishes at the position whose power of `alpha` is the quotient of the syndromes. -/
theorem locator_vanishes_iff {s0 s1 : Byte} {n k : Nat} (h0 : s0 ≠ 0) (hn : n ≤ 255) (hk : k < n) :
    (1 ^^^ gmul (gdiv s1 s0) (inverseLocator n k) == 0) = true ↔ s1 = gmul (gexp (n - 1 - k)) s0 := by
  have hfill : gmul (gexp (n - 1 - k)) (inverseLocator n k) = 1 := gmul_gexp_fill (by omega)
  have hne : inverseLocator n k ≠ 0 := gexp_ne_zero _
  rw [beq_iff_eq, byte_xor_eq_zero_iff, ← hfill, gmul_right_inj hne, eq_comm, ← gmul_right_inj h0, gmul_gdiv s1 h0]

/-- At most one position of a codeword of at most 255 symbols has a given locator. -/
theorem locator_inj {s0 : Byte} {n j k : Nat} (h0 : s0 ≠ 0) (hn : n ≤ 255) (hj : j < n) (hk : k < n)
    (h : gmul (gexp (n - 1 - j)) s0 = gmul (gexp (n - 1 - k)) s0) : j = k := by
  rw [gmul_right_inj h0] at h
  have hexp := gexp_inj (by omega) (by omega) h
  omega

theorem locate_eq_some_iff {s0 s1 : Byte} {n k : Nat} (hn : n ≤ 255) : locate s0 s1 n = some k ↔
    s0 ≠ 0 ∧ s1 ≠ 0 ∧ k < n ∧ s1 = gmul (gexp (n - 1 - k)) s0 := by
  rw [locate]
  split_ifs with hzero
  · refine iff_of_false (by simp) ?_
    rintro ⟨h0, h1, -⟩
    exact hzero.elim h0 h1
  · rw [not_or] at hzero
    obtain ⟨h0, h1⟩ := hzero
    rw [List.find?_range_eq_some]
    constructor
    · rintro ⟨hvanish, hmem, -⟩
      have hk := List.mem_range.mp hmem
      exact ⟨h0, h1, hk, (locator_vanishes_iff h0 hn hk).mp hvanish⟩
    · rintro ⟨-, -, hk, hquot⟩
      refine ⟨(locator_vanishes_iff h0 hn hk).mpr hquot, List.mem_range.mpr hk, fun j hj => ?_⟩
      rw [Bool.not_eq_true', ← Bool.not_eq_true, locator_vanishes_iff h0 hn (by omega)]
      intro hquot'
      have := locator_inj h0 hn (by omega) hk (hquot'.symm.trans hquot)
      omega

theorem lt_of_locate {s0 s1 : Byte} {n k : Nat} (h : locate s0 s1 n = some k) : k < n := by
  rw [locate] at h
  split_ifs at h
  exact List.mem_range.mp (List.mem_of_find?_eq_some h)

/-! ### The verdict (R175) -/

theorem classify_eq_clean_iff (s : Byte × Byte) (n : Nat) : classify s n = .clean ↔ s = (0, 0) := by
  rw [classify]
  split_ifs with hs
  · exact iff_of_true rfl hs
  · exact iff_of_false (by cases locate s.1 s.2 n <;> simp) hs

theorem classify_eq_correctable_iff {s : Byte × Byte} {n k : Nat} {e : Byte} :
    classify s n = .correctable k e ↔ locate s.1 s.2 n = some k ∧ e = s.1 := by
  rw [classify]
  split_ifs with hs
  · rw [hs]
    simp [locate]
  · cases locate s.1 s.2 n <;> simp [eq_comm]

/-- The syndromes of a damaged clean codeword are the error's, and their locator is that of the damaged position. -/
theorem classify_damaged {cs : Bytes} {k : Nat} {e : Byte} (hlen : cs.length ≤ 255) (hk : k < cs.length) (he : e ≠ 0)
    (hclean : syndromes cs = (0, 0)) :
    syndromes (cs.set k (byteAt cs k ^^^ e)) = (e, gmul (gexp (cs.length - 1 - k)) e) ∧
    classify (syndromes (cs.set k (byteAt cs k ^^^ e))) cs.length = .correctable k e := by
  have hpair : syndromes (cs.set k (byteAt cs k ^^^ e)) = (e, gmul (gexp (cs.length - 1 - k)) e) := by
    rw [syndromes_set e hk, hclean, byte_zero_xor, byte_zero_xor]
  have hsecond : gmul (gexp (cs.length - 1 - k)) e ≠ 0 := by
    rw [← zero_gmul e, ne_eq, gmul_right_inj he]
    exact gexp_ne_zero _
  refine ⟨hpair, ?_⟩
  rw [hpair, classify_eq_correctable_iff, locate_eq_some_iff hlen]
  exact ⟨⟨he, hsecond, hk, rfl⟩, rfl⟩

/-- Settles O48: the one position whose locator is the quotient of the two syndromes. -/
theorem oneWrongSymbolIsLocated : Obligations.OneWrongSymbolIsLocated := by
  unfold Obligations.OneWrongSymbolIsLocated
  intro cs k e hlen hk he hclean
  exact classify_damaged hlen hk he hclean

/-! ### The correction of one codeword (R177) -/

section
variable {lock : Bool} {st : FixState} {pos : List Nat}

theorem fixCodeword_of_clean (h : classify (syndromes (symbols st.region pos)) pos.length = .clean) :
    fixCodeword lock st pos = st := by
  rw [fixCodeword, h]

theorem fixCodeword_of_uncorrectable
    (h : classify (syndromes (symbols st.region pos)) pos.length = .uncorrectable) :
    fixCodeword lock st pos = { st with bad := st.bad + 1 } := by
  rw [fixCodeword, h]

theorem fixCodeword_of_correctable {k p : Nat} {e : Byte} (hp : pos[k]? = some p)
    (h : classify (syndromes (symbols st.region pos)) pos.length = .correctable k e) :
    fixCodeword lock st pos =
      if lock = true ∧ p < 4 then { st with bad := st.bad + 1 }
      else { st with region := st.region.set p (byteAt st.region p ^^^ e), fixed := st.fixed + 1 } := by
  have hgetD : pos.getD k 0 = p := by rw [List.getD_eq_getElem?_getD, hp, Option.getD_some]
  rw [fixCodeword, h]
  simp only [hgetD]

end

/-- Settles O49: the verdict is decided by the locator; each verdict has its own equation of `fix_codeword`. -/
theorem verdictOfSyndromes : Obligations.VerdictOfSyndromes := by
  unfold Obligations.VerdictOfSyndromes
  refine ⟨fun s0 s1 n hn => ⟨?clean, fun k e => ?correctable⟩, ?fix⟩
  case clean => rw [classify_eq_clean_iff, Prod.mk.injEq]
  case correctable =>
    rw [classify_eq_correctable_iff, locate_eq_some_iff (by omega)]
    tauto
  case fix =>
    intro lock st pos verdict after givenUp
    refine ⟨fixCodeword_of_clean, fixCodeword_of_uncorrectable, fun k e hverdict => ?_⟩
    have hk : k < pos.length := lt_of_locate (classify_eq_correctable_iff.mp hverdict).1
    have hp : pos[k]? = some pos[k] := List.getElem?_eq_getElem hk
    have hafter : after = if lock = true ∧ pos[k] < 4 then givenUp
        else { st with region := st.region.set pos[k] (byteAt st.region pos[k] ^^^ e), fixed := st.fixed + 1 } :=
      fixCodeword_of_correctable hp hverdict
    refine ⟨pos[k], hp, fun hlock hheader => ?locked, fun hopen => ?fixed⟩
    case locked => exact hafter.trans (if_pos ⟨hlock, hheader⟩)
    case fixed =>
      have hfree : ¬ (lock = true ∧ pos[k] < 4) := by
        rintro ⟨hlock, hheader⟩
        rw [hlock] at hopen
        exact hopen.elim (by decide) (by omega)
      rw [if_neg hfree] at hafter
      refine ⟨by rw [hafter], by rw [hafter], length_fixCodeword lock st pos, fun i hi => ?_⟩
      rw [hafter, byteAt_set _ _ _ _ hi]
      split_ifs with hik
      · rw [hik]
      · rfl

end Sys2Proof.Machine
end

section
/-! SUPPORT. The CD EDC (spec 40_tables.md R124 to R126): one shift-step is linear, a step on a word that ends in a 0 bit
only shifts, and from both the laws of the whole register. -/

namespace Sys2Proof.Machine

/-! ### The shift-step (R124) -/

theorem word_xor_zero (a : Word) : a ^^^ 0 = a := BitVec.xor_zero

/-- The feedback of a shift-step. -/
def edcFeedback (p : Bool) : Word := if p then 0xD8018001 else 0

theorem edcStep_eq (e : Word) : edcStep e = (e >>> 1) ^^^ edcFeedback (e.getLsbD 0) := rfl

theorem edcFeedback_xor (p q : Bool) : edcFeedback (p ^^ q) = edcFeedback p ^^^ edcFeedback q := by
  cases p <;> cases q <;> decide

theorem edcStep_xor (a b : Word) : edcStep (a ^^^ b) = edcStep a ^^^ edcStep b := by
  rw [edcStep_eq, edcStep_eq, edcStep_eq, BitVec.getLsbD_xor, edcFeedback_xor, BitVec.ushiftRight_xor_distrib]
  ac_rfl

theorem times_edcStep_xor (n : Nat) (a b : Word) :
    times n edcStep (a ^^^ b) = times n edcStep a ^^^ times n edcStep b := by
  induction n generalizing a b with
  | zero => rfl
  | succ n ih => rw [times, times, times, edcStep_xor, ih]

theorem times_edcStep_zero (n : Nat) : times n edcStep 0 = 0 := by
  induction n with
  | zero => rfl
  | succ n ih =>
    rw [times, show edcStep 0 = 0 by decide]
    exact ih

/-- Bits that are 0 are shifted out without feedback. -/
theorem times_edcStep_of_low_zero {n : Nat} {e : Word} (h : ∀ j, j < n → e.getLsbD j = false) :
    times n edcStep e = e >>> n := by
  induction n generalizing e with
  | zero => rfl
  | succ n ih =>
    have hstep : edcStep e = e >>> 1 := by
      rw [edcStep_eq, h 0 (by omega)]
      exact word_xor_zero _
    have hlow (j : Nat) (hj : j < n) : (e >>> 1).getLsbD j = false := by
      rw [BitVec.getLsbD_ushiftRight]
      exact h _ (by omega)
    rw [times, hstep, ih hlow, ← BitVec.shiftRight_add, Nat.add_comm]

/-! ### One byte (R124, R125) -/

/-- A word is its upper three bytes and its lowest one. -/
theorem word_split (x : Word) : x = ((x >>> 8) <<< 8) ^^^ (x.setWidth 8).setWidth 32 := by
  apply BitVec.eq_of_getLsbD_eq
  intro i hi
  simp only [BitVec.getLsbD_xor, BitVec.getLsbD_shiftLeft, BitVec.getLsbD_ushiftRight, BitVec.getLsbD_setWidth]
  by_cases h : i < 8
  · simp [h, hi]
  · simp [h, hi, Nat.add_sub_cancel' (not_lt.mp h)]

/-- Eight steps on a word: its upper bytes move down, its lowest byte becomes its table entry. -/
theorem times_edcStep_eight (x : Word) : times 8 edcStep x = (x >>> 8) ^^^ edct (x.setWidth 8) := by
  have hlow (j : Nat) (hj : j < 8) : ((x >>> 8) <<< 8).getLsbD j = false := by simp [hj]
  have hback : ((x >>> 8) <<< 8) >>> 8 = x >>> 8 := by
    apply BitVec.eq_of_getLsbD_eq
    intro i hi
    simp only [BitVec.getLsbD_ushiftRight, BitVec.getLsbD_shiftLeft]
    by_cases h : 8 + i < 32
    · simp [h]
    · simp [h, BitVec.getLsbD_of_ge x (8 + i) (by omega)]
  conv_lhs => rw [word_split x]
  rw [times_edcStep_xor, times_edcStep_of_low_zero hlow, hback]
  rfl

/-- One byte is eight shift-steps (R124). -/
theorem edcCd_singleton (s : Word) (b : Byte) : edcCd s [b] = times 8 edcStep (s ^^^ b.setWidth 32) := by
  have hbyte : (b.setWidth 32 : Word) >>> 8 = 0 := by
    apply BitVec.eq_of_getLsbD_eq
    intro i _
    rw [BitVec.getLsbD_ushiftRight, BitVec.getLsbD_setWidth, BitVec.getLsbD_of_ge b (8 + i) (by omega), Bool.and_false]
    exact BitVec.getLsbD_zero.symm
  rw [times_edcStep_eight, BitVec.ushiftRight_xor_distrib, hbyte, word_xor_zero]
  rfl

/-! ### A byte sequence (R125, R126) -/

theorem edcCd_append (s : Word) (a b : Bytes) : edcCd s (a ++ b) = edcCd (edcCd s a) b := List.foldl_append

theorem edcCd_cons (s : Word) (x : Byte) (a : Bytes) :
    edcCd s (x :: a) = edcCd (times 8 edcStep (s ^^^ x.setWidth 32)) a := by
  rw [← edcCd_singleton]
  rfl

theorem edcCd_xor (s t : Word) (a b : Bytes) (h : a.length = b.length) :
    edcCd (s ^^^ t) (List.zipWith (· ^^^ ·) a b) = edcCd s a ^^^ edcCd t b := by
  induction a generalizing s t b with
  | nil =>
    rw [List.length_eq_zero_iff.mp h.symm]
    rfl
  | cons x a ih =>
    obtain ⟨y, b, rfl⟩ := List.exists_cons_of_length_eq_add_one h.symm
    have hfirst : s ^^^ t ^^^ (x ^^^ y).setWidth 32 = (s ^^^ x.setWidth 32) ^^^ (t ^^^ y.setWidth 32) := by
      rw [BitVec.setWidth_xor]
      ac_rfl
    rw [List.zipWith_cons_cons, edcCd_cons, edcCd_cons, edcCd_cons, hfirst, times_edcStep_xor]
    exact ih _ _ b (by simpa using h)

theorem edcCd_zeros (n : Nat) : edcCd 0 (List.replicate n 0) = 0 := by
  induction n with
  | zero => rfl
  | succ n ih =>
    have hzero : (0 : Word) ^^^ (0 : Byte).setWidth 32 = 0 := by decide
    rw [List.replicate_succ, edcCd_cons, hzero, times_edcStep_zero, ih]

/-- Settles O46: the laws of the register; the check value by running it. -/
theorem edcLaws : Obligations.EdcLaws := by
  unfold Obligations.EdcLaws
  exact ⟨edcCd_append, edcCd_xor, edcCd_zeros, edcCd_singleton, by decide⟩

/-! ### A field takes its own EDC away (R152) -/

/-- The lowest byte of the register is taken away by an equal byte. -/
theorem edcCd_own_byte (x : Word) : edcCd x [x.setWidth 8] = x >>> 8 := by
  have hlow (j : Nat) (hj : j < 8) : (x ^^^ (x.setWidth 8).setWidth 32).getLsbD j = false := by
    have hj' : j < 32 := by omega
    simp [hj, hj']
  have hshift : (x ^^^ (x.setWidth 8).setWidth 32) >>> 8 = x >>> 8 := by
    apply BitVec.eq_of_getLsbD_eq
    intro i hi
    simp
  rw [edcCd_singleton, times_edcStep_of_low_zero hlow, hshift]

theorem u32le_eq_shifts (e : Word) : u32le e =
    [(e >>> 0).setWidth 8] ++ [(e >>> 8).setWidth 8] ++ [(e >>> 16).setWidth 8] ++ [(e >>> 24).setWidth 8] := by
  have hfield (n : Nat) : e.extractLsb' n 8 = (e >>> n).setWidth 8 := by
    apply BitVec.eq_of_getLsbD_eq
    intro i hi
    simp [hi]
  rw [u32le, hfield, hfield, hfield, hfield]
  rfl

/-- The EDC over a sequence and its own field is 0: the field shifts the register out byte by byte. -/
theorem edcCd_field (e : Word) : edcCd e (u32le e) = 0 := by
  have hbyte (n : Nat) : edcCd (e >>> n) [(e >>> n).setWidth 8] = e >>> (n + 8) := by
    rw [edcCd_own_byte, BitVec.shiftRight_add]
  calc edcCd e (u32le e)
      = edcCd (edcCd (edcCd (edcCd (e >>> 0) [(e >>> 0).setWidth 8]) [(e >>> 8).setWidth 8]) [(e >>> 16).setWidth 8])
          [(e >>> 24).setWidth 8] := by
        rw [u32le_eq_shifts, edcCd_append, edcCd_append, edcCd_append, BitVec.ushiftRight_zero]
    _ = e >>> 32 := by rw [hbyte, hbyte, hbyte, hbyte]
    _ = 0 := BitVec.ushiftRight_eq_zero le_rfl

end Sys2Proof.Machine
end

section
/-! SUPPORT. What `RECC` guarantees of its output (spec 41_edc_ecc_encode.md R146 to R152): the parity routine makes
codewords whose syndromes are 0, and a second `RECC` finds everything it would write in its place. -/

namespace Sys2Proof.Machine

/-! ### A command whose effect is a result, and a second command on what it wrote -/

section
variable {i : Instr} {s t : State} {r : Result}

/-- A command with fitting ranges whose effect is a result ends as the result says. -/
theorem exec_ends (heffect : effect i s s.input = ⟨r, s.q, s.dvd⟩) (hnop : i ≠ .nop) (hdvdrst : i ≠ .dvdrst)
    (hfit : RangesFit s (outmax i s.len.toNat)) :
    ∃ t, exec i s = .next t ∧ Ends s t r.tag r.reason r.out r.res0 r.res1 r.res2 := by
  obtain ⟨t, hexec, -, hends⟩ := exec_result heffect hnop hdvdrst
  exact ⟨t, hexec, hends hfit⟩

theorem ends_of_exec (heffect : effect i s s.input = ⟨r, s.q, s.dvd⟩) (hnop : i ≠ .nop) (hdvdrst : i ≠ .dvdrst)
    (hfit : RangesFit s (outmax i s.len.toNat)) (hexec : exec i s = .next t) :
    Ends s t r.tag r.reason r.out r.res0 r.res1 r.res2 := by
  obtain ⟨t', hexec', hends⟩ := exec_ends heffect hnop hdvdrst hfit
  rw [hexec] at hexec'
  cases hexec'
  exact hends

end

/-- A state whose input is what a command has written, of the length of the command's own input. -/
structure ReadsBack (t u : State) : Prop where
  mem : u.mem = t.mem
  src : u.src = t.dst
  len : u.len = t.len

theorem ReadsBack.len_eq {s t u : State} {tag : Tag} {reason : Reason} {out : Bytes} {r0 r1 r2 : Word}
    (h : ReadsBack t u) (hends : Ends s t tag reason out r0 r1 r2) : u.len = s.len :=
  h.len.trans hends.operands.len

theorem ReadsBack.input_eq {s t u : State} {tag : Tag} {reason : Reason} {out : Bytes} {r0 r1 r2 : Word}
    (h : ReadsBack t u) (hends : Ends s t tag reason out r0 r1 r2) (hout : out.length = s.len.toNat) : u.input = out :=
  input_of_leaves hends.toLeaves h.mem h.src (by rw [h.len_eq hends, hout])

/-! ### The parity routine makes clean codewords (R146, R148) -/

/-- The accumulators of the parity routine after the symbols of a list (R146). -/
def accumulate (cs : Bytes) : Byte × Byte := cs.foldl (fun ab c => (gfF (ab.1 ^^^ c), ab.2 ^^^ c)) (0, 0)

/-- The region indices the parity routine visits from `start` on, `inc` apart, around a region of `size` bytes. -/
def walked (size inc n start : Nat) : List Nat := (List.range n).map fun i => (start + inc * i) % size

theorem walked_succ {size inc start : Nat} (n : Nat) (hstart : start < size) :
    walked size inc (n + 1) start = start :: walked size inc n ((start + inc) % size) := by
  have hnext (i : Nat) : (start + inc * (i + 1)) % size = ((start + inc) % size + inc * i) % size := by
    rw [Nat.mod_add_mod, Nat.mul_succ]
    congr 1
    omega
  rw [walked, List.range_succ_eq_map, List.map_cons, List.map_map, Nat.mul_zero, Nat.add_zero, Nat.mod_eq_of_lt hstart]
  exact congrArg _ (List.map_congr_left fun i _ => hnext i)

theorem parityWalk_eq_foldl (region : Bytes) {size inc : Nat} (hinc : inc ≤ size) (n : Nat) {start : Nat} (a b : Byte)
    (hstart : start < size) : parityWalk region size inc n start a b =
      (symbols region (walked size inc n start)).foldl (fun ab c => (gfF (ab.1 ^^^ c), ab.2 ^^^ c)) (a, b) := by
  induction n generalizing start a b with
  | zero => rfl
  | succ n ih =>
    have hnext : (if start + inc ≥ size then start + inc - size else start + inc) = (start + inc) % size := by
      split_ifs with hwrap
      · rw [Nat.mod_eq_sub_mod hwrap, Nat.mod_eq_of_lt (by omega)]
      · rw [Nat.mod_eq_of_lt (by omega)]
    rw [walked_succ n hstart, parityWalk, hnext, ih _ _ (Nat.mod_lt _ (by omega))]
    rfl

theorem accumulate_append_singleton (cs : Bytes) (c : Byte) :
    accumulate (cs ++ [c]) = (gfF ((accumulate cs).1 ^^^ c), (accumulate cs).2 ^^^ c) := by
  rw [accumulate, List.foldl_append]
  rfl

/-- The accumulators are the syndromes of the symbols so far, the second already multiplied by `alpha`. -/
theorem accumulate_eq_syndromes (cs : Bytes) : accumulate cs = (gfF (syndromes cs).2, (syndromes cs).1) := by
  induction cs using List.reverseRecOn with
  | nil => rfl
  | append_singleton cs c ih => rw [accumulate_append_singleton, syndromes_append_singleton, ih]

theorem xor_gfF_gfB (y : Byte) : gfB y ^^^ gfF (gfB y) = y := (three_gmul (gfB y)).symm.trans (three_gmul_gfB y)

/-- The two parity symbols make both syndromes 0. -/
theorem syndromes_with_parity (cs : Bytes) :
    syndromes (cs ++ [(parityPair (accumulate cs)).1, (parityPair (accumulate cs)).2]) = (0, 0) := by
  have hsplit (p q : Byte) : cs ++ [p, q] = cs ++ [p] ++ [q] := by simp
  have hback := xor_gfF_gfB (gfF (gfF (syndromes cs).2) ^^^ (syndromes cs).1)
  rw [hsplit, syndromes_append_singleton, syndromes_append_singleton, parityPair, accumulate_eq_syndromes,
    Prod.mk.injEq]
  dsimp only
  generalize gfB (gfF (gfF (syndromes cs).2) ^^^ (syndromes cs).1) = p at hback ⊢
  have hfirst : (syndromes cs).1 ^^^ p ^^^ (p ^^^ (syndromes cs).1) =
      ((syndromes cs).1 ^^^ (syndromes cs).1) ^^^ (p ^^^ p) := by ac_rfl
  have hsecond : gfF (gfF (syndromes cs).2) ^^^ gfF p ^^^ (p ^^^ (syndromes cs).1) =
      (p ^^^ gfF p) ^^^ (gfF (gfF (syndromes cs).2) ^^^ (syndromes cs).1) := by ac_rfl
  refine ⟨?_, ?_⟩
  · rw [hfirst, BitVec.xor_self, BitVec.xor_self]
    exact BitVec.xor_zero
  · rw [gfF_xor, hsecond, hback]
    exact BitVec.xor_self

theorem codewordParity_eq (region : Bytes) {mc nc mm mi j : Nat} (hinc : mi ≤ mc * nc)
    (hstart : (j >>> 1) * mm + (j &&& 1) < mc * nc) : codewordParity region mc nc mm mi j =
      parityPair (accumulate (symbols region (walked (mc * nc) mi nc ((j >>> 1) * mm + (j &&& 1))))) := by
  rw [codewordParity, parityWalk_eq_foldl region hinc nc 0 0 hstart]
  rfl

theorem byteAt_map_range {f : Nat → Byte} {n j : Nat} (hj : j < n) : byteAt ((List.range n).map f) j = f j := by
  simp [byteAt, hj]

/-- The parity of codeword `j`: the first byte at `j`, the second after all first ones (R146). -/
theorem byteAt_eccParity (region : Bytes) {mc nc mm mi j : Nat} (hj : j < mc) :
    byteAt (eccParity region mc nc mm mi) j = (codewordParity region mc nc mm mi j).1 ∧
    byteAt (eccParity region mc nc mm mi) (mc + j) = (codewordParity region mc nc mm mi j).2 := by
  have hlen (f : Nat → Byte) : ((List.range mc).map f).length = mc := by rw [List.length_map, List.length_range]
  constructor
  · rw [eccParity, byteAt_append_left (by rwa [hlen]), byteAt_map_range hj]
  · rw [eccParity, byteAt_append_right (by rw [hlen]; omega), hlen, Nat.add_sub_cancel_left, byteAt_map_range hj]

/-- Codeword `j` of a pass is clean in a region that holds the pass's own parity from `base` on. -/
theorem syndromes_codeword {region : Bytes} {mc nc mm mi base j : Nat} (hj : j < mc) (hinc : mi ≤ mc * nc)
    (hstart : (j >>> 1) * mm + (j &&& 1) < mc * nc)
    (hparity : ∀ i, i < 2 * mc → byteAt region (base + i) = byteAt (eccParity region mc nc mm mi) i) :
    syndromes (symbols region (walked (mc * nc) mi nc ((j >>> 1) * mm + (j &&& 1)) ++ [base + j, base + (mc + j)])) =
      (0, 0) := by
  obtain ⟨hfirst, hsecond⟩ := byteAt_eccParity region (nc := nc) (mm := mm) (mi := mi) hj
  rw [codewordParity_eq region hinc hstart] at hfirst hsecond
  have hsymbols : symbols region (walked (mc * nc) mi nc ((j >>> 1) * mm + (j &&& 1)) ++ [base + j, base + (mc + j)]) =
      symbols region (walked (mc * nc) mi nc ((j >>> 1) * mm + (j &&& 1))) ++
        [byteAt region (base + j), byteAt region (base + (mc + j))] := by
    rw [symbols, List.map_append]
    rfl
  rw [hsymbols, hparity j (by omega), hparity (mc + j) (by omega), hfirst, hsecond]
  exact syndromes_with_parity _

/-- The start of P codeword `j` is `j`. -/
theorem pStart_eq (j : Nat) : (j >>> 1) * 2 + (j &&& 1) = j := by
  rw [Nat.shiftRight_eq_div_pow, Nat.and_one_is_mod]
  omega

theorem qStart_lt {j : Nat} (hj : j < 52) : (j >>> 1) * 86 + (j &&& 1) < 52 * 43 := by
  rw [Nat.shiftRight_eq_div_pow, Nat.and_one_is_mod]
  omega

theorem ppos_eq_walked {j : Nat} (hj : j < 86) :
    ppos j = walked (86 * 24) 86 24 ((j >>> 1) * 2 + (j &&& 1)) ++ [2064 + j, 2064 + (86 + j)] := by
  have hinside (i : Nat) (hi : i < 24) : j + 86 * i = (j + 86 * i) % (86 * 24) := (Nat.mod_eq_of_lt (by omega)).symm
  rw [pStart_eq, ppos, walked, List.map_congr_left fun i hi => hinside i (List.mem_range.mp hi), ← Nat.add_assoc]

theorem qpos_eq_walked (j : Nat) :
    qpos j = walked (52 * 43) 88 43 ((j >>> 1) * 86 + (j &&& 1)) ++ [2236 + j, 2236 + (52 + j)] := by
  rw [qpos, walked, ← Nat.add_assoc]

/-- Every codeword of a region that holds its own P and Q parity is clean. -/
theorem clean_of_parity {region : Bytes} (hp : ∀ i, i < 172 → byteAt region (2064 + i) = byteAt (pParity region) i)
    (hq : ∀ i, i < 104 → byteAt region (2236 + i) = byteAt (qParity region) i) :
    ∀ pos ∈ allPositions, syndromes (symbols region pos) = (0, 0) := by
  intro pos hpos
  rw [allPositions, List.mem_append, List.mem_map, List.mem_map] at hpos
  obtain ⟨j, hj, rfl⟩ | ⟨j, hj, rfl⟩ := hpos
  · rw [List.mem_range] at hj
    rw [ppos_eq_walked hj]
    exact syndromes_codeword hj (by decide) (by rw [pStart_eq]; omega) hp
  · rw [List.mem_range] at hj
    rw [qpos_eq_walked j]
    exact syndromes_codeword hj (by decide) (qStart_lt hj) hq

/-! ### The codewords `RECC` writes (R149, R152 a) -/

/-- The working copy of `RECC` takes the header as zero for the mode whose region does (R149, R170). -/
def zeroHeader (tt : TrackType) : Bool := decide (tt = .mode2Form1)

theorem withParity_eq_eccWrite {tt : TrackType} (htt : tt = .mode1 ∨ tt = .mode2Form1) (sec : Bytes) :
    withParity tt sec = eccWrite sec (zeroHeader tt) := by
  obtain rfl | rfl := htt
  · rfl
  · rfl

section
variable {tt : TrackType} {sec : Bytes} (hlen : 2352 ≤ sec.length)
include hlen

/-- Of a sector that `RECC` has finished the region holds its own parity. -/
theorem byteAt_region_parity {i : Nat} :
    (i < 172 → byteAt (eccRegion tt (eccWrite sec (zeroHeader tt))) (2064 + i) =
      byteAt (pParity (eccRegion tt (eccWrite sec (zeroHeader tt)))) i) ∧
    (i < 104 → byteAt (eccRegion tt (eccWrite sec (zeroHeader tt))) (2236 + i) =
      byteAt (qParity (eccRegion tt (eccWrite sec (zeroHeader tt)))) i) := by
  have hout : 2352 ≤ (eccWrite sec (zeroHeader tt)).length := by rwa [length_eccWrite _ _ hlen]
  have hregion (hi k : Nat) (hk : k + 0x00C < hi) (hhi : hi ≤ 0x930) :
      byteAt (codedBytes (zeroHeader tt) (eccWrite sec (zeroHeader tt)) hi) k =
        byteAt (eccRegion tt (eccWrite sec (zeroHeader tt))) k := by
    rw [byteAt_codedBytes _ _ hk, byteAt_eccRegion tt _ hout k (by omega), zeroHeader]
    simp only [decide_eq_true_eq]
  have hself := byteAt_eccWrite_self hlen (zeroHeader tt)
  constructor
  · intro hi
    rw [byteAt_eccRegion tt _ hout _ (by omega), if_neg (by omega), hself, if_pos (by omega),
      pParity_congr _ _ fun k hk => hregion 0x81C k (by omega) (by omega),
      show 0x00C + (2064 + i) - 0x81C = i by omega]
  · intro hi
    rw [byteAt_eccRegion tt _ hout _ (by omega), if_neg (by omega), hself, if_neg (by omega), if_pos (by omega),
      qParity_congr _ _ fun k hk => hregion 0x8C8 k (by omega) (by omega),
      show 0x00C + (2236 + i) - 0x8C8 = i by omega]

theorem clean_eccWrite : ∀ pos ∈ allPositions,
    syndromes (symbols (eccRegion tt (eccWrite sec (zeroHeader tt))) pos) = (0, 0) :=
  clean_of_parity (fun _ => (byteAt_region_parity hlen).1) (fun _ => (byteAt_region_parity hlen).2)

end

theorem flatMap_zero_pairs (l : List (List Nat)) :
    l.flatMap (fun _ => [(0 : Byte), 0]) = List.replicate (2 * l.length) 0 := by
  induction l with
  | nil => rfl
  | cons _ l ih =>
    rw [List.flatMap_cons, ih, List.length_cons, Nat.mul_succ, Nat.add_comm, List.replicate_add]
    rfl

theorem length_allPositions : allPositions.length = 138 := by
  rw [allPositions, List.length_append, List.length_map, List.length_map, List.length_range, List.length_range]

/-- What `ECCSYN` makes of a sector all of whose codewords are clean. -/
theorem eccsynResult_of_clean {tt : TrackType} {src : Bytes} (hlen : sectorSize ≤ src.length) (htt : hasEcc tt = true)
    (hclean : ∀ pos ∈ allPositions, syndromes (symbols (eccRegion tt src) pos) = (0, 0)) :
    eccsynResult tt src = { tag := .computed, out := List.replicate 276 0 } := by
  have hbytes : syndromeBytes (eccRegion tt src) = List.replicate 276 0 := by
    rw [syndromeBytes, List.flatMap_congr (g := fun _ => [0, 0]) fun pos hpos => by rw [hclean pos hpos],
      flatMap_zero_pairs, length_allPositions]
  have hcount (codewords : List (List Nat)) (hsub : ∀ pos ∈ codewords, pos ∈ allPositions) :
      countDirty (eccRegion tt src) codewords = 0 := by
    rw [countDirty, List.length_eq_zero_iff, List.filter_eq_nil_iff]
    intro pos hpos
    simp [hclean pos (hsub pos hpos)]
  rw [eccsynResult_of_listed hlen htt, hbytes, hcount _ fun _ h => List.mem_append_left _ h,
    hcount _ fun _ h => List.mem_append_right _ h]
  rfl

/-- Settles O50: the sector `RECC` wrote is the one `ECCSYN` reads, and its codewords are clean. -/
theorem reccMakesCleanCodewords : Obligations.ReccMakesCleanCodewords := by
  unfold Obligations.ReccMakesCleanCodewords
  intro tt s t u htt hlen hfit hexec _ hmem hsrc hlenu hfitu
  have hends := ends_of_exec (i := .recc tt) (s := s) rfl (by simp) (by simp) hfit hexec
  have hback : ReadsBack t u := ⟨hmem, hsrc, hlenu⟩
  have hinput : u.input = (reccResult tt s.input).out :=
    hback.input_eq hends ((length_reccResult tt s.input).trans s.length_input)
  rw [← s.length_input] at hlen
  obtain ⟨lo, hi, hrange⟩ : ∃ lo hi, edcRange tt = some (lo, hi) := by
    obtain rfl | rfl := htt
    · exact ⟨_, _, rfl⟩
    · exact ⟨_, _, rfl⟩
  obtain ⟨out, hout, hresult, hlenout⟩ := reccResult_of_edc hlen hrange
  rw [hresult, hout, withParity_eq_eccWrite htt] at hinput
  dsimp only at hinput
  have hsec : 2352 ≤ (withEdc tt hi (edcCd 0 (slice s.input lo hi)) s.input).length := by
    rwa [length_withEdc _ _ _ _ hlen (edcRange_le hrange).2]
  have hclean := clean_eccWrite (tt := tt) hsec
  rw [← hinput] at hclean
  have hlenu' : sectorSize ≤ u.input.length := by
    rw [hinput, length_eccWrite _ _ hsec]
    exact hsec
  have hsyn := eccsynResult_of_clean hlenu' ((hasEcc_iff tt).mpr htt) hclean
  have hagain := exec_ends (i := .eccsyn tt) (s := u) (r := eccsynResult tt u.input) rfl (by simp) (by simp) hfitu
  rwa [hsyn] at hagain

/-! ### A second `RECC` (R152 b, c) -/

/-- Where an EDC field ends the parity has not begun. -/
theorem edcRange_below_parity {tt : TrackType} {lo hi : Nat} (h : edcRange tt = some (lo, hi)) :
    hi + 4 ≤ 0x81C ∨ tt = .mode2Form2 := by
  cases tt <;> simp [edcRange] at h <;> simp [← h.2]

theorem edcRange_mode1 {lo hi : Nat} (h : edcRange .mode1 = some (lo, hi)) : hi = 0x810 := by
  simp [edcRange] at h
  exact h.2.symm

section
variable {tt : TrackType} {sec : Bytes} (hlen : 2352 ≤ sec.length)
include hlen

theorem byteAt_withParity_below {k : Nat} (hk : k < 0x81C ∨ tt = .mode2Form2) :
    byteAt (withParity tt sec) k = byteAt sec k := by
  unfold withParity
  split_ifs with h1 h2
  · exact byteAt_eccWrite_below hlen _ (hk.resolve_right (by simp [h1]))
  · exact byteAt_eccWrite_below hlen _ (hk.resolve_right (by simp [h2]))
  · rfl

/-- The parity is a function of bytes that writing it leaves alone. -/
theorem eccWrite_twice (z : Bool) : eccWrite (eccWrite sec z) z = eccWrite sec z := by
  have hlen1 : (eccWrite sec z).length = sec.length := length_eccWrite _ _ hlen
  have hout : 2352 ≤ (eccWrite sec z).length := by rwa [hlen1]
  have hlen2 : (eccWrite (eccWrite sec z) z).length = sec.length := (length_eccWrite _ _ hout).trans hlen1
  have hp : pParity (parityRegion (eccWrite sec z) z) = pParity (parityRegion sec z) := by
    refine pParity_congr _ _ fun i hi => ?_
    rw [byteAt_parityRegion _ _ hout _ (by omega), byteAt_parityRegion _ _ hlen _ (by omega),
      byteAt_eccWrite_below hlen _ (by omega)]
  have hq : qParity (splice (parityRegion (eccWrite sec z) z) 2064 (pParity (parityRegion sec z))) =
      qParity (splice (parityRegion sec z) 2064 (pParity (parityRegion sec z))) := by
    have hfit (x : Bytes) (hx : 2352 ≤ x.length) (p : Bytes) (hplen : p.length = 172) :
        2064 + p.length ≤ (parityRegion x z).length := by rw [hplen, length_parityRegion _ _ hx]
    refine qParity_congr _ _ fun i hi => ?_
    by_cases hbelow : i < 2064
    · rw [byteAt_splice_outside (hfit _ hout _ (length_pParity _)) (.inl hbelow),
        byteAt_splice_outside (hfit _ hlen _ (length_pParity _)) (.inl hbelow), byteAt_parityRegion _ _ hout _ hi,
        byteAt_parityRegion _ _ hlen _ hi, byteAt_eccWrite_below hlen _ (by omega)]
    · rw [byteAt_splice_inside (hfit _ hout _ (length_pParity _)) (by omega) (by rw [length_pParity]; omega),
        byteAt_splice_inside (hfit _ hlen _ (length_pParity _)) (by omega) (by rw [length_pParity]; omega)]
  refine bytes_ext (hlen2.trans hlen1.symm) fun k _ => ?_
  rw [byteAt_eccWrite _ _ hout, hp, hq, byteAt_eccWrite _ _ hlen]
  split_ifs
  · rfl
  · rfl
  · rfl

theorem withParity_twice : withParity tt (withParity tt sec) = withParity tt sec := by
  by_cases htt : tt = .mode1 ∨ tt = .mode2Form1
  · rw [withParity_eq_eccWrite htt, withParity_eq_eccWrite htt, eccWrite_twice hlen]
  · have hnone (x : Bytes) : withParity tt x = x := by
      rw [withParity, if_neg fun h => htt (.inl h), if_neg fun h => htt (.inr h)]
    rw [hnone, hnone]

end

section
variable {tt : TrackType} {lo hi : Nat} {src : Bytes} (hrange : edcRange tt = some (lo, hi)) (hlen : 2352 ≤ src.length)
  (e : Word)
include hrange hlen

theorem length_sector_withEdc : (withEdc tt hi e src).length = src.length :=
  length_withEdc tt hi e src hlen (edcRange_le hrange).2

/-- Below its EDC field a finished sector has the bytes of the input. -/
theorem byteAt_finished_below {k : Nat} (hk : k < hi) :
    byteAt (withParity tt (withEdc tt hi e src)) k = byteAt src k := by
  have hsec : 2352 ≤ (withEdc tt hi e src).length := by rwa [length_sector_withEdc hrange hlen]
  have hbelow := edcRange_below_parity hrange
  rw [byteAt_withParity_below hsec (hbelow.imp_left fun h => by omega),
    byteAt_withEdc tt hi e src hlen (edcRange_le hrange).2, if_neg ?_, if_neg (by omega)]
  rintro ⟨rfl, hlo, -⟩
  have := edcRange_mode1 hrange
  omega

/-- In its EDC field a finished sector has the EDC. -/
theorem byteAt_finished_field {k : Nat} (hlo : hi ≤ k) (hhi : k < hi + 4) :
    byteAt (withParity tt (withEdc tt hi e src)) k = byteAt (u32le e) (k - hi) := by
  have hsec : 2352 ≤ (withEdc tt hi e src).length := by rwa [length_sector_withEdc hrange hlen]
  have hbelow := edcRange_below_parity hrange
  rw [byteAt_withParity_below hsec (hbelow.imp_left fun h => by omega),
    byteAt_withEdc tt hi e src hlen (edcRange_le hrange).2, if_neg ?_, if_pos ⟨hlo, hhi⟩]
  rintro ⟨rfl, hlo', -⟩
  have := edcRange_mode1 hrange
  omega

theorem length_finished : (withParity tt (withEdc tt hi e src)).length = src.length := by
  have hsec := length_sector_withEdc hrange hlen e
  rw [length_withParity _ _ (by omega), hsec]

theorem slice_finished : slice (withParity tt (withEdc tt hi e src)) lo hi = slice src lo hi := by
  refine bytes_ext (by simp [length_finished hrange hlen]) fun i hi' => ?_
  rw [length_slice] at hi'
  rw [byteAt_slice, byteAt_slice, if_pos (by omega), if_pos (by omega), byteAt_finished_below hrange hlen e (by omega)]

/-- The covered range with its field is the covered range of the input and the EDC. -/
theorem slice_finished_with_field :
    slice (withParity tt (withEdc tt hi e src)) lo (hi + 4) = slice src lo hi ++ u32le e := by
  obtain ⟨hle, hfits⟩ := edcRange_le hrange
  have hbefore : (slice src lo hi).length = hi - lo := by rw [length_slice]; omega
  have hsize : (slice (withParity tt (withEdc tt hi e src)) lo (hi + 4)).length = hi + 4 - lo := by
    rw [length_slice, length_finished hrange hlen]
    omega
  refine bytes_ext (by rw [hsize, List.length_append, hbefore, length_u32le]; omega) fun i hi' => ?_
  rw [hsize] at hi'
  rw [byteAt_slice, if_pos hi', byteAt_append, hbefore]
  split_ifs with h
  · rw [byteAt_finished_below hrange hlen e (by omega), byteAt_slice, if_pos h]
  · rw [byteAt_finished_field hrange hlen e (by omega) (by omega)]
    congr 1
    omega

/-- A finished sector has its EDC field and its reserved bytes already. -/
theorem withEdc_finished :
    withEdc tt hi e (withParity tt (withEdc tt hi e src)) = withParity tt (withEdc tt hi e src) := by
  have hfits := (edcRange_le hrange).2
  have hsec : 2352 ≤ (withEdc tt hi e src).length := by rwa [length_sector_withEdc hrange hlen]
  have hout := length_finished hrange hlen e
  refine bytes_ext (length_withEdc _ _ _ _ (by omega) hfits) fun k _ => ?_
  rw [byteAt_withEdc _ _ _ _ (by omega) hfits]
  split_ifs with hreserved hfield
  · rw [byteAt_withParity_below hsec (.inl (by omega)), byteAt_withEdc _ _ _ _ hlen hfits, if_pos hreserved]
  · rw [byteAt_finished_field hrange hlen e hfield.1 hfield.2]
  · rfl

end

/-- What a second `RECC` leaves: the sector and the EDC of the first. -/
theorem reccResult_of_finished {tt : TrackType} {lo hi : Nat} {src out : Bytes} (hlen : sectorSize ≤ src.length)
    (hrange : edcRange tt = some (lo, hi)) (hout : out = withParity tt (withEdc tt hi (edcCd 0 (slice src lo hi)) src)) :
    reccResult tt out = { tag := .transformed, out := out, res0 := edcCd 0 (slice src lo hi) } := by
  have hlenout : out.length = src.length := hout ▸ length_finished hrange hlen _
  have hsec := length_sector_withEdc hrange hlen (edcCd 0 (slice src lo hi))
  have hslice : slice out lo hi = slice src lo hi := hout ▸ slice_finished hrange hlen _
  obtain ⟨out', hout', hresult, -⟩ := reccResult_of_edc (src := out) (by omega) hrange
  have hsame : out' = out := by
    rw [hout', hslice, hout, withEdc_finished hrange hlen, withParity_twice (by rw [hsec]; exact hlen)]
  rw [hresult, hslice, hsame]

/-- Settles O51: the covered range and its field are kept by the parity, so that both passes of `RECC` agree. -/
theorem reccIsIdempotent : Obligations.ReccIsIdempotent := by
  unfold Obligations.ReccIsIdempotent
  intro tt s t u lo hi hrange hlen hfit hexec _ hmem hsrc hlenu hfitu
  have hends := ends_of_exec (i := .recc tt) (s := s) rfl (by simp) (by simp) hfit hexec
  have hback : ReadsBack t u := ⟨hmem, hsrc, hlenu⟩
  have hinput : u.input = (reccResult tt s.input).out :=
    hback.input_eq hends ((length_reccResult tt s.input).trans s.length_input)
  rw [← s.length_input] at hlen
  obtain ⟨out, hout, hresult, -⟩ := reccResult_of_edc hlen hrange
  rw [hresult] at hinput hends
  dsimp only at hinput
  have hres0 : t.res0 = edcCd 0 (slice s.input lo hi) := hends.res0
  have hsecond := reccResult_of_finished hlen hrange hout
  rw [← hinput] at hsecond hout
  constructor
  · rw [hout, slice_finished_with_field hrange hlen, edcCd_append, edcCd_field]
  · have hagain := exec_ends (i := .recc tt) (s := u) (r := reccResult tt u.input) rfl (by simp) (by simp) hfitu
    rwa [hsecond, ← hres0] at hagain

end Sys2Proof.Machine
end

section
/-! SUPPORT. The repair of one wrong byte (spec 42_ecc_decode.md R171, R177, R180, R181): the pass leaves a clean region
alone, and a region with one wrong byte as it is until the first codeword that holds the byte. -/

namespace Sys2Proof.Machine

/-! ### The codewords of the region (R171) -/

theorem mem_allPositions {pos : List Nat} :
    pos ∈ allPositions ↔ (∃ j, j < 86 ∧ ppos j = pos) ∨ ∃ j, j < 52 ∧ qpos j = pos := by
  simp only [allPositions, List.mem_append, List.mem_map, List.mem_range]

theorem mem_ppos {j k : Nat} : k ∈ ppos j ↔ (∃ i, i < 24 ∧ j + 86 * i = k) ∨ k = 2064 + j ∨ k = 2150 + j := by
  simp only [ppos, List.mem_append, List.mem_map, List.mem_range, List.mem_cons, List.not_mem_nil, or_false]

/-- Every byte of the region belongs to a codeword. -/
theorem exists_codeword {k : Nat} (hk : k < 2340) : ∃ pos ∈ allPositions, k ∈ pos := by
  have hp {j : Nat} (hj : j < 86) (hmem : k ∈ ppos j) : ∃ pos ∈ allPositions, k ∈ pos :=
    ⟨_, mem_allPositions.mpr (.inl ⟨j, hj, rfl⟩), hmem⟩
  have hq {j : Nat} (hj : j < 52) (hmem : k ∈ qpos j) : ∃ pos ∈ allPositions, k ∈ pos :=
    ⟨_, mem_allPositions.mpr (.inr ⟨j, hj, rfl⟩), hmem⟩
  obtain h | h | h | h | h : k < 2064 ∨ (2064 ≤ k ∧ k < 2150) ∨ (2150 ≤ k ∧ k < 2236) ∨ (2236 ≤ k ∧ k < 2288) ∨
      2288 ≤ k := by omega
  · exact hp (j := k % 86) (by omega) (mem_ppos.mpr (.inl ⟨k / 86, by omega, by omega⟩))
  · exact hp (j := k - 2064) (by omega) (mem_ppos.mpr (.inr (.inl (by omega))))
  · exact hp (j := k - 2150) (by omega) (mem_ppos.mpr (.inr (.inr (by omega))))
  · exact hq (j := k - 2236) (by omega) (List.mem_append_right _ (by simp; omega))
  · exact hq (j := k - 2288) (by omega) (List.mem_append_right _ (by simp; omega))

/-- A list of positions that keep apart, followed by two different ones above them. -/
theorem nodup_positions {n base a b : Nat} {f : Nat → Nat} (hf : ∀ i, i < n → f i < base)
    (hinj : ∀ i, i < n → ∀ i', i' < n → f i = f i' → i = i') (ha : base ≤ a) (hab : a < b) :
    ((List.range n).map f ++ [a, b]).Nodup := by
  rw [List.nodup_append]
  refine ⟨?_, by simp; omega, ?_⟩
  · rw [List.nodup_map_iff_inj_on List.nodup_range]
    exact fun i hi i' hi' => hinj i (List.mem_range.mp hi) i' (List.mem_range.mp hi')
  · intro p hp q hq
    obtain ⟨i, hi, rfl⟩ := List.mem_map.mp hp
    have hlt := hf i (List.mem_range.mp hi)
    simp only [List.mem_cons, List.not_mem_nil, or_false] at hq
    omega

theorem nodup_ppos {j : Nat} (hj : j < 86) : (ppos j).Nodup :=
  nodup_positions (base := 2064) (fun i hi => by omega) (fun i hi i' hi' h => by omega) (by omega) (by omega)

/-- The steps of 88 of a Q codeword do not meet within 43 of them, because 2236 is 4 * 13 * 43. -/
theorem nodup_qpos {j : Nat} (hj : j < 52) : (qpos j).Nodup :=
  nodup_positions (base := 2236) (fun _ _ => Nat.mod_lt _ (by decide)) (fun i hi i' hi' h => by omega) (by omega)
    (by omega)

theorem codeword_shape {pos : List Nat} (hpos : pos ∈ allPositions) : pos.Nodup ∧ pos.length ≤ 255 := by
  obtain ⟨j, hj, rfl⟩ | ⟨j, hj, rfl⟩ := mem_allPositions.mp hpos
  · exact ⟨nodup_ppos hj, by simp [ppos]⟩
  · exact ⟨nodup_qpos hj, by simp [qpos]⟩

/-! ### The symbols of a region with one wrong byte -/

theorem byteAt_set_of_ne (b : Bytes) {k i : Nat} (v : Byte) (h : i ≠ k) : byteAt (b.set k v) i = byteAt b i := by
  rw [byteAt, byteAt, List.getD_eq_getElem?_getD, List.getD_eq_getElem?_getD, List.getElem?_set_ne h.symm]

theorem symbols_set_of_not_mem (region : Bytes) {k : Nat} (v : Byte) {pos : List Nat} (h : k ∉ pos) :
    symbols (region.set k v) pos = symbols region pos :=
  List.map_congr_left fun _ hi => byteAt_set_of_ne region v fun hik => h (hik ▸ hi)

@[simp] theorem length_symbols (region : Bytes) (pos : List Nat) : (symbols region pos).length = pos.length :=
  List.length_map _

theorem byteAt_symbols (region : Bytes) {pos : List Nat} {j : Nat} (hj : j < pos.length) :
    byteAt (symbols region pos) j = byteAt region pos[j] := by
  simp [symbols, byteAt, hj]

/-- A wrong byte of the region is a wrong symbol of a codeword that holds it. -/
theorem symbols_set_of_mem {region : Bytes} {k : Nat} (v : Byte) {pos : List Nat} (hpos : pos.Nodup)
    (hk : k < region.length) {j : Nat} (hj : j < pos.length) (hjk : pos[j] = k) :
    symbols (region.set k v) pos = (symbols region pos).set j v := by
  refine bytes_ext (by simp) fun i hi => ?_
  rw [length_symbols] at hi
  rw [byteAt_symbols _ hi, byteAt_set (symbols region pos) _ _ _ (by rwa [length_symbols]), byteAt_symbols _ hi]
  by_cases hij : i = j
  · subst hij
    rw [if_pos rfl, hjk, byteAt_set _ _ _ _ hk, if_pos rfl]
  · rw [if_neg hij, byteAt_set_of_ne]
    rw [← hjk, ne_eq, hpos.getElem_inj_iff]
    exact hij

/-! ### The pass (R180) -/

section
variable {lock : Bool} {region : Bytes} {fixed bad : Nat}

theorem fixCodeword_of_syndromes_zero {pos : List Nat} (h : syndromes (symbols region pos) = (0, 0)) :
    fixCodeword lock ⟨region, fixed, bad⟩ pos = ⟨region, fixed, bad⟩ :=
  fixCodeword_of_clean ((classify_eq_clean_iff _ _).mpr h)

theorem foldl_fixCodeword_of_clean {l : List (List Nat)}
    (hclean : ∀ pos ∈ l, syndromes (symbols region pos) = (0, 0)) :
    l.foldl (fixCodeword lock) ⟨region, fixed, bad⟩ = ⟨region, fixed, bad⟩ := by
  induction l with
  | nil => rfl
  | cons pos l ih =>
    rw [List.foldl_cons, fixCodeword_of_syndromes_zero (hclean pos List.mem_cons_self)]
    exact ih fun p hp => hclean p (List.mem_cons_of_mem _ hp)

variable {k : Nat} {e : Byte}

theorem set_damaged_back (hk : k < region.length) : (region.set k (byteAt region k ^^^ e)).set k
    (byteAt (region.set k (byteAt region k ^^^ e)) k ^^^ e) = region := by
  have hback : byteAt (region.set k (byteAt region k ^^^ e)) k ^^^ e = byteAt region k := by
    rw [byteAt_set _ _ _ _ hk, if_pos rfl, BitVec.xor_assoc, BitVec.xor_self]
    exact BitVec.xor_zero
  rw [hback, List.set_set]
  refine bytes_ext (by simp) fun i hi => ?_
  rw [List.length_set] at hi
  rw [byteAt_set _ _ _ _ hi]
  split_ifs with hik
  · rw [hik]
  · rfl

variable (hk : k < region.length) (he : e ≠ 0) (hopen : lock = true → 4 ≤ k)
include hk he hopen

/-- A codeword that holds the wrong byte repairs it. -/
theorem fixCodeword_of_damaged {pos : List Nat} (hpos : pos.Nodup) (hlen : pos.length ≤ 255) (hmem : k ∈ pos)
    (hclean : syndromes (symbols region pos) = (0, 0)) :
    fixCodeword lock ⟨region.set k (byteAt region k ^^^ e), fixed, bad⟩ pos = ⟨region, fixed + 1, bad⟩ := by
  obtain ⟨j, hj, hjk⟩ := List.getElem_of_mem hmem
  have hj' : j < (symbols region pos).length := by rwa [length_symbols]
  have hsymbol : byteAt region k = byteAt (symbols region pos) j := by rw [byteAt_symbols _ hj, hjk]
  obtain ⟨-, hverdict⟩ := classify_damaged (by rwa [length_symbols]) hj' he hclean
  rw [← hsymbol, ← symbols_set_of_mem _ hpos hk hj hjk, length_symbols] at hverdict
  have hfree : ¬ (lock = true ∧ k < 4) := fun ⟨hlock, hheader⟩ => absurd (hopen hlock) (by omega)
  rw [fixCodeword_of_correctable (p := k) (by rw [List.getElem?_eq_getElem hj, hjk]) hverdict, if_neg hfree,
    set_damaged_back hk]

/-- A pass over clean codewords, one of which holds the wrong byte, repairs it and changes nothing else. -/
theorem foldl_fixCodeword_of_damaged {l : List (List Nat)} (hshape : ∀ pos ∈ l, pos.Nodup ∧ pos.length ≤ 255)
    (hclean : ∀ pos ∈ l, syndromes (symbols region pos) = (0, 0)) (hmem : ∃ pos ∈ l, k ∈ pos) :
    l.foldl (fixCodeword lock) ⟨region.set k (byteAt region k ^^^ e), fixed, bad⟩ = ⟨region, fixed + 1, bad⟩ := by
  induction l with
  | nil =>
    obtain ⟨_, hnil, _⟩ := hmem
    exact absurd hnil List.not_mem_nil
  | cons pos l ih =>
    obtain ⟨hpos, hlen⟩ := hshape pos List.mem_cons_self
    have hzero := hclean pos List.mem_cons_self
    have hclean' (p : List Nat) (hp : p ∈ l) := hclean p (List.mem_cons_of_mem _ hp)
    rw [List.foldl_cons]
    by_cases hhere : k ∈ pos
    · rw [fixCodeword_of_damaged hk he hopen hpos hlen hhere hzero, foldl_fixCodeword_of_clean hclean']
    · have hlater : ∃ p ∈ l, k ∈ p := by
        obtain ⟨p, hp, hkp⟩ := hmem
        obtain rfl | hp := List.mem_cons.mp hp
        · exact absurd hkp hhere
        · exact ⟨p, hp, hkp⟩
      rw [fixCodeword_of_syndromes_zero (by rwa [symbols_set_of_not_mem _ _ hhere])]
      exact ih (fun p hp => hshape p (List.mem_cons_of_mem _ hp)) hclean' hlater

end

/-! ### A sector with one wrong byte (R181) -/

/-- The first region byte the pass may change: a Mode2Form1 header is locked (R177). -/
def firstOpen (tt : TrackType) : Nat := if tt = .mode2Form1 then 4 else 0

section
variable {tt : TrackType} {g : Bytes} {k : Nat} (hlen : 2352 ≤ g.length) (hlo : firstOpen tt ≤ k) (hk : k < 2340)
  (e : Byte)
include hlen hlo hk

/-- The wrong byte of the sector is a wrong byte of its region. -/
theorem eccRegion_damaged : eccRegion tt (g.set (0x00C + k) (byteAt g (0x00C + k) ^^^ e)) =
    (eccRegion tt g).set k (byteAt (eccRegion tt g) k ^^^ e) := by
  have hset : 2352 ≤ (g.set (0x00C + k) (byteAt g (0x00C + k) ^^^ e)).length := by rwa [List.length_set]
  have hregion := length_eccRegion tt g hlen
  have hkept : ¬ (tt = .mode2Form1 ∧ k < 4) := by
    rintro ⟨rfl, hheader⟩
    simp [firstOpen] at hlo
    omega
  refine bytes_ext (by rw [length_eccRegion _ _ hset, List.length_set, hregion]) fun i hi => ?_
  rw [length_eccRegion _ _ hset] at hi
  rw [byteAt_eccRegion tt _ hset i hi]
  by_cases hik : i = k
  · subst hik
    rw [byteAt_set _ _ _ _ (by omega), byteAt_eccRegion tt g hlen i hi, if_neg hkept, if_neg hkept, if_pos rfl,
      byteAt_set _ _ _ _ (by omega), if_pos rfl]
  · rw [byteAt_set_of_ne _ _ hik, byteAt_eccRegion tt g hlen i hi, byteAt_set_of_ne _ _ (by omega)]

/-- The region of the good sector, written over the damaged one, gives the good sector back. -/
theorem withRegion_damaged :
    withRegion tt (g.set (0x00C + k) (byteAt g (0x00C + k) ^^^ e)) (eccRegion tt g) = g := by
  have hset : 2352 ≤ (g.set (0x00C + k) (byteAt g (0x00C + k) ^^^ e)).length := by rwa [List.length_set]
  have hregion := length_eccRegion tt g hlen
  refine bytes_ext (by rw [length_withRegion _ _ _ hset hregion, List.length_set]) fun i _ => ?_
  rw [byteAt_withRegion hset hregion]
  change (if 0x00C + firstOpen tt ≤ i ∧ i < 0x930 then _ else _) = _
  split_ifs with hinside
  · have hopen : ¬ (tt = .mode2Form1 ∧ i - 0x00C < 4) := by
      rintro ⟨rfl, hheader⟩
      simp [firstOpen] at hinside
      omega
    rw [byteAt_eccRegion tt g hlen _ (by omega), if_neg hopen, Nat.add_sub_cancel' (by omega)]
  · exact byteAt_set_of_ne _ _ (by omega)

end

/-- What `ECCFIX` makes of a sector with clean codewords in which one byte is wrong. -/
theorem eccfixResult_of_damaged {tt : TrackType} {g : Bytes} {k : Nat} {e : Byte} (htt : hasEcc tt = true)
    (hlen : sectorSize ≤ g.length)
    (hclean : ∀ pos ∈ allPositions, syndromes (symbols (eccRegion tt g) pos) = (0, 0))
    (hlo : firstOpen tt ≤ k) (hk : k < 2340) (he : e ≠ 0) :
    eccfixResult tt (g.set (0x00C + k) (byteAt g (0x00C + k) ^^^ e)) =
      { tag := .transformed, out := g, res0 := 1, res1 := 0 } := by
  have hset : sectorSize ≤ (g.set (0x00C + k) (byteAt g (0x00C + k) ^^^ e)).length := by rwa [List.length_set]
  have hopen : decide (tt = .mode2Form1) = true → 4 ≤ k := by
    intro hlock
    rw [decide_eq_true_eq] at hlock
    rwa [firstOpen, if_pos hlock] at hlo
  have hpass : sectorPass tt (g.set (0x00C + k) (byteAt g (0x00C + k) ^^^ e)) = ⟨eccRegion tt g, 1, 0⟩ := by
    rw [sectorPass, fixPass, eccRegion_damaged hlen hlo hk e]
    exact foldl_fixCodeword_of_damaged (by rwa [length_eccRegion tt g hlen]) he hopen (fun pos => codeword_shape)
      hclean (exists_codeword hk)
  rw [eccfixResult_of_fixed hset htt (by rw [hpass]; exact Nat.one_ne_zero), hpass, withRegion_damaged hlen hlo hk e]
  rfl

/-- Settles O52: the pass repairs the region, and the region is written back over the sector. -/
theorem eccfixRepairsOneByte : Obligations.EccfixRepairsOneByte := by
  unfold Obligations.EccfixRepairsOneByte
  intro tt s g k e htt hfit hlen hg hclean hlo hk he hinput
  have hends := exec_ends (i := .eccfix tt) (s := s) (r := eccfixResult tt s.input) rfl (by simp) (by simp) hfit
  rwa [hinput, eccfixResult_of_damaged ((hasEcc_iff tt).mpr htt) (by rwa [← hg] at hlen) hclean hlo hk he] at hends

end Sys2Proof.Machine
end

section
/-! SUPPORT. The scramblers (spec 43_cd_scrambler.md R191 to R194, 44_dvd_descrambler.md R201 to R220): both are an
exclusive-or that undoes itself; the bits of the LFSR; and the first candidate of a search that verifies. -/

namespace Sys2Proof.Machine

/-! ### The CD scrambler twice (R194) -/

/-- An admissible table leaves the sync mark alone (R192). -/
theorem take_scrambleTable {c : Config} (h : c.scrambleOk = true) :
    (scrambleTable c).take 12 = List.replicate 12 0 := by
  cases htable : c.scramble with
  | standard =>
    rw [scrambleTable, htable]
    exact List.take_left' List.length_replicate
  | other table =>
    have hadmissible : table.length = 2352 ∧ table.take 12 = List.replicate 12 0 := by
      simpa [Config.scrambleOk, htable, Param.admissible] using h
    rw [scrambleTable, htable]
    exact hadmissible.2

theorem take_cdScramble {table src : Bytes} (hlen : 2352 ≤ src.length) (htable : table.take 12 = List.replicate 12 0) :
    (cdScramble table src).take 12 = src.take 12 := by
  refine bytes_ext (by simp) fun k hk => ?_
  have hk12 : k < 12 := by
    rw [List.length_take] at hk
    omega
  have hzero : byteAt table k = 0 := by
    have hbyte := congrArg (byteAt · k) htable
    simpa only [byteAt_take, byteAt_replicate, if_pos hk12] using hbyte
  rw [byteAt_take, byteAt_take, if_pos hk12, if_pos hk12, byteAt_cdScramble (by omega), if_pos (by omega), hzero,
    byte_xor_zero]

theorem cdScramble_twice (table src : Bytes) : cdScramble table (cdScramble table src) = src := xorPrefix_twice _ _

theorem statusOutcome_of_leaves {s t : State} {tag : Tag} {reason : Reason} {out : Bytes} {r0 r1 r2 : Word}
    (h : Leaves s t tag reason out r0 r1 r2) : statusOutcome t.status = tag.code := by
  rw [h.status]
  exact (statusWord_fields tag reason 0 (opcField s.cmd)).1

/-- Settles O53: the sync mark is still there for the second `CDSCR`, which exclusive-ors the same table. -/
theorem cdscrIsSelfInverse : Obligations.CdscrIsSelfInverse := by
  unfold Obligations.CdscrIsSelfInverse
  intro s t u hscramble hlen hfit hsync hexec hcfg hmem hsrc hlenu hfitu
  have hends := ends_of_exec (i := .cdscr) (s := s) rfl (by decide) (by decide) hfit hexec
  have hback : ReadsBack t u := ⟨hmem, hsrc, hlenu⟩
  have hinput := hback.input_eq hends ((length_cdscrResult _ s.input).trans s.length_input)
  rw [← s.length_input] at hlen
  rw [cdscrResult_of_sync hlen hsync] at hends hinput
  dsimp only at hinput
  have hlen' : sectorSize ≤ u.input.length := by rwa [hinput, length_cdScramble]
  have hsync' : u.input.take 12 = sync := by rw [hinput, take_cdScramble hlen (take_scrambleTable hscramble), hsync]
  have hagain := exec_ends (i := .cdscr) (s := u) rfl (by decide) (by decide) hfitu
  rw [cdscrResult_of_sync hlen' hsync', hcfg, hends.operands.cfg] at hagain
  rw [hinput, cdScramble_twice] at hagain
  exact ⟨statusOutcome_of_leaves hends.toLeaves, hagain⟩

/-! ### The LFSR (R201, R202) -/

theorem lfsrNext_eq (st : Seed) :
    lfsrNext st = (st <<< 1) ||| (if st.getLsbD 14 != st.getLsbD 10 then 1 else 0) := by
  rw [lfsrNext]
  cases st.getLsbD 14 <;> cases st.getLsbD 10 <;> rfl

/-- A tick moves every bit one place up. -/
theorem getLsbD_lfsrNext (st : Seed) {j : Nat} (hj : j + 1 < 15) : (lfsrNext st).getLsbD (j + 1) = st.getLsbD j := by
  have hbit (p : Bool) : ((BitVec.ofBool p).setWidth 15).getLsbD (j + 1) = false := by cases p <;> simp
  rw [lfsrNext, BitVec.getLsbD_or, hbit, Bool.or_false, BitVec.getLsbD_shiftLeft]
  simp [hj]

theorem getLsbD_times_lfsrNext (st : Seed) {n j : Nat} (hj : n + j < 15) :
    (times n lfsrNext st).getLsbD (n + j) = st.getLsbD j := by
  induction n with
  | zero => rw [Nat.zero_add, times]
  | succ n ih =>
    rw [times_succ_apply, Nat.add_right_comm, getLsbD_lfsrNext _ (by omega)]
    exact ih (by omega)

/-- The output bit after `b` ticks. -/
theorem lfsrOut_times (st : Seed) {b : Nat} (hb : b < 15) : lfsrOut (times b lfsrNext st) = st.getLsbD (14 - b) := by
  have hbit := getLsbD_times_lfsrNext st (n := b) (j := 14 - b) (by omega)
  rwa [Nat.add_sub_cancel' (by omega)] at hbit

theorem lfsrBits_fst (n : Nat) (st : Seed) (v : Byte) : (lfsrBits n st v).1 = times n lfsrNext st := by
  induction n generalizing st v with
  | zero => rfl
  | succ n ih => exact ih _ _

/-- The bits of a byte with one output bit shifted in. -/
theorem getLsbD_shiftIn (v : Byte) (p : Bool) :
    ((v <<< 1) ||| (BitVec.ofBool p).setWidth 8).getLsbD 0 = p ∧
    ∀ i, i + 1 < 8 → ((v <<< 1) ||| (BitVec.ofBool p).setWidth 8).getLsbD (i + 1) = v.getLsbD i := by
  constructor
  · cases p <;> simp
  · intro i hi
    have hbit : ((BitVec.ofBool p).setWidth 8).getLsbD (i + 1) = false := by cases p <;> simp
    rw [BitVec.getLsbD_or, hbit, Bool.or_false, BitVec.getLsbD_shiftLeft]
    simp [hi]

/-- `n` ticks leave their output bits in the low `n` bits, the first uppermost, and move the other bits up. -/
theorem getLsbD_lfsrBits (n : Nat) (st : Seed) (v : Byte) {i : Nat} (hi : i < 8) : (lfsrBits n st v).2.getLsbD i =
    if i < n then lfsrOut (times (n - 1 - i) lfsrNext st) else v.getLsbD (i - n) := by
  induction n generalizing st v with
  | zero => rfl
  | succ n ih =>
    obtain ⟨hlow, hhigh⟩ := getLsbD_shiftIn v (lfsrOut st)
    have hstep : lfsrBits (n + 1) st v =
        lfsrBits n (lfsrNext st) ((v <<< 1) ||| (BitVec.ofBool (lfsrOut st)).setWidth 8) := rfl
    rw [hstep, ih]
    obtain h | rfl | h : i < n ∨ i = n ∨ n < i := by omega
    · rw [if_pos h, if_pos (by omega), show n + 1 - 1 - i = (n - 1 - i) + 1 by omega, times]
    · rw [if_neg (lt_irrefl _), if_pos (by omega), Nat.sub_self, hlow, Nat.add_sub_cancel, Nat.sub_self, times]
    · rw [if_neg (by omega), if_neg (by omega), show i - n = (i - (n + 1)) + 1 by omega, hhigh _ (by omega)]

theorem lfsrByte_fst (st : Seed) : (lfsrByte st).1 = times 8 lfsrNext st := lfsrBits_fst 8 st 0

theorem getLsbD_lfsrByte (st : Seed) {b : Nat} (hb : b < 8) :
    (lfsrByte st).2.getLsbD (7 - b) = lfsrOut (times b lfsrNext st) := by
  rw [lfsrByte, getLsbD_lfsrBits 8 st 0 (by omega), if_pos (by omega), show 8 - 1 - (7 - b) = b by omega]

/-- A keystream byte is bits 14 to 7 of the register. -/
theorem lfsrByte_snd (st : Seed) : (lfsrByte st).2 = st.extractLsb' 7 8 := by
  apply BitVec.eq_of_getLsbD_eq
  intro i hi
  have hbit := getLsbD_lfsrByte st (b := 7 - i) (by omega)
  rw [show 7 - (7 - i) = i by omega, lfsrOut_times st (by omega), show 14 - (7 - i) = 7 + i by omega] at hbit
  rw [hbit, BitVec.getLsbD_extractLsb', decide_eq_true hi, Bool.true_and]

/-! ### The keystream (R203) -/

theorem byteAt_keystreamFrom {n k : Nat} (hk : k < n) (st : Seed) :
    byteAt (keystreamFrom n st) k = (lfsrByte (times k (fun st => (lfsrByte st).1) st)).2 := by
  induction n generalizing st k with
  | zero => omega
  | succ n ih =>
    cases k with
    | zero => rfl
    | succ k => exact ih (by omega) _

theorem keystreamFrom_zero (n : Nat) : keystreamFrom n 0 = List.replicate n 0 := by
  induction n with
  | zero => rfl
  | succ n ih =>
    have hbyte : lfsrByte 0 = (0, 0) := by decide
    rw [keystreamFrom, hbyte, ih, List.replicate_succ]

/-- The first two bytes of a keystream show all fifteen bits of its seed. -/
theorem keystream_injective {x y : Seed} (h : keystream x = keystream y) : x = y := by
  have hfirst (z : Seed) : byteAt (keystream z) 0 = z.extractLsb' 7 8 :=
    (byteAt_keystreamFrom (by decide) z).trans (lfsrByte_snd z)
  have hsecond (z : Seed) : byteAt (keystream z) 1 = (times 8 lfsrNext z).extractLsb' 7 8 := by
    rw [keystream, byteAt_keystreamFrom (by decide), lfsrByte_snd]
    exact congrArg _ (lfsrByte_fst z)
  have hupper := congrArg (byteAt · 0) h
  have hlower := congrArg (byteAt · 1) h
  simp only [hfirst] at hupper
  simp only [hsecond] at hlower
  apply BitVec.eq_of_getLsbD_eq
  intro i hi
  by_cases hi7 : 7 ≤ i
  · have hbit := congrArg (·.getLsbD (i - 7)) hupper
    simpa [BitVec.getLsbD_extractLsb', show i - 7 < 8 by omega, Nat.add_sub_cancel' hi7] using hbit
  · have hbit := congrArg (·.getLsbD (i + 1)) hlower
    simp only [BitVec.getLsbD_extractLsb', show i + 1 < 8 by omega, decide_true, Bool.true_and] at hbit
    rwa [show 7 + (i + 1) = 8 + i by omega, getLsbD_times_lfsrNext x (by omega),
      getLsbD_times_lfsrNext y (by omega)] at hbit

theorem dvdApply_twice {sec k : Bytes} (hk : k.length = 2048) : dvdApply (dvdApply sec k) k = sec := by
  refine bytes_ext (by simp) fun i hi => ?_
  rw [length_dvdApply, length_dvdApply] at hi
  rw [byteAt_dvdApply _ _ hk _ (by rwa [length_dvdApply]), byteAt_dvdApply _ _ hk _ hi]
  split_ifs
  · rw [BitVec.xor_assoc, BitVec.xor_self]
    exact byte_xor_zero _
  · rfl

/-- Settles O54: every output bit is a bit of the register some ticks before. -/
theorem keystreamLaws : Obligations.KeystreamLaws := by
  unfold Obligations.KeystreamLaws
  refine ⟨fun st => ?tick, fun st => ⟨lfsrByte_fst st, lfsrByte_snd st, fun b hb => getLsbD_lfsrByte st hb⟩,
    length_keystream, fun x k hk => byteAt_keystreamFrom hk x, keystreamFrom_zero 2048, fun x y => keystream_injective,
    fun sec x _ => dvdApply_twice (length_keystream x)⟩
  case tick => rw [lfsrTick, lfsrNext_eq, lfsrOut]

/-! ### The search (R206, R208, R210) -/

/-- A found seed is the first of the list that verifies. -/
theorem tryCandidates_found {c : Config} {sec : Bytes} {l : List (Stage × Seed)} {m n : Nat} {x : Seed} {g : Stage}
    (h : tryCandidates c sec m l = .found x n g) : ∃ j, n = m + j + 1 ∧ l[j]? = some (g, x) ∧ verify c sec x = true ∧
      ∀ k, k < j → ∀ p, l[k]? = some p → verify c sec p.2 = false := by
  induction l generalizing m with
  | nil => cases h
  | cons q l ih =>
    obtain ⟨g', y⟩ := q
    rw [tryCandidates] at h
    split_ifs at h with hverify
    · cases h
      exact ⟨0, rfl, rfl, hverify, fun k hk => absurd hk (Nat.not_lt_zero k)⟩
    · obtain ⟨j, rfl, hj, hx, hbefore⟩ := ih h
      refine ⟨j + 1, by omega, hj, hx, fun k hk p hp => ?_⟩
      cases k with
      | zero =>
        cases hp
        exact Bool.eq_false_of_not_eq_true hverify
      | succ k => exact hbefore k (by omega) p hp

/-- No seed is found when all of the list have failed. -/
theorem tryCandidates_eq_notFound {c : Config} {sec : Bytes} {l : List (Stage × Seed)} {m n : Nat}
    (h : tryCandidates c sec m l = .notFound n) : n = m + l.length ∧ ∀ p ∈ l, verify c sec p.2 = false := by
  induction l generalizing m with
  | nil =>
    cases h
    exact ⟨rfl, fun _ hp => absurd hp List.not_mem_nil⟩
  | cons q l ih =>
    obtain ⟨g, y⟩ := q
    rw [tryCandidates] at h
    split_ifs at h with hverify
    obtain ⟨hn, hall⟩ := ih h
    refine ⟨by rw [hn, List.length_cons]; omega, fun p hp => ?_⟩
    obtain rfl | hp := List.mem_cons.mp hp
    · exact Bool.eq_false_of_not_eq_true hverify
    · exact hall p hp

theorem length_ecmaSeeds {c : Config} (h : c.ecmaSeedsOk = true) : (ecmaSeeds c).length = 16 := by
  cases hseeds : c.ecmaSeeds with
  | standard =>
    rw [ecmaSeeds, hseeds]
    rfl
  | other l =>
    rw [ecmaSeeds, hseeds]
    simpa [Config.ecmaSeedsOk, hseeds, Param.admissible] using h

theorem length_candidates {c : Config} (d : DvdInstance) (h : c.ecmaSeedsOk = true) :
    (candidates c d).length = (if d.last.isSome then 1 else 0) + d.cache.length + 16 + 32768 := by
  have hhint : d.last.toList.length = if d.last.isSome then 1 else 0 := by cases d.last <;> rfl
  simp only [candidates, List.length_append, List.length_map, hhint, (cacheOrder_perm c d.cache).length_eq,
    length_ecmaSeeds h, seedsFrom_eq_map, List.length_range']

/-- The last stage tries every seed. -/
theorem exhaustive_mem_candidates (c : Config) (d : DvdInstance) (x : Seed) : (Stage.exhaustive, x) ∈ candidates c d := by
  have hseed : x ∈ seedsFrom 32768 0 := by
    rw [seedsFrom_eq_map, List.mem_map]
    exact ⟨x.toNat, List.mem_range'_1.mpr ⟨Nat.zero_le _, by have := x.isLt; omega⟩, by simp⟩
  exact List.mem_append_right _ (List.mem_map_of_mem hseed)

theorem search_notFound {c : Config} {d : DvdInstance} {sec : Bytes} {n : Nat} (h : search c d sec = .notFound n) :
    n = (candidates c d).length ∧ ∀ x : Seed, verify c sec x = false := by
  obtain ⟨hn, hall⟩ := tryCandidates_eq_notFound h
  rw [Nat.zero_add] at hn
  exact ⟨hn, fun x => hall (.exhaustive, x) (exhaustive_mem_candidates c d x)⟩

theorem search_found_of_verify {c : Config} {sec : Bytes} {x : Seed} (d : DvdInstance) (h : verify c sec x = true) :
    ∃ y n g, search c d sec = .found y n g := by
  cases hsearch : search c d sec with
  | found y n g => exact ⟨y, n, g, rfl⟩
  | notFound n =>
    have hnone := (search_notFound hsearch).2 x
    rw [h] at hnone
    cases hnone

theorem verify_of_found {c : Config} {d : DvdInstance} {sec : Bytes} {x : Seed} {n : Nat} {g : Stage}
    (h : search c d sec = .found x n g) : verify c sec x = true := by
  obtain ⟨_, _, _, hverify, _⟩ := tryCandidates_found h
  exact hverify

/-- Settles O55: the search stops at the first candidate that verifies, and the exhaustive stage leaves no seed out. -/
theorem searchIsFirstVerifying : Obligations.SearchIsFirstVerifying := by
  unfold Obligations.SearchIsFirstVerifying
  intro c d sec hecma
  refine ⟨fun hlen x => verify_eq_true_iff hlen, fun x n g hfound => ?found, fun n hmissed => ?missed,
    fun ⟨x, hx⟩ => search_found_of_verify d hx⟩
  case found =>
    obtain ⟨j, rfl, hj, hverify, hbefore⟩ := tryCandidates_found hfound
    rw [Nat.zero_add, Nat.add_sub_cancel]
    exact ⟨by omega, hj, hverify, hbefore⟩
  case missed =>
    obtain ⟨hn, hall⟩ := search_notFound hmissed
    exact ⟨hn.trans (length_candidates d hecma), hall⟩

/-! ### `DVDSCR` on a scrambled sector (R220) -/

/-- A plain sector with a right EDC, scrambled with a seed, verifies with that seed: the keystream does not reach the
EDC field. -/
theorem verify_scrambled {c : Config} {plain : Bytes} (x : Seed) (hlen : plain.length = 2064)
    (hedc : dvdEdc c (plain.take 2060) = dvdEdcField plain) : verify c (dvdApply plain (keystream x)) x = true := by
  have hk := length_keystream x
  have hfield (i : Nat) (hlo : 2060 ≤ i) (hhi : i < 2064) :
      byteAt (dvdApply plain (keystream x)) i = byteAt plain i := by
    rw [byteAt_dvdApply _ _ hk _ (by omega), if_neg (by omega)]
  rw [verify, decide_eq_true_iff, dvdApply_twice hk, hedc, dvdEdcField, dvdEdcField, hfield 2060 (by omega) (by omega),
    hfield 2061 (by omega) (by omega), hfield 2062 (by omega) (by omega), hfield 2063 (by omega) (by omega)]

/-- The 15 bits of a seed are all read back from a result. -/
theorem seed_of_res0 {x y : Seed} (h : (x.setWidth 32 : Word) = y.setWidth 32) : x = y := by
  have hback := congrArg (BitVec.setWidth 15) h
  simpa using hback

/-- What `DVDSCR` leaves of a seed its search finds. -/
theorem dvdscr_of_found {s : State} {x : Seed} {n : Nat} {g : Stage} (hfit : RangesFit s s.len.toNat)
    (hlen : s.len.toNat = 2064) (hsearch : search s.cfg s.dvd s.input = .found x n g) :
    ∃ t, exec .dvdscr s = .next t ∧ Leaves s t .transformed .none (dvdApply s.input (keystream x)) (x.setWidth 32)
      (BitVec.ofNat 32 n) (BitVec.ofNat 32 g.number) := by
  obtain ⟨t, hexec, -, heffect⟩ := exec_form .dvdscr s s.len.toNat rfl (by decide) (by decide)
  refine ⟨t, hexec, ?_⟩
  rw [heffect hfit, effect_dvdscr_of_found (s.length_input.trans hlen) hsearch]
  exact leaves_apply s _ _

/-- Settles O57: the scrambled sector verifies, so the search finds a seed, whose keystream is applied. -/
theorem dvdscrUndoesScrambling : Obligations.DvdscrUndoesScrambling := by
  unfold Obligations.DvdscrUndoesScrambling
  intro s plain x hfit hlen hplain hedc hinput
  have hverify : verify s.cfg s.input x = true := by
    rw [hinput]
    exact verify_scrambled x hplain hedc
  obtain ⟨y, n, g, hsearch⟩ := search_found_of_verify s.dvd hverify
  obtain ⟨t, hexec, hleaves⟩ := dvdscr_of_found hfit hlen hsearch
  refine ⟨hverify, t, hexec, statusOutcome_of_leaves hleaves, fun hres0 => ?_⟩
  have hyx : y = x := seed_of_res0 (hleaves.res0.symm.trans hres0)
  have hholds := hleaves.holds
  rwa [hyx, hinput, dvdApply_twice (length_keystream x)] at hholds

/-! ### `DVDSEED` repeated (R210, R213) -/

/-- A seed recorded again changes nothing. -/
theorem record_record (d : DvdInstance) (x : Seed) : (d.record x).record x = d.record x := by
  obtain ⟨-, -, hmem⟩ := d.record_spec x
  have hcache : ((d.record x).record x).cache = (d.record x).cache := if_pos hmem
  calc (d.record x).record x = ⟨some x, ((d.record x).record x).cache⟩ := rfl
    _ = ⟨some x, (d.record x).cache⟩ := by rw [hcache]
    _ = d.record x := rfl

section
variable {s t : State} {x : Seed} {n : Nat} {g : Stage} (hfit : RangesFit s 2048) (hlen : s.len.toNat = 2064)
  (hexec : exec .dvdseed s = .next t)
include hfit hlen hexec

/-- What `DVDSEED` leaves of a seed its search finds. -/
theorem dvdseed_of_found (hsearch : search s.cfg s.dvd s.input = .found x n g) : t.res0 = x.setWidth 32 ∧
    t.res1 = BitVec.ofNat 32 n ∧ t.res2 = BitVec.ofNat 32 g.number ∧ t.dvd = s.dvd.record x := by
  obtain ⟨t', hexec', -, heffect⟩ := exec_form .dvdseed s 2048 rfl (by decide) (by decide)
  rw [hexec] at hexec'
  cases hexec'
  rw [heffect hfit, effect_dvdseed_of_found (s.length_input.trans hlen) hsearch]
  exact ⟨rfl, rfl, rfl, rfl⟩

/-- `DVDSEED` reports `COMPUTED` only for a seed its search has found. -/
theorem search_found_of_dvdseed (hstatus : statusOutcome t.status = 3) :
    ∃ x n g, search s.cfg s.dvd s.input = .found x n g := by
  cases hsearch : search s.cfg s.dvd s.input with
  | found x n g => exact ⟨x, n, g, rfl⟩
  | notFound n =>
    obtain ⟨t', hexec', -, heffect⟩ := exec_form .dvdseed s 2048 rfl (by decide) (by decide)
    rw [hexec] at hexec'
    cases hexec'
    have happly := heffect hfit
    rw [effect_dvdseed_of_notFound (s.length_input.trans hlen) hsearch] at happly
    have hends := ends_apply s { passBare .noseed with res1 := BitVec.ofNat 32 n }
    rw [← happly] at hends
    have houtcome : statusOutcome t.status = Tag.unchanged.code := statusOutcome_of_leaves hends.toLeaves
    rw [hstatus] at houtcome
    exact absurd houtcome (by decide)

end

/-- Settles O58: the found seed is the hint of the second search, and it verifies there too. -/
theorem dvdseedAgainUsesTheHint : Obligations.DvdseedAgainUsesTheHint := by
  unfold Obligations.DvdseedAgainUsesTheHint
  intro s t u hfit hlen hexec hstatus hcfg hdvd hlenu hinput hfitu
  obtain ⟨x, n, g, hsearch⟩ := search_found_of_dvdseed hfit hlen hexec hstatus
  obtain ⟨hres0, -, -, hdvdt⟩ := dvdseed_of_found hfit hlen hexec hsearch
  obtain ⟨hlast, -, -⟩ := s.dvd.record_spec x
  have hsearchu : search u.cfg u.dvd u.input = .found x 1 .hint := by
    rw [hcfg, hinput, hdvd, hdvdt]
    exact search_hint _ _ _ x hlast (verify_of_found hsearch)
  obtain ⟨v, hexecu⟩ := exec_next .dvdseed u
  obtain ⟨vres0, vres1, vres2, vdvd⟩ := dvdseed_of_found hfitu (hlenu ▸ hlen) hexecu hsearchu
  refine ⟨v, hexecu, vres0.trans hres0.symm, vres1, vres2, ?_⟩
  rw [vdvd, hdvd, hdvdt, record_record]

end Sys2Proof.Machine
end

section
/-! SUPPORT. The two round trips of the subchannel codec (spec 45_subchannel.md R234, R242): a command on what another has
written, and the conversions and the frames that undo each other. -/

namespace Sys2Proof.Machine

/-- A command that reads back what another has written, where both have a result of their input alone for an effect. -/
theorem exec_on_output {i j : Instr} {s t u : State} {first second : Bytes → Result}
    (hfirst : effect i s s.input = ⟨first s.input, s.q, s.dvd⟩)
    (hsecond : effect j u u.input = ⟨second u.input, u.q, u.dvd⟩) (hi : i ≠ .nop ∧ i ≠ .dvdrst)
    (hj : j ≠ .nop ∧ j ≠ .dvdrst) (hfit : RangesFit s (outmax i s.len.toNat))
    (hfitu : RangesFit u (outmax j u.len.toNat)) (hexec : exec i s = .next t) (hback : ReadsBack t u)
    (hlen : (first s.input).out.length = s.len.toNat) :
    ∃ v, exec j u = .next v ∧ Ends u v (second (first s.input).out).tag (second (first s.input).out).reason
      (second (first s.input).out).out (second (first s.input).out).res0 (second (first s.input).out).res1
      (second (first s.input).out).res2 := by
  have hends := ends_of_exec hfirst hi.1 hi.2 hfit hexec
  rw [← hback.input_eq hends hlen]
  exact exec_ends hsecond hj.1 hj.2 hfitu

/-! ### The conversion of a Q block and back (R234) -/

/-- What a second conversion makes of a converted block, where it accepts and undoes each numeric byte. -/
theorem convertResult_twice {refused refused' : Byte → Bool} {f f' : Byte → Byte} {src : Bytes} (hlen : src.length = 12)
    (haccept : ∀ k, 1 ≤ k → k ≤ 9 → ¬ refused (byteAt src k) = true)
    (haccept' : ∀ k, 1 ≤ k → k ≤ 9 → ¬ refused' (f (byteAt src k)) = true)
    (hback : ∀ k, 1 ≤ k → k ≤ 9 → f' (f (byteAt src k)) = byteAt src k) :
    convertResult refused' f' (convertResult refused f src).out = { tag := .transformed, out := src } := by
  have hfirst : ¬ (qNumeric src).any refused = true := by
    rw [any_qNumeric_iff hlen]
    rintro ⟨k, hlo, hhi, hrefused⟩
    exact haccept k hlo hhi hrefused
  have hconverted := length_convertBlock hlen f
  have hbyte (k : Nat) (hlo : 1 ≤ k) (hhi : k ≤ 9) : byteAt (convertBlock f src) k = f (byteAt src k) := by
    rw [byteAt_convertBlock hlen, if_pos ⟨hlo, hhi⟩]
  have hsecond : ¬ (qNumeric (convertBlock f src)).any refused' = true := by
    rw [any_qNumeric_iff hconverted]
    rintro ⟨k, hlo, hhi, hrefused⟩
    rw [hbyte k hlo hhi] at hrefused
    exact haccept' k hlo hhi hrefused
  have hrestored : convertBlock f' (convertBlock f src) = src := by
    refine bytes_ext (by rw [length_convertBlock hconverted, hlen]) fun k _ => ?_
    rw [byteAt_convertBlock hconverted, byteAt_convertBlock hlen]
    split_ifs with hk
    · exact hback k hk.1 hk.2
    · rfl
  rw [convertResult_of_accepted hlen hfirst, convertResult_of_accepted hconverted hsecond, hrestored]

/-- Binary to packed decimal and back, for values up to 99. -/
theorem qbcd2binResult_qbin2bcdResult {src : Bytes} (hlen : src.length = 12)
    (hvalues : ∀ k, 1 ≤ k → k ≤ 9 → (byteAt src k).toNat ≤ 99) :
    qbcd2binResult (qbin2bcdResult src).out = { tag := .transformed, out := src } := by
  rw [qbcd2binResult_eq, qbin2bcdResult_eq]
  refine convertResult_twice hlen (fun k hlo hhi => ?accept) (fun k hlo hhi => ?accept') fun k hlo hhi => ?back
  case accept =>
    rw [decide_eq_true_iff, not_lt]
    exact hvalues k hlo hhi
  case accept' =>
    have hv := hvalues k hlo hhi
    rw [not_bcdOk_iff, hi4_toBcd hv, lo4_toBcd hv]
    omega
  case back =>
    rw [fromBcd_toBcd (hvalues k hlo hhi), BitVec.ofNat_toNat, BitVec.setWidth_eq]

/-- Packed decimal to binary and back, for pairs of digits. -/
theorem qbin2bcdResult_qbcd2binResult {src : Bytes} (hlen : src.length = 12)
    (hdigits : ∀ k, 1 ≤ k → k ≤ 9 → (hi4 (byteAt src k)).toNat ≤ 9 ∧ (lo4 (byteAt src k)).toNat ≤ 9) :
    qbin2bcdResult (qbcd2binResult src).out = { tag := .transformed, out := src } := by
  have hvalue (k : Nat) (hlo : 1 ≤ k) (hhi : k ≤ 9) :
      (BitVec.ofNat 8 (fromBcd (byteAt src k))).toNat = fromBcd (byteAt src k) ∧ fromBcd (byteAt src k) ≤ 99 := by
    obtain ⟨htens, hunits⟩ := hdigits k hlo hhi
    have hle := fromBcd_le htens hunits
    exact ⟨Nat.mod_eq_of_lt (by omega), hle⟩
  rw [qbcd2binResult_eq, qbin2bcdResult_eq]
  refine convertResult_twice hlen (fun k hlo hhi => ?accept) (fun k hlo hhi => ?accept') fun k hlo hhi => ?back
  case accept =>
    rw [not_bcdOk_iff]
    have hk := hdigits k hlo hhi
    omega
  case accept' =>
    obtain ⟨hsame, hle⟩ := hvalue k hlo hhi
    rw [decide_eq_true_iff, not_lt, hsame]
    exact hle
  case back =>
    obtain ⟨htens, hunits⟩ := hdigits k hlo hhi
    rw [(hvalue k hlo hhi).1, toBcd_fromBcd htens hunits]

/-- Settles O59: the second command accepts what the first has converted, and converts it back. -/
theorem bcdRoundTrip : Obligations.BcdRoundTrip := by
  unfold Obligations.BcdRoundTrip
  intro s t u hlen hfit _ hmem hsrc hlenu hfitu
  have hback : ReadsBack t u := ⟨hmem, hsrc, hlenu⟩
  have hinput : s.input.length = 12 := s.length_input.trans hlen
  have hlenOf {i : Instr} (hexec : exec i s = .next t) : u.len.toNat = 12 := by
    rw [hlenu, (exec_operands hexec).len, hlen]
  refine ⟨fun hvalues hexec => ?toBcd, fun hdigits hexec => ?toBin⟩
  case toBcd =>
    have hagain := exec_on_output (i := .qbin2bcd) (j := .qbcd2bin) (first := qbin2bcdResult) (second := qbcd2binResult)
      rfl rfl (by decide) (by decide) (hlen.symm ▸ hfit) ((hlenOf hexec).symm ▸ hfitu) hexec hback
      ((length_qbin2bcdResult _).trans s.length_input)
    rwa [qbcd2binResult_qbin2bcdResult hinput hvalues] at hagain
  case toBin =>
    have hagain := exec_on_output (i := .qbcd2bin) (j := .qbin2bcd) (first := qbcd2binResult) (second := qbin2bcdResult)
      rfl rfl (by decide) (by decide) (hlen.symm ▸ hfit) ((hlenOf hexec).symm ▸ hfitu) hexec hback
      ((length_qbcd2binResult _).trans s.length_input)
    rwa [qbin2bcdResult_qbcd2binResult hinput hdigits] at hagain

/-! ### The interleaver and back (R242) -/

/-- Bytes are equal when their bits are, counted from the most significant. -/
theorem byte_ext {a b : Byte} (h : ∀ c, c < 8 → a.getLsbD (7 - c) = b.getLsbD (7 - c)) : a = b := by
  apply BitVec.eq_of_getLsbD_eq
  intro i hi
  have hbit := h (7 - i) (by omega)
  rwa [show 7 - (7 - i) = i by omega] at hbit

theorem interleaveFrame_deinterleaveFrame {o : Bytes} (hlen : o.length = 96) :
    interleaveFrame (deinterleaveFrame o) = o := by
  refine bytes_ext (by rw [length_interleaveFrame, hlen]) fun i hi => ?_
  rw [length_interleaveFrame] at hi
  have hg : i / 8 < 12 := by omega
  have hk : i % 8 < 8 := by omega
  rw [← Nat.div_add_mod i 8]
  refine byte_ext fun c hc => ?_
  rw [getLsbD_interleaveFrame hg hc hk, getLsbD_deinterleaveFrame hg hc hk]

theorem deinterleaveFrame_interleaveFrame {d : Bytes} (hlen : d.length = 96) :
    deinterleaveFrame (interleaveFrame d) = d := by
  refine bytes_ext (by rw [length_deinterleaveFrame, hlen]) fun i hi => ?_
  rw [length_deinterleaveFrame] at hi
  have hc : i / 12 < 8 := by omega
  have hg : i % 12 < 12 := by omega
  rw [← Nat.div_add_mod i 12]
  refine byte_ext fun k hk => ?_
  rw [getLsbD_deinterleaveFrame hg hc hk, getLsbD_interleaveFrame hg hc hk]

/-- A transform of pieces undone piece by piece. -/
theorem mapPieces_twice {size : Nat} {f f' : Bytes → Bytes} (hf : ∀ b, (f b).length = size)
    (hback : ∀ b : Bytes, b.length = size → f' (f b) = b) (n : Nat) {b : Bytes} (hlen : b.length = size * n) :
    mapPieces size f' n (mapPieces size f n b) = b := by
  induction n generalizing b with
  | zero => exact (List.eq_nil_of_length_eq_zero hlen).symm
  | succ n ih =>
    rw [Nat.mul_succ] at hlen
    have hpiece : (b.take size).length = size := by rw [List.length_take]; omega
    have hrest : (b.drop size).length = size * n := by rw [List.length_drop]; omega
    rw [mapPieces, mapPieces, List.take_left' (hf _), List.drop_left' (hf _), hback _ hpiece, ih hrest,
      List.take_append_drop]

/-- What a second transform of frames makes of transformed frames. -/
theorem framesResult_twice {f f' : Bytes → Bytes} (hf : ∀ b, (f b).length = 96)
    (hback : ∀ b : Bytes, b.length = 96 → f' (f b) = b) {src : Bytes} (hlen : src.length % 96 = 0) :
    framesResult f' (framesResult f src).out =
      { tag := .transformed, out := src, res0 := BitVec.ofNat 32 (src.length / 96) } := by
  have hframes (h : Bytes → Bytes) (b : Bytes) (hb : b.length % 96 = 0) : framesResult h b =
      { tag := .transformed, out := mapPieces 96 h (b.length / 96) b, res0 := BitVec.ofNat 32 (b.length / 96) } := by
    rw [framesResult_eq, piecesResult, if_neg (not_not.mpr hb)]
  have hsame := length_framesResult f hf src
  rw [hframes f' _ (by rw [hsame, hlen]), hsame, hframes f src hlen]
  dsimp only
  rw [mapPieces_twice hf hback _ (by omega)]

/-- Settles O60: each frame comes back, bit by bit. -/
theorem interleaverRoundTrip : Obligations.InterleaverRoundTrip := by
  unfold Obligations.InterleaverRoundTrip
  intro s t u hlen hfit _ hmem hsrc hlenu hfitu
  have hback : ReadsBack t u := ⟨hmem, hsrc, hlenu⟩
  rw [← s.length_input] at hlen ⊢
  refine ⟨fun hexec => ?intlv, fun hexec => ?deintlv⟩
  case intlv =>
    have hagain := exec_on_output (i := .intlv) (j := .deintlv) (first := framesResult interleaveFrame)
      (second := framesResult deinterleaveFrame) rfl rfl (by decide) (by decide) hfit hfitu hexec hback
      ((length_framesResult _ length_interleaveFrame _).trans s.length_input)
    rwa [framesResult_twice length_interleaveFrame (fun _ => deinterleaveFrame_interleaveFrame) hlen] at hagain
  case deintlv =>
    have hagain := exec_on_output (i := .deintlv) (j := .intlv) (first := framesResult deinterleaveFrame)
      (second := framesResult interleaveFrame) rfl rfl (by decide) (by decide) hfit hfitu hexec hback
      ((length_framesResult _ length_deinterleaveFrame _).trans s.length_input)
    rwa [framesResult_twice length_deinterleaveFrame (fun _ => interleaveFrame_deinterleaveFrame) hlen] at hagain

end Sys2Proof.Machine
end

section
/-! SUPPORT. The Q record (spec 46_q_parser.md R252 to R266): the fields of its registers, read back from the words they are
put together from, the class of a block as a chain of tests of numbers, and the text of a catalog number and of an ISRC. -/

namespace Sys2Proof.Machine

/-! ### The fields of the registers (R266) -/

/-- `Q0` put together from its fields. -/
def q0Word (txt : Bool) (cls : BitVec 8) (flags control adr : BitVec 4) (num exp area crc : Bool) : Word :=
  0#7 ++ BitVec.ofBool txt ++ cls ++ flags ++ control ++ adr ++ BitVec.ofBool num ++ BitVec.ofBool exp ++
    BitVec.ofBool area ++ BitVec.ofBool crc

section
variable (txt : Bool) (cls : BitVec 8) (flags control adr : BitVec 4) (num exp area crc : Bool)

/-- The one-bit fields of `Q0`. -/
theorem q0Word_bits : (q0Word txt cls flags control adr num exp area crc).getLsbD 0 = crc ∧
    (q0Word txt cls flags control adr num exp area crc).getLsbD 1 = area ∧
    (q0Word txt cls flags control adr num exp area crc).getLsbD 2 = exp ∧
    (q0Word txt cls flags control adr num exp area crc).getLsbD 3 = num ∧
    (q0Word txt cls flags control adr num exp area crc).getLsbD 24 = txt := by
  simp only [q0Word, BitVec.getLsbD_append]
  simp

/-- The longer fields of `Q0`. -/
theorem q0Word_fields : (q0Word txt cls flags control adr num exp area crc).extractLsb' 4 4 = adr ∧
    (q0Word txt cls flags control adr num exp area crc).extractLsb' 8 4 = control ∧
    (q0Word txt cls flags control adr num exp area crc).extractLsb' 12 4 = flags ∧
    (q0Word txt cls flags control adr num exp area crc).extractLsb' 16 8 = cls := by
  refine ⟨?_, ?_, ?_, ?_⟩
  all_goals
    apply BitVec.eq_of_getLsbD_eq
    intro j hj
    simp only [q0Word, BitVec.getLsbD_extractLsb', BitVec.getLsbD_append]
    interval_cases j <;> simp

end

/-- A word of four bytes, most significant first, read byte by byte. -/
theorem u32be_bytes (a b c d : Byte) : (u32be a b c d).extractLsb' 0 8 = d ∧ (u32be a b c d).extractLsb' 8 8 = c ∧
    (u32be a b c d).extractLsb' 16 8 = b ∧ (u32be a b c d).extractLsb' 24 8 = a := by
  refine ⟨?_, ?_, ?_, ?_⟩
  all_goals
    apply BitVec.eq_of_getLsbD_eq
    intro j hj
    simp only [u32be, BitVec.getLsbD_extractLsb', BitVec.getLsbD_append]
    interval_cases j <;> simp

/-- The bits of `NOK` (R266). -/
theorem getLsbD_nokField (bcd : Bool) (b : Bytes) {k : Nat} (hlo : 1 ≤ k) (hhi : k ≤ 9) :
    (nokField bcd b).getLsbD (k - 1) = okv bcd b k := by
  simp only [nokField, BitVec.getLsbD_append]
  interval_cases k <;> simp

/-- The fields of `Q4`. -/
theorem q4_fields (nok : BitVec 9) (v : Byte) :
    (0#15 ++ nok ++ v).extractLsb' 0 8 = v ∧ ∀ j, j < 9 → (0#15 ++ nok ++ v).getLsbD (8 + j) = nok.getLsbD j := by
  refine ⟨?_, fun j hj => ?_⟩
  · apply BitVec.eq_of_getLsbD_eq
    intro j hj
    simp only [BitVec.getLsbD_extractLsb', BitVec.getLsbD_append]
    simp [hj]
  · simp only [BitVec.getLsbD_append]
    simp [hj]

/-- The flags of a `QF` value, bit by bit (R93). -/
theorem getLsbD_toBits (qf : QFlags) : qf.toBits.getLsbD 0 = qf.bcd ∧ qf.toBits.getLsbD 1 = qf.corruptedPause ∧
    qf.toBits.getLsbD 2 = qf.pause ∧ qf.toBits.getLsbD 3 = qf.rwEmpty := by
  simp only [QFlags.toBits, BitVec.getLsbD_append]
  simp

/-- A bit of a word is a bit of the field it lies in. -/
theorem getLsbD_of_field {w : Word} {start len : Nat} {field : BitVec len} (h : w.extractLsb' start len = field) {j : Nat}
    (hj : j < len) : w.getLsbD (start + j) = field.getLsbD j := by
  rw [← h, BitVec.getLsbD_extractLsb', decide_eq_true hj, Bool.true_and]

/-! ### The record of a block (R252 to R255, R264) -/

section
variable (c : Config) (qf : QFlags) (l : Int) (b : Bytes)

theorem qRecord_q0 : (qRecord c qf l b).q0 = q0Word (qText c (qClass l qf.bcd b) qf.bcd b).valid (qClass l qf.bcd b).code
    qf.toBits (qControl b) (qAdr b) (numValid qf.bcd b) (expValid l) (qLeadIn l) (qCrcOk c b) := rfl

theorem qRecord_q1 : (qRecord c qf l b).q1 = u32be 0 (BitVec.ofNat 8 (expTime l).minute)
    (BitVec.ofNat 8 (expTime l).second) (BitVec.ofNat 8 (expTime l).frame) := rfl

end

/-- The expected time of a valid address has fields that fit a byte (R129, R254). -/
theorem expTime_of_valid {l : Int} (h : expValid l = true) :
    (BitVec.ofNat 8 (expTime l).minute).toNat = (l + 150).toNat / 4500 ∧
    (BitVec.ofNat 8 (expTime l).second).toNat = (l + 150).toNat / 75 % 60 ∧
    (BitVec.ofNat 8 (expTime l).frame).toNat = (l + 150).toNat % 75 := by
  have htime : expTime l = msf (l + 150).toNat := if_pos h
  obtain ⟨-, hhigh⟩ := (timeOk_iff _).mp h
  rw [lbaTime] at hhigh
  have hminute := msf_minute_le (t := (l + 150).toNat) (by omega)
  have hsecond := msf_second_le (l + 150).toNat
  have hframe := msf_frame_le (l + 150).toNat
  rw [htime]
  exact ⟨Nat.mod_eq_of_lt (by omega), Nat.mod_eq_of_lt (by omega), Nat.mod_eq_of_lt (by omega)⟩

theorem qRecord_q1_of_not_valid {c : Config} {qf : QFlags} {l : Int} {b : Bytes} (h : expValid l = false) :
    (qRecord c qf l b).q1 = 0 := by
  have htime : expTime l = ⟨0, 0, 0⟩ := if_neg (by simp [h])
  rw [qRecord_q1, htime]
  decide

/-- Settles O39: each field is read back from the word it was put into. -/
theorem qRecordFields : Obligations.QRecordFields := by
  unfold Obligations.QRecordFields
  intro c qf l b q time valid
  have hvalid : expValid l = valid := rfl
  obtain ⟨hcrc, harea, hexp, hnum, -⟩ := q0Word_bits (qText c (qClass l qf.bcd b) qf.bcd b).valid
    (qClass l qf.bcd b).code qf.toBits (qControl b) (qAdr b) (numValid qf.bcd b) (expValid l) (qLeadIn l) (qCrcOk c b)
  obtain ⟨hadr, hcontrol, hflags, hclass⟩ := q0Word_fields (qText c (qClass l qf.bcd b) qf.bcd b).valid
    (qClass l qf.bcd b).code qf.toBits (qControl b) (qAdr b) (numValid qf.bcd b) (expValid l) (qLeadIn l) (qCrcOk c b)
  rw [← qRecord_q0] at hcrc harea hexp hnum hadr hcontrol hflags hclass
  obtain ⟨hbcd, hcorrupted, hpause, hempty⟩ := getLsbD_toBits qf
  obtain ⟨hzero0, hzero1, hzero4⟩ := qLegal_qRecord c qf l b
  obtain ⟨hframe, hsecond, hminute, -⟩ := u32be_bytes 0 (BitVec.ofNat 8 (expTime l).minute)
    (BitVec.ofNat 8 (expTime l).second) (BitVec.ofNat 8 (expTime l).frame)
  obtain ⟨hnine, hnok⟩ := q4_fields (nokField qf.bcd b) (binv qf.bcd b 9)
  refine ⟨hcrc, harea, hexp, hnum, hadr, hcontrol, (getLsbD_of_field hflags (by decide)).trans hbcd,
    (getLsbD_of_field hflags (j := 1) (by decide)).trans hcorrupted,
    (getLsbD_of_field hflags (j := 2) (by decide)).trans hpause,
    (getLsbD_of_field hflags (j := 3) (by decide)).trans hempty, hclass, hzero0, hzero1, fun htrue => ?time,
    fun hfalse => qRecord_q1_of_not_valid (hvalid.trans hfalse), fun k hk => ?views, hnine, fun k hlo hhi => ?nok, hzero4⟩
  case time =>
    rw [show q.q1 = _ from qRecord_q1 c qf l b, hframe, hsecond, hminute]
    exact expTime_of_valid (hvalid.trans htrue)
  case views =>
    obtain ⟨h0, h1, h2, h3⟩ := u32be_bytes (binv qf.bcd b 4) (binv qf.bcd b 3) (binv qf.bcd b 2) (binv qf.bcd b 1)
    obtain ⟨h4, h5, h6, h7⟩ := u32be_bytes (binv qf.bcd b 8) (binv qf.bcd b 7) (binv qf.bcd b 6) (binv qf.bcd b 5)
    obtain rfl | rfl | rfl | rfl : k = 0 ∨ k = 1 ∨ k = 2 ∨ k = 3 := by omega
    · exact ⟨h0, h4⟩
    · exact ⟨h1, h5⟩
    · exact ⟨h2, h6⟩
    · exact ⟨h3, h7⟩
  case nok =>
    have hbit := hnok (k - 1) (by omega)
    rw [getLsbD_nokField qf.bcd b hlo hhi, show 8 + (k - 1) = 7 + k by omega] at hbit
    exact hbit

/-! ### The class of a block (R256, R257) -/

/-- A test of a word of few bits is a test of its number. -/
theorem eq_ofNat_iff {w : Nat} (x : BitVec w) {n : Nat} (hn : n < 2 ^ w) : x = BitVec.ofNat w n ↔ x.toNat = n := by
  rw [← BitVec.toNat_inj, BitVec.toNat_ofNat, Nat.mod_eq_of_lt hn]

/-- The code of the class of a block of the program area. -/
theorem code_programClass (adr : BitVec 4) : (programClass adr).code.toNat =
    if adr.toNat = 1 then 0x20 else if adr.toNat = 2 then 0x21 else if adr.toNat = 3 then 0x22 else 0x00 := by
  have h1 : adr = 1 ↔ adr.toNat = 1 := eq_ofNat_iff adr (by decide)
  have h2 : adr = 2 ↔ adr.toNat = 2 := eq_ofNat_iff adr (by decide)
  have h3 : adr = 3 ↔ adr.toNat = 3 := eq_ofNat_iff adr (by decide)
  simp only [programClass, h1, h2, h3]
  split_ifs <;> rfl

section
variable {adr : BitVec 4} (point track : Byte) (ok : Bool)

/-- The code of a lead-in class with `ADR` 1 or 4. -/
theorem code_leadInClass_position (h : adr.toNat = 1 ∨ adr.toNat = 4) :
    (leadInClass adr point track ok).code.toNat =
      if point.toNat = 0xA0 then 0x11 else if point.toNat = 0xA1 then 0x12 else if point.toNat = 0xA2 then 0x13
      else if ok = true ∧ 1 ≤ track.toNat ∧ track.toNat ≤ 99 then 0x10 else 0x00 := by
  have hadr : adr = 1 ∨ adr = 4 :=
    h.imp (eq_ofNat_iff adr (n := 1) (by decide)).mpr (eq_ofNat_iff adr (n := 4) (by decide)).mpr
  have hA0 : point = 0xA0 ↔ point.toNat = 0xA0 := eq_ofNat_iff point (by decide)
  have hA1 : point = 0xA1 ↔ point.toNat = 0xA1 := eq_ofNat_iff point (by decide)
  have hA2 : point = 0xA2 ↔ point.toNat = 0xA2 := eq_ofNat_iff point (by decide)
  simp only [leadInClass, if_pos hadr, hA0, hA1, hA2]
  split_ifs <;> rfl

/-- The code of a lead-in class with `ADR` 5. -/
theorem code_leadInClass_five (h : adr.toNat = 5) : (leadInClass adr point track ok).code.toNat =
    if 0xB1 ≤ point.toNat ∧ point.toNat ≤ 0xB4 then 0x15 else if point.toNat = 0xC0 ∨ point.toNat = 0xC1 then 0x16
    else if ok = true ∧ 1 ≤ track.toNat ∧ track.toNat ≤ 40 then 0x14 else 0x00 := by
  have hadr : adr = 5 := (eq_ofNat_iff adr (n := 5) (by decide)).mpr h
  have hother : ¬ (adr = 1 ∨ adr = 4) := by
    rw [hadr]
    decide
  have hC0 : point = 0xC0 ↔ point.toNat = 0xC0 := eq_ofNat_iff point (by decide)
  have hC1 : point = 0xC1 ↔ point.toNat = 0xC1 := eq_ofNat_iff point (by decide)
  simp only [leadInClass, if_neg hother, if_pos hadr, hC0, hC1]
  split_ifs <;> rfl

/-- Every other `ADR` has no class in the lead-in. -/
theorem code_leadInClass_other (h1 : adr.toNat ≠ 1) (h4 : adr.toNat ≠ 4) (h5 : adr.toNat ≠ 5) :
    (leadInClass adr point track ok).code.toNat = 0x00 := by
  have hposition : ¬ (adr = 1 ∨ adr = 4) := by
    rintro (rfl | rfl)
    · exact h1 rfl
    · exact h4 rfl
  have hfive : ¬ adr = 5 := by
    rintro rfl
    exact h5 rfl
  rw [leadInClass, if_neg hposition, if_neg hfive]
  rfl

end

section
variable {l : Int} (bcd : Bool) (b : Bytes)

theorem qClass_of_program (h : 0 ≤ l) : qClass l bcd b = programClass (qAdr b) := by
  rw [qClass, qLeadIn, decide_eq_false (by omega), if_neg Bool.false_ne_true]

theorem qClass_of_leadIn (h : l < 0) :
    qClass l bcd b = leadInClass (qAdr b) (bcdv bcd b 2) (binv bcd b 2) (okv bcd b 2) := by
  rw [qClass, qLeadIn, decide_eq_true h, if_pos rfl]

end

/-- Settles O41: the sign of the address chooses the area, and each row of the tests has its code. -/
theorem qRecordClass : Obligations.QRecordClass := by
  unfold Obligations.QRecordClass
  intro l bcd b adr point n code
  refine ⟨fun hl => ?program, fun hl hadr => ?position, fun hl hadr => ?five, fun hl h1 h4 h5 => ?other⟩
  case program =>
    simp only [code, qClass_of_program bcd b hl]
    exact code_programClass (qAdr b)
  case position =>
    simp only [code, qClass_of_leadIn bcd b hl]
    exact code_leadInClass_position _ _ _ hadr
  case five =>
    simp only [code, qClass_of_leadIn bcd b hl]
    exact code_leadInClass_five _ _ _ hadr
  case other =>
    simp only [code, qClass_of_leadIn bcd b hl]
    exact code_leadInClass_other _ _ _ h1 h4 h5

/-! ### The text of a block (R258, R259) -/

theorem qRecord_txt_valid (c : Config) (qf : QFlags) (l : Int) (b : Bytes) :
    (qRecord c qf l b).q0.getLsbD 24 = (qText c (qClass l qf.bcd b) qf.bcd b).valid := by
  obtain ⟨-, -, -, -, htxt⟩ := q0Word_bits (qText c (qClass l qf.bcd b) qf.bcd b).valid
    (qClass l qf.bcd b).code qf.toBits (qControl b) (qAdr b) (numValid qf.bcd b) (expValid l) (qLeadIn l) (qCrcOk c b)
  exact htxt

/-- The registers of the text are those of the class's text (R264). -/
theorem qRecord_text (c : Config) (qf : QFlags) (l : Int) (b : Bytes) :
    (qRecord c qf l b).q5 = (qText c (qClass l qf.bcd b) qf.bcd b).q5 ∧
    (qRecord c qf l b).q6 = (qText c (qClass l qf.bcd b) qf.bcd b).q6 ∧
    (qRecord c qf l b).q7 = (qText c (qClass l qf.bcd b) qf.bcd b).q7 := ⟨rfl, rfl, rfl⟩

theorem qText_mcn (c : Config) (bcd : Bool) (b : Bytes) : qText c .pgMcn bcd b = mcnText bcd b := rfl

theorem qText_isrc (c : Config) (bcd : Bool) (b : Bytes) : qText c .pgIsrc bcd b = isrcText c bcd b := rfl

theorem qText_other {cls : QClass} (c : Config) (bcd : Bool) (b : Bytes) (hmcn : cls ≠ .pgMcn) (hisrc : cls ≠ .pgIsrc) :
    qText c cls bcd b = ⟨false, 0, 0, 0⟩ := by
  rw [qText, if_neg hmcn, if_neg hisrc]

theorem mem_mcnDigits (bcd : Bool) (b : Bytes) (d : BitVec 4) : d ∈ mcnDigits bcd b ↔
    (∃ i, i < 6 ∧ (d = hi4 (bcdv bcd b (i + 1)) ∨ d = lo4 (bcdv bcd b (i + 1)))) ∨ d = hi4 (bcdv bcd b 7) := by
  simp only [mcnDigits, List.mem_append, List.mem_flatMap, List.mem_range, List.mem_cons, List.not_mem_nil, or_false]

/-- A catalog number is valid when its thirteen nibbles are digits: both of six bytes, the high one of the seventh. -/
theorem mcnText_valid_iff (bcd : Bool) (b : Bytes) : (mcnText bcd b).valid = true ↔
    (∀ k, 1 ≤ k → k ≤ 7 → (hi4 (bcdv bcd b k)).toNat ≤ 9) ∧ ∀ k, 1 ≤ k → k ≤ 6 → (lo4 (bcdv bcd b k)).toNat ≤ 9 := by
  have hall : (mcnText bcd b).valid = true ↔ ∀ d ∈ mcnDigits bcd b, d.toNat ≤ 9 := by
    simp only [mcnText, List.all_eq_true, decide_eq_true_eq]
  rw [hall]
  constructor
  · intro h
    refine ⟨fun k hlo hhi => h _ ((mem_mcnDigits bcd b _).mpr ?_), fun k hlo hhi => h _ ((mem_mcnDigits bcd b _).mpr ?_)⟩
    · by_cases hk : k = 7
      · exact .inr (by rw [hk])
      · exact .inl ⟨k - 1, by omega, .inl (by rw [Nat.sub_add_cancel hlo])⟩
    · exact .inl ⟨k - 1, by omega, .inr (by rw [Nat.sub_add_cancel hlo])⟩
  · rintro ⟨hhigh, hlow⟩ d hd
    obtain ⟨i, hi, rfl | rfl⟩ | rfl := (mem_mcnDigits bcd b d).mp hd
    · exact hhigh _ (by omega) (by omega)
    · exact hlow _ (by omega) (by omega)
    · exact hhigh 7 (by omega) (by omega)

/-- The 6-bit code `I1` to `I5` as a number in a byte (R259). -/
def isrcCodeAt (v : Nat → Byte) (k : Nat) : Byte :=
  if k = 1 then v 1 >>> 2 else if k = 2 then ((v 1 &&& 0x03) <<< 4) ||| (v 2 >>> 4)
  else if k = 3 then ((v 2 &&& 0x0F) <<< 2) ||| (v 3 >>> 6) else if k = 4 then v 3 &&& 0x3F else v 4 >>> 2

/-- The digit `I6` to `I12` (R259). -/
def isrcDigitAt (v : Nat → Byte) (k : Nat) : BitVec 4 :=
  if k % 2 = 0 then hi4 (v (k / 2 + 2)) else lo4 (v (k / 2 + 2))

/-- Character `k` of the twelve of an ISRC (R259). -/
def isrcCharAt (c : Config) (v : Nat → Byte) (k : Nat) : Byte :=
  if k ≤ 5 then isrcChar c ((isrcCodeAt v k).setWidth 6)
  else if (isrcDigitAt v k).toNat ≤ 9 then BitVec.ofNat 8 (0x30 + (isrcDigitAt v k).toNat) else 0

/-- The fields of five 6-bit codes in four bytes, taken out by shifts. -/
theorem code_fields (x y : Byte) : x.extractLsb' 2 6 = (x >>> 2).setWidth 6 ∧
    x.extractLsb' 0 2 ++ y.extractLsb' 4 4 = (((x &&& 0x03) <<< 4) ||| (y >>> 4)).setWidth 6 ∧
    x.extractLsb' 0 4 ++ y.extractLsb' 6 2 = (((x &&& 0x0F) <<< 2) ||| (y >>> 6)).setWidth 6 ∧
    x.extractLsb' 0 6 = (x &&& 0x3F).setWidth 6 := by
  refine ⟨?shift, ?_, ?_, ?_⟩
  case shift =>
    apply BitVec.eq_of_getLsbD_eq
    intro j hj
    rw [BitVec.getLsbD_extractLsb', BitVec.getLsbD_setWidth, BitVec.getLsbD_ushiftRight]
  all_goals
    apply BitVec.eq_of_getLsbD_eq
    intro j hj
    simp only [BitVec.getLsbD_append, BitVec.getLsbD_extractLsb', BitVec.getLsbD_setWidth, BitVec.getLsbD_or,
      BitVec.getLsbD_shiftLeft, BitVec.getLsbD_ushiftRight, BitVec.getLsbD_and]
    interval_cases j <;> simp

theorem isrcCodes_eq (bcd : Bool) (b : Bytes) :
    isrcCodes bcd b = (List.range 5).map fun i => (isrcCodeAt (bcdv bcd b) (i + 1)).setWidth 6 := by
  obtain ⟨h1, h2, -, -⟩ := code_fields (bcdv bcd b 1) (bcdv bcd b 2)
  obtain ⟨-, -, h3, -⟩ := code_fields (bcdv bcd b 2) (bcdv bcd b 3)
  obtain ⟨-, -, -, h4⟩ := code_fields (bcdv bcd b 3) 0
  obtain ⟨h5, -, -, -⟩ := code_fields (bcdv bcd b 4) 0
  rw [isrcCodes, h1, h2, h3, h4, h5]
  rfl

theorem isrcChars_eq (c : Config) (bcd : Bool) (b : Bytes) :
    isrcChars c bcd b = (List.range 12).map fun i => isrcCharAt c (bcdv bcd b) (i + 1) := by
  rw [isrcChars, isrcCodes_eq]
  rfl

/-- The text of an ISRC in its twelve characters. -/
theorem isrcText_eq (c : Config) (bcd : Bool) (b : Bytes) :
    (isrcText c bcd b).q5 = u32be (isrcCharAt c (bcdv bcd b) 1) (isrcCharAt c (bcdv bcd b) 2)
      (isrcCharAt c (bcdv bcd b) 3) (isrcCharAt c (bcdv bcd b) 4) ∧
    (isrcText c bcd b).q6 = u32be (isrcCharAt c (bcdv bcd b) 5) (isrcCharAt c (bcdv bcd b) 6)
      (isrcCharAt c (bcdv bcd b) 7) (isrcCharAt c (bcdv bcd b) 8) ∧
    (isrcText c bcd b).q7 = u32be (isrcCharAt c (bcdv bcd b) 9) (isrcCharAt c (bcdv bcd b) 10)
      (isrcCharAt c (bcdv bcd b) 11) (isrcCharAt c (bcdv bcd b) 12) ∧
    ((isrcText c bcd b).valid = true ↔ ∀ k, 1 ≤ k → k ≤ 12 → isrcCharAt c (bcdv bcd b) k ≠ 0) := by
  have hchar (i : Nat) (hi : i < 12) : byteAt (isrcChars c bcd b) i = isrcCharAt c (bcdv bcd b) (i + 1) := by
    rw [isrcChars_eq, byteAt_map_range hi]
  simp only [isrcText]
  refine ⟨?_, ?_, ?_, ?valid⟩
  case valid =>
    rw [isrcChars_eq, List.all_map, List.all_eq_true]
    constructor
    · intro h k hlo hhi
      have hk := h (k - 1) (List.mem_range.mpr (by omega))
      rw [Function.comp_apply, Nat.sub_add_cancel hlo] at hk
      exact bne_iff_ne.mp hk
    · intro h i hi
      exact bne_iff_ne.mpr (h (i + 1) (by omega) (List.mem_range.mp hi))
  all_goals rw [hchar _ (by decide), hchar _ (by decide), hchar _ (by decide), hchar _ (by decide)]

/-- Settles O42: the class chooses the text; a catalog number and an ISRC are read digit by digit and code by code. -/
theorem qRecordText : Obligations.QRecordText := by
  unfold Obligations.QRecordText
  intro c qf l b q v
  obtain ⟨h5, h6, h7⟩ := qRecord_text c qf l b
  have hvalid := qRecord_txt_valid c qf l b
  refine ⟨fun hclass => ?mcn, fun hclass => ?isrc, fun hmcn hisrc => ?other⟩
  case mcn =>
    rw [hclass, qText_mcn] at h5 h6 h7 hvalid
    exact ⟨h5, h6, h7, by rw [hvalid]; exact mcnText_valid_iff qf.bcd b⟩
  case isrc =>
    rw [hclass, qText_isrc] at h5 h6 h7 hvalid
    obtain ⟨t5, t6, t7, tvalid⟩ := isrcText_eq c qf.bcd b
    exact ⟨h5.trans t5, h6.trans t6, h7.trans t7, by rw [hvalid]; exact tvalid⟩
  case other =>
    rw [qText_other c qf.bcd b hmcn hisrc] at h5 h6 h7 hvalid
    exact ⟨hvalid, h5, h6, h7⟩

end Sys2Proof.Machine
end
